-- ==== Sys2Proof/Word.lean ====
section
/-! DEFINITION. The word types of CI-1 (spec/30_encoding.md R90, spec/00_scope.md R10). -/

namespace Sys2Proof

/-- A binary64 bit pattern: sign at bit 63, exponent 62:52, fraction 51:0 (R10, R71). Every
real-valued register and operand holds one. -/
abbrev B64 := BitVec 64

/-- A 32-bit command word (R90). -/
abbrev CmdWord := BitVec 32

/-- A 64-bit data operand or response word (R90, R96). -/
abbrev DataWord := BitVec 64

end Sys2Proof
end

