-- ==== Sys2Proof/Syntax.lean ====
section
/-! DEFINITION. The commands of CI-1, one constructor per row of spec/opcode_table.json
(spec/30_encoding.md R90, R93). -/

namespace Sys2Proof

/-- A decoded command with its operands. `a` is the register address (R91) and `d` the data operand
(R92); RD and SRST ignore D (R92), so their constructors do not carry it. -/
inductive Instr where
  /-- WR: write register `a` with `d` (R212, R214). -/
  | wr (a : Nat) (d : DataWord)
  /-- RD: read register `a` (R215). -/
  | rd (a : Nat)
  /-- SMP: process the input sample `d` (R190). -/
  | smp (d : DataWord)
  /-- SRST: stream reset (R195). -/
  | srst
deriving DecidableEq, Repr

end Sys2Proof
end

