-- ==== Sys2Proof/WellFormed.lean ====
section
/-! DEFINITION. Which instruction terms stand for a command of CI-1 (spec/30_encoding.md R91). -/

namespace Sys2Proof

/-- R91: a register address is an unsigned number 0..63. -/
def addrInRange (a : Nat) : Bool := decide (a < 64)

/-- A term some command word encodes: its register address fits the 6-bit ADDR field. -/
def Instr.wellFormed : Instr → Bool
  | .wr a _ => addrInRange a
  | .rd a => addrInRange a
  | .smp _ => true
  | .srst => true

end Sys2Proof
end

