-- ==== Sys2Proof/Decode.lean ====
section
/-! DEFINITION. Decoding of a command word and its data operand, total over all 2^32 words
(spec/30_encoding.md R90, R93-R95), and the encoder. -/

namespace Sys2Proof

/-- OP, bits 31:28 (R90). -/
def opField (cw : CmdWord) : Nat := cw.toNat / 2 ^ 28

/-- RSV, bits 27:6 (R90). -/
def rsvField (cw : CmdWord) : Nat := cw.toNat / 2 ^ 6 % 2 ^ 22

/-- ADDR, bits 5:0 (R90, R91). -/
def addrField (cw : CmdWord) : Nat := cw.toNat % 2 ^ 6

/-- Why a command word is ILLEGAL (R95). -/
inductive DecodeError where
  /-- RSV is not zero. -/
  | nonzeroRsv
  /-- OP is 0x0 or 0x5-0xF. -/
  | reservedOp
  /-- SMP or SRST with a nonzero ADDR. -/
  | nonzeroAddr
deriving DecidableEq, Repr

/-- `decode` of R94, with the reason where it returns ILLEGAL. The command's data operand is carried
by the instructions that use it. -/
def decode (cw : CmdWord) (d : DataWord) : Except DecodeError Instr :=
  if rsvField cw ≠ 0 then .error .nonzeroRsv
  else if opField cw = 1 then .ok (.wr (addrField cw) d)
  else if opField cw = 2 then .ok (.rd (addrField cw))
  else if opField cw = 3 then
    if addrField cw = 0 then .ok (.smp d) else .error .nonzeroAddr
  else if opField cw = 4 then
    if addrField cw = 0 then .ok .srst else .error .nonzeroAddr
  else .error .reservedOp

/-- The command word of an instruction (R93: the row's match, with ADDR in bits 5:0). -/
def encodeWord : Instr → CmdWord
  | .wr a _ => 0x10000000#32 ||| BitVec.ofNat 32 a
  | .rd a => 0x20000000#32 ||| BitVec.ofNat 32 a
  | .smp _ => 0x30000000#32
  | .srst => 0x40000000#32

/-- The data operand presented with it; 0 where the command ignores it (R97). -/
def encodeData : Instr → DataWord
  | .wr _ d => d
  | .rd _ => 0#64
  | .smp d => d
  | .srst => 0#64

/-- The words of an instruction: command word and data operand (R90). -/
def encode (i : Instr) : CmdWord × DataWord := (encodeWord i, encodeData i)

/-- The command word among a command's bits as spec/opcode_table.json numbers them: bits 31..0
(log 10). -/
def tableCmdWord (nbits w : Nat) : CmdWord := BitVec.ofNat 32 (w % 2 ^ nbits)

/-- The data operand among them: the 64 bits above the command word (log 10). -/
def tableDataWord (nbits w : Nat) : DataWord := BitVec.ofNat 64 (w % 2 ^ nbits / 2 ^ 32)

/-- The instruction the decoder reads from a table row's bits; none where it refuses. -/
def decodeTableWord (nbits w : Nat) : Option Instr :=
  (decode (tableCmdWord nbits w) (tableDataWord nbits w)).toOption

end Sys2Proof
end

