-- ==== Sys2Proof/Config.lean ====
section
/-! DEFINITION. The configuration record `cfg` (spec/00_scope.md R5), the names it is indexed by,
and the values the spec leaves free. -/

namespace Sys2Proof

/-- The five bands in cascade order, b = 0..4 (R13); the names are the source's. -/
inductive Band where
  | lowshelf | peak1 | peak2 | peak3 | highshelf
deriving DecidableEq, Repr

/-- The four smoothed parameters of a band: FREQ = 0, Q = 1, BOOST = 2, BYPASS = 3 (R13). -/
inductive Param where
  | freq | q | boost | bypass
deriving DecidableEq, Repr

/-- FilterType (R37): fixed per band. -/
inductive FilterType where
  | lowshelf | peak | highshelf
deriving DecidableEq, Repr

/-- `MODE[p]` (R5): the smoother's kind. -/
inductive SmoothMode where
  | linear | exponential
deriving DecidableEq, Repr

/-- `COEF_UPDATE` (R5). -/
inductive CoefUpdate where
  | perSample | perBlock
deriving DecidableEq, Repr

/-- One value for each of the four parameters. -/
structure ByParam (α : Type) where
  freq : α
  q : α
  boost : α
  bypass : α
deriving DecidableEq, Repr

namespace ByParam

def all {α : Type} (v : α) : ByParam α := ⟨v, v, v, v⟩

def get {α : Type} (t : ByParam α) : Param → α
  | .freq => t.freq
  | .q => t.q
  | .boost => t.boost
  | .bypass => t.bypass

def set {α : Type} (t : ByParam α) (p : Param) (v : α) : ByParam α :=
  match p with
  | .freq => { t with freq := v }
  | .q => { t with q := v }
  | .boost => { t with boost := v }
  | .bypass => { t with bypass := v }

end ByParam

/-- One value for each of the five bands. -/
structure Bands (α : Type) where
  lowshelf : α
  peak1 : α
  peak2 : α
  peak3 : α
  highshelf : α
deriving DecidableEq, Repr

namespace Bands

def all {α : Type} (v : α) : Bands α := ⟨v, v, v, v, v⟩

def ofFn {α : Type} (f : Band → α) : Bands α :=
  ⟨f .lowshelf, f .peak1, f .peak2, f .peak3, f .highshelf⟩

def get {α : Type} (t : Bands α) : Band → α
  | .lowshelf => t.lowshelf
  | .peak1 => t.peak1
  | .peak2 => t.peak2
  | .peak3 => t.peak3
  | .highshelf => t.highshelf

def set {α : Type} (t : Bands α) (b : Band) (v : α) : Bands α :=
  match b with
  | .lowshelf => { t with lowshelf := v }
  | .peak1 => { t with peak1 := v }
  | .peak2 => { t with peak2 := v }
  | .peak3 => { t with peak3 := v }
  | .highshelf => { t with highshelf := v }

end Bands

/-- A configuration function of R5 as plain data (log 2): the number of the function a host platform
supplies, and the values the configuration states itself, which take precedence. -/
structure MathFn (α : Type) where
  platform : Nat := 0
  given : List (α × B64) := []
deriving DecidableEq, Repr

/-- The configuration record `cfg` of R5, with the spec's default beside each field that has one.
`none` in `maxStep`, `expK` or `snap` leaves that constant to its formula (R155, R156). The
record's four functions are plain data that name them (log 2). `FS` and `BLOCK_SIZE` have no default
in the spec (log 1). -/
structure Config where
  /-- `FS`, Hz. -/
  fs : B64
  /-- `BLOCK_SIZE`, samples. -/
  blockSize : Nat
  coefUpdate : CoefUpdate := .perSample
  /-- `FREQ_MIN`, 1.0 Hz. -/
  freqMin : B64 := 0x3FF0000000000000#64
  /-- `FREQ_EPS`, 1.0 Hz. -/
  freqEps : B64 := 0x3FF0000000000000#64
  /-- `Q_MIN`, 0.01. -/
  qMin : B64 := 0x3F847AE147AE147B#64
  /-- `T_SMOOTH`, 0.05 s. -/
  tSmooth : B64 := 0x3FA999999999999A#64
  mode : ByParam SmoothMode := .all .linear
  /-- `MAXSTEP[p]`, where `cfg` gives a value. -/
  maxStep : ByParam (Option B64) := .all none
  /-- `EXP_K[p]`, where `cfg` gives a value. -/
  expK : ByParam (Option B64) := .all none
  /-- `SNAP[p]`, where `cfg` gives a value. -/
  snap : ByParam (Option B64) := .all none
  /-- `PAN`, 0.5. -/
  pan : B64 := 0x3FE0000000000000#64
  /-- `FREQ_DEFAULT[b]`: 100, 500, 1000, 5000, 10000 Hz. -/
  freqDefault : Bands B64 :=
    ⟨0x4059000000000000#64, 0x407F400000000000#64, 0x408F400000000000#64,
     0x40B3880000000000#64, 0x40C3880000000000#64⟩
  /-- `fsin`, the platform's. -/
  fsin : MathFn B64 := ⟨0, []⟩
  /-- `fcos`, the platform's. -/
  fcos : MathFn B64 := ⟨0, []⟩
  /-- `fpow`, the platform's. -/
  fpow : MathFn (B64 × B64) := ⟨0, []⟩
  /-- `fexp`, the platform's. -/
  fexp : MathFn B64 := ⟨0, []⟩
deriving DecidableEq, Repr

/-- `DEF(FS, N)` (spec/95_test_vectors.md): every field but these two at its default. -/
def Config.default (fs : B64) (blockSize : Nat) : Config := { fs := fs, blockSize := blockSize }

/-- The configuration that `State.reset` samples. DESIGN CHOICE (log 1): the spec gives `FS` and
`BLOCK_SIZE` no default; its test vectors use 44100.0 and 256. -/
def Config.atReset : Config := Config.default 0x40E5888000000000#64 256

/-- The sine functions that host platforms supply, by number: total, each depends on its argument
alone, otherwise free (R5, R11; log 2). -/
opaque Config.platformSin : Nat → B64 → B64

/-- The cosine functions, as `Config.platformSin`. -/
opaque Config.platformCos : Nat → B64 → B64

/-- The power functions of a base and an exponent, as `Config.platformSin`. -/
opaque Config.platformPow : Nat → B64 × B64 → B64

/-- The exponential functions, as `Config.platformSin`. -/
opaque Config.platformExp : Nat → B64 → B64

/-- The operators of R10 that can yield a NaN. -/
inductive FloatOp where
  | add | sub | mul | div | sqrt
deriving DecidableEq, Repr

/-- Free value (log 3): the sign and payload bits of the NaN that an operator yields on these
operands (`sqrt` gives its operand twice). `F64.nanOf` forces the exponent and the quiet bit. -/
opaque Config.nanBits : FloatOp → B64 → B64 → BitVec 64

end Sys2Proof
end

