-- ==== Sys2Proof/Machine/Float64.lean ====
section
/-! DEFINITION. IEEE 754-2008 binary64 arithmetic (spec/00_scope.md R10, R11): exact result, then one
rounding to nearest, ties to even. PRESUMED (log 6): the spec takes the IEEE semantics from general
knowledge (93 GK6).

Every finite binary64 value is a whole multiple of 2^-1074, the least subnormal. Magnitudes are
therefore held as natural numbers counting units of 2^-1074, and exact sums and comparisons are
integer sums and comparisons. The values and the operators are irreducible so that the
elaborator never evaluates one by itself; a proof unfolds them, or cites Laws/FloatOps.lean. -/

namespace Sys2Proof.F64

/-- The pattern without its sign bit. -/
def mag (a : B64) : Nat := a.toNat % 2 ^ 63

/-- The sign bit: true for a set bit 63. -/
def signBit (a : B64) : Bool := decide (2 ^ 63 ≤ a.toNat)

/-- The magnitude pattern of the infinities. -/
def infMag : Nat := 0x7FF0000000000000

/-- `isFinite` (R11). -/
def isFinite (a : B64) : Bool := decide (mag a < infMag)

def isInf (a : B64) : Bool := decide (mag a = infMag)

def isNaN (a : B64) : Bool := decide (infMag < mag a)

def isZero (a : B64) : Bool := decide (mag a = 0)

/-- The magnitude, in units of 2^-1074, that a magnitude pattern denotes: exponent field 0 is
subnormal, exponent field e ≥ 1 has the hidden bit and is scaled by 2^(e-1). The pattern of the
infinities gives 2^2098, above every finite magnitude. -/
@[irreducible] def magValue (p : Nat) : Nat :=
  if p < 2 ^ 52 then p else (2 ^ 52 + p % 2 ^ 52) * 2 ^ (p / 2 ^ 52 - 1)

/-- How many units of 2^-1074 make 1.0. -/
@[irreducible] def unitsPerOne : Nat := 2 ^ 1074

/-- The signed value of a non-NaN pattern, in units of 2^-1074. -/
@[irreducible] def value (a : B64) : Int := if signBit a then -(magValue (mag a) : Int) else (magValue (mag a) : Int)

/-- The pattern with this sign and magnitude pattern. -/
def ofMag (s : Bool) (p : Nat) : B64 := BitVec.ofNat 64 (if s then 2 ^ 63 + p else p)

/-- n / d to the nearest whole number, ties to even. -/
def roundQuot (n d : Nat) : Nat :=
  if 2 * (n % d) < d then n / d
  else if d < 2 * (n % d) then n / d + 1
  else n / d + n / d % 2

/-- How many low-order binary places of n / d (in units of 2^-1074) a 53-bit significand drops. -/
def dropBits (n d : Nat) : Nat := Nat.log2 (n / d) - 52

/-- The magnitude pattern nearest to n / d units of 2^-1074, ties to even, overflowing to
infinity. A carry out of the significand lands in the exponent field, where it belongs. -/
def roundMag (n d : Nat) : Nat :=
  min infMag (dropBits n d * 2 ^ 52 + roundQuot n (d * 2 ^ dropBits n d))

/-- The pattern of the signed quotient n / d units of 2^-1074, rounded once. -/
def round (s : Bool) (n d : Nat) : B64 := ofMag s (roundMag n d)

/-- The quiet NaN an operator yields: sign and payload free (log 3). -/
def nanOf (op : FloatOp) (a b : B64) : B64 :=
  Config.nanBits op a b ||| 0x7FF8000000000000#64

/-- `-v`: flips the sign bit (R10). -/
def neg (a : B64) : B64 := a ^^^ 0x8000000000000000#64

/-- `abs(v)`: clears the sign bit (R11). -/
def abs (a : B64) : B64 := a &&& 0x7FFFFFFFFFFFFFFF#64

/-- The sum, with the operator a NaN result is named after. An exact sum of zero is +0 unless both
operands are -0. -/
@[irreducible] def addAs (op : FloatOp) (a b : B64) : B64 :=
  if isNaN a || isNaN b then nanOf op a b
  else if isInf a then
    if isInf b && (signBit a != signBit b) then nanOf op a b else a
  else if isInf b then b
  else if value a + value b = 0 then ofMag (signBit a && signBit b) 0
  else round (decide (value a + value b < 0)) (value a + value b).natAbs 1

/-- `a + b` (R10). -/
def add (a b : B64) : B64 := addAs .add a b

/-- `a - b` (R10): the sum with the sign of `b` flipped. -/
def sub (a b : B64) : B64 := addAs .sub a (neg b)

/-- `a * b` (R10). -/
@[irreducible] def mul (a b : B64) : B64 :=
  if isNaN a || isNaN b then nanOf .mul a b
  else if isInf a || isInf b then
    if isZero a || isZero b then nanOf .mul a b else ofMag (signBit a != signBit b) infMag
  else round (signBit a != signBit b) (magValue (mag a) * magValue (mag b)) unitsPerOne

/-- `a / b` (R10). -/
@[irreducible] def div (a b : B64) : B64 :=
  if isNaN a || isNaN b then nanOf .div a b
  else if isInf a then
    if isInf b then nanOf .div a b else ofMag (signBit a != signBit b) infMag
  else if isInf b then ofMag (signBit a != signBit b) 0
  else if isZero b then
    if isZero a then nanOf .div a b else ofMag (signBit a != signBit b) infMag
  else round (signBit a != signBit b) (magValue (mag a) * unitsPerOne) (magValue (mag b))

/-- The greatest magnitude pattern whose square is at most y (units of 2^-2148), found one bit of
the pattern at a time from bit 62 down: the first j of the 63 bits. -/
def sqrtFloor (y : Nat) : Nat → Nat
  | 0 => 0
  | j + 1 =>
    if magValue (sqrtFloor y j + 2 ^ (62 - j)) ^ 2 ≤ y then sqrtFloor y j + 2 ^ (62 - j)
    else sqrtFloor y j

/-- The magnitude pattern nearest to the square root of n units of 2^-1074: of the greatest pattern
p below the root and its successor, the one on the root's side of their midpoint, and at the
midpoint the even one. -/
def sqrtMag (n : Nat) : Nat :=
  let y := n * unitsPerOne
  let p := sqrtFloor y 63
  let twiceMid := magValue p + magValue (p + 1)
  if 4 * y < twiceMid ^ 2 then p else if twiceMid ^ 2 < 4 * y then p + 1 else p + p % 2

/-- `sqrt` (R10): correctly rounded; sqrt(-0) is -0, a negative operand gives a NaN. -/
@[irreducible] def sqrt (a : B64) : B64 :=
  if isNaN a then nanOf .sqrt a a
  else if isZero a then a
  else if signBit a then nanOf .sqrt a a
  else if isInf a then a
  else ofMag false (sqrtMag (magValue (mag a)))

/-- `a < b` (R11): false when either operand is NaN. -/
def lt (a b : B64) : Bool := !isNaN a && !isNaN b && decide (value a < value b)

/-- `a <= b` (R11). -/
def le (a b : B64) : Bool := !isNaN a && !isNaN b && decide (value a ≤ value b)

/-- `a == b` (R11): +0 and -0 are equal. -/
def eq (a b : B64) : Bool := !isNaN a && !isNaN b && decide (value a = value b)

/-- `min(a, b)` (R11). -/
def min (a b : B64) : B64 := if lt b a then b else a

/-- `max(a, b)` (R11). -/
def max (a b : B64) : B64 := if lt a b then b else a

/-- The binary64 value nearest to the ratio n / d (R10: a literal denotes the nearest value). -/
def ofRatio (s : Bool) (n d : Nat) : B64 := round s (n * unitsPerOne) d

/-- A whole number as binary64 (register NBLK, R40). -/
def ofNat (n : Nat) : B64 := ofRatio false n 1

/-! The literals of the spec's pseudocode; Tests/Slice0.lean checks them against `ofRatio`. -/

/-- `0.0` -/
def zero : B64 := 0x0000000000000000#64
/-- `1.0` -/
def one : B64 := 0x3FF0000000000000#64
/-- `2.0` -/
def two : B64 := 0x4000000000000000#64
/-- `10.0` -/
def ten : B64 := 0x4024000000000000#64
/-- `40.0` -/
def forty : B64 := 0x4044000000000000#64
/-- `48.0` -/
def fortyEight : B64 := 0x4048000000000000#64
/-- `2^-20` (R156) -/
def twoPowNeg20 : B64 := 0x3EB0000000000000#64
/-- `PI` (R10) -/
def pi : B64 := 0x400921FB54442D18#64

end Sys2Proof.F64
end

