-- ==== Sys2Proof/Machine/Constants.lean ====
section
/-! DEFINITION. What follows from the configuration: the derived constants (spec/00_scope.md R7), the
default step constants (spec/41_parameter_smoother.md R155, R156), legality (R6), the clamps
(spec/45_control_access.md R213), and the band constants (R13, R37). -/

namespace Sys2Proof

/-- `TYPE[b]` (R37). -/
def Band.filterType : Band → FilterType
  | .lowshelf => .lowshelf
  | .peak1 => .peak
  | .peak2 => .peak
  | .peak3 => .peak
  | .highshelf => .highshelf

/-- `LABEL[b]` (R37): display strings only. -/
def Band.label : Band → String
  | .lowshelf => "Lowpass"
  | .peak1 => "Peak1"
  | .peak2 => "Peak2"
  | .peak3 => "Peak3"
  | .highshelf => "Highpass"

/-- The band index b = 0..4 (R13). -/
def Band.index : Band → Nat
  | .lowshelf => 0
  | .peak1 => 1
  | .peak2 => 2
  | .peak3 => 3
  | .highshelf => 4

/-- The band with index n; every n above 4 names the last. -/
def Band.ofIndex : Nat → Band
  | 0 => .lowshelf
  | 1 => .peak1
  | 2 => .peak2
  | 3 => .peak3
  | _ => .highshelf

/-- The parameter index p = 0..3 (R13). -/
def Param.index : Param → Nat
  | .freq => 0
  | .q => 1
  | .boost => 2
  | .bypass => 3

/-- The parameter with index n; every n above 3 names the last. -/
def Param.ofIndex : Nat → Param
  | 0 => .freq
  | 1 => .q
  | 2 => .boost
  | _ => .bypass

/-- The binary64 code a TYPE register reads as (R37). -/
def FilterType.code : FilterType → B64
  | .lowshelf => F64.zero
  | .peak => F64.one
  | .highshelf => F64.two

/-- The value of a configuration function (R11): the one `cfg` gives for this argument, else that of
the platform's function (log 2). It depends on the argument alone. -/
def MathFn.value {α : Type} [DecidableEq α] (f : MathFn α) (supplied : Nat → α → B64) (x : α) : B64 :=
  match f.given.lookup x with
  | some y => y
  | none => supplied f.platform x

namespace Config

/-- `fsin(v)` (R11). -/
def sin (c : Config) (v : B64) : B64 := c.fsin.value platformSin v

/-- `fcos(v)` (R11). -/
def cos (c : Config) (v : B64) : B64 := c.fcos.value platformCos v

/-- `fpow(a, b)` (R11). -/
def pow (c : Config) (a b : B64) : B64 := c.fpow.value platformPow (a, b)

/-- `fexp(v)` (R11). -/
def exp (c : Config) (v : B64) : B64 := c.fexp.value platformExp v

/-- `FREQ_MAX = (FS / 2.0) - FREQ_EPS` (R7). -/
def freqMax (c : Config) : B64 := F64.sub (F64.div c.fs F64.two) c.freqEps

/-- `GL = min(1.0, 2.0 * (1.0 - PAN))` (R7). -/
def gl (c : Config) : B64 := F64.min F64.one (F64.mul F64.two (F64.sub F64.one c.pan))

/-- `GR = min(1.0, 2.0 * PAN)` (R7). -/
def gr (c : Config) : B64 := F64.min F64.one (F64.mul F64.two c.pan)

/-- `SPAN[p]` (R155). -/
def span (c : Config) : Param → B64
  | .freq => F64.div c.fs F64.two
  | .q => F64.ten
  | .boost => F64.fortyEight
  | .bypass => F64.one

/-- `T_SMOOTH * FS`, rounded once (R155, R156). -/
def smoothSamples (c : Config) : B64 := F64.mul c.tSmooth c.fs

/-- `MAXSTEP[p]`: the given value, else the formula of R155. -/
def maxStepOf (c : Config) (p : Param) : B64 :=
  match c.maxStep.get p with
  | some m => m
  | none => F64.div (c.span p) c.smoothSamples

/-- `EXP_K[p]`: the given value, else the formula of R156. -/
def expKOf (c : Config) (p : Param) : B64 :=
  match c.expK.get p with
  | some k => k
  | none => F64.sub F64.one (c.exp (F64.div (F64.neg F64.one) c.smoothSamples))

/-- `SNAP[p]`: the given value, else the formula of R156. -/
def snapOf (c : Config) (p : Param) : B64 :=
  match c.snap.get p with
  | some v => v
  | none => F64.mul (c.span p) F64.twoPowNeg20

/-- `ClampFreq` (R213). -/
def clampFreq (c : Config) (v : B64) : B64 :=
  if F64.lt v c.freqMin then c.freqMin
  else if F64.lt c.freqMax v then c.freqMax
  else v

/-- `ClampQ` (R213). -/
def clampQ (c : Config) (v : B64) : B64 := if F64.lt v c.qMin then c.qMin else v

/-- `ClampBypass` (R213). -/
def clampBypass (v : B64) : B64 :=
  if F64.lt v F64.zero then F64.zero
  else if F64.lt F64.one v then F64.one
  else v

/-- A value that is finite and greater than zero. -/
def positive (v : B64) : Bool := F64.isFinite v && F64.lt F64.zero v

/-- R6 for `MAXSTEP[p]` and `SNAP[p]`. -/
def legalStep (c : Config) (p : Param) : Bool :=
  positive (c.maxStepOf p) && F64.le F64.zero (c.snapOf p) && F64.le (c.snapOf p) (c.maxStepOf p)

/-- R6 for `EXP_K[p]`. -/
def legalExpK (c : Config) (p : Param) : Bool :=
  F64.lt F64.zero (c.expKOf p) && F64.le (c.expKOf p) F64.one

/-- Every clause of R6 but the one on `EXP_K[p]`. -/
def legalButExpK (c : Config) : Bool :=
  F64.isFinite c.fs
    && F64.lt (F64.mul F64.two (F64.add c.freqMin c.freqEps)) c.fs
    && decide (1 ≤ c.blockSize) && decide (c.blockSize ≤ 2 ^ 32 - 1)
    && positive c.freqMin
    && F64.isFinite c.freqEps && F64.le F64.zero c.freqEps
    && positive c.qMin
    && positive c.tSmooth
    && c.legalStep .freq && c.legalStep .q && c.legalStep .boost && c.legalStep .bypass
    && F64.le F64.zero c.pan && F64.le c.pan F64.one
    && F64.isFinite c.freqDefault.lowshelf && F64.isFinite c.freqDefault.peak1
    && F64.isFinite c.freqDefault.peak2 && F64.isFinite c.freqDefault.peak3
    && F64.isFinite c.freqDefault.highshelf

/-- A legal configuration (R6). -/
def legal (c : Config) : Bool :=
  c.legalButExpK && c.legalExpK .freq && c.legalExpK .q && c.legalExpK .boost && c.legalExpK .bypass

end Config

end Sys2Proof
end

