-- ==== Sys2Proof/Machine/BandRegs.lean ====
section
/-! DEFINITION. The registers of one band (spec/10_state.md R30-R34). -/

namespace Sys2Proof.Machine

/-- The coefficient registers of a band, normalised by a0 (R34). -/
structure Coefs where
  b0 : B64
  b1 : B64
  b2 : B64
  a1 : B64
  a2 : B64
deriving DecidableEq, Repr

/-- The filter delay state of a band (R33): x[n-1], x[n-2], y[n-1], y[n-2]. -/
structure Delay where
  x1 : B64
  x2 : B64
  y1 : B64
  y2 : B64
deriving DecidableEq, Repr

/-- The registers of a band: targets `TGT[.][b]` (R31), currents `CUR[.][b]` (R32), delay state (R33)
and coefficients (R34). -/
structure BandRegs where
  tgt : ByParam B64
  cur : ByParam B64
  delay : Delay
  coefs : Coefs
deriving DecidableEq, Repr

end Sys2Proof.Machine
end

