-- ==== Sys2Proof/Machine/Biquad.lean ====
section
/-! DEFINITION. The biquad_filter block: the coefficient generator `Coef` and the recurrence `Biquad`
(spec/40_biquad_filter.md R120-R133). -/

namespace Sys2Proof.Machine

/-- Coefficients before normalisation (R123-R126). -/
structure RawCoefs where
  b0 : B64
  b1 : B64
  b2 : B64
  a0 : B64
  a1 : B64
  a2 : B64
deriving DecidableEq, Repr

/-- The identity filter (R129). -/
def identityCoefs : Coefs := ⟨F64.one, F64.zero, F64.zero, F64.zero, F64.zero⟩

/-- All four delay registers at +0.0. -/
def clearedDelay : Delay := ⟨F64.zero, F64.zero, F64.zero, F64.zero⟩

/-- The literal `-2.0`. -/
def minusTwo : B64 := F64.neg F64.two

/-- `A = fpow(10.0, g / 40.0)` (R123). -/
def amplitude (cfg : Config) (g : B64) : B64 := cfg.pow F64.ten (F64.div g F64.forty)

/-- `w0 = ((2.0 * PI) * fc) / FS` (R123). -/
def omega0 (cfg : Config) (fc : B64) : B64 :=
  F64.div (F64.mul (F64.mul F64.two F64.pi) fc) cfg.fs

/-- `alpha = sw / (2.0 * qc)` (R123). -/
def alphaOf (sw qc : B64) : B64 := F64.div sw (F64.mul F64.two qc)

/-- PEAK (R124). -/
def rawPeak (A cw alpha : B64) : RawCoefs where
  b0 := F64.add F64.one (F64.mul alpha A)
  b1 := F64.mul minusTwo cw
  b2 := F64.sub F64.one (F64.mul alpha A)
  a0 := F64.add F64.one (F64.div alpha A)
  a1 := F64.mul minusTwo cw
  a2 := F64.sub F64.one (F64.div alpha A)

/-- `t = (2.0 * sqrt(A)) * alpha` of both shelves (R125, R126). -/
def shelfTerm (A alpha : B64) : B64 := F64.mul (F64.mul F64.two (F64.sqrt A)) alpha

/-- LOWSHELF (R125). -/
def rawLowshelf (A cw alpha : B64) : RawCoefs :=
  let Ap1 := F64.add A F64.one
  let Am1 := F64.sub A F64.one
  let t := shelfTerm A alpha
  { b0 := F64.mul A (F64.add (F64.sub Ap1 (F64.mul Am1 cw)) t)
    b1 := F64.mul (F64.mul F64.two A) (F64.sub Am1 (F64.mul Ap1 cw))
    b2 := F64.mul A (F64.sub (F64.sub Ap1 (F64.mul Am1 cw)) t)
    a0 := F64.add (F64.add Ap1 (F64.mul Am1 cw)) t
    a1 := F64.mul minusTwo (F64.add Am1 (F64.mul Ap1 cw))
    a2 := F64.sub (F64.add Ap1 (F64.mul Am1 cw)) t }

/-- HIGHSHELF (R126). -/
def rawHighshelf (A cw alpha : B64) : RawCoefs :=
  let Ap1 := F64.add A F64.one
  let Am1 := F64.sub A F64.one
  let t := shelfTerm A alpha
  { b0 := F64.mul A (F64.add (F64.add Ap1 (F64.mul Am1 cw)) t)
    b1 := F64.mul (F64.mul minusTwo A) (F64.add Am1 (F64.mul Ap1 cw))
    b2 := F64.mul A (F64.sub (F64.add Ap1 (F64.mul Am1 cw)) t)
    a0 := F64.add (F64.sub Ap1 (F64.mul Am1 cw)) t
    a1 := F64.mul F64.two (F64.sub Am1 (F64.mul Ap1 cw))
    a2 := F64.sub (F64.sub Ap1 (F64.mul Am1 cw)) t }

/-- The raw coefficients of a filter type from `A`, `cw` and `alpha` (R124-R126). -/
def rawOf (ty : FilterType) (A cw alpha : B64) : RawCoefs :=
  match ty with
  | .peak => rawPeak A cw alpha
  | .lowshelf => rawLowshelf A cw alpha
  | .highshelf => rawHighshelf A cw alpha

/-- `Raw(type, fc, qc, g)` (R123). -/
def raw (cfg : Config) (ty : FilterType) (fc qc g : B64) : RawCoefs :=
  rawOf ty (amplitude cfg g) (cfg.cos (omega0 cfg fc)) (alphaOf (cfg.sin (omega0 cfg fc)) qc)

/-- `Normalise` (R127). -/
def normalise (r : RawCoefs) : Coefs :=
  ⟨F64.div r.b0 r.a0, F64.div r.b1 r.a0, F64.div r.b2 r.a0, F64.div r.a1 r.a0, F64.div r.a2 r.a0⟩

/-- `Coef(type, f, q, g)` (R121, R129). -/
def coef (cfg : Config) (ty : FilterType) (f q g : B64) : Coefs :=
  if F64.eq g F64.zero then identityCoefs
  else normalise (raw cfg ty (cfg.clampFreq f) (cfg.clampQ q) g)

/-- What a guarded block yields: its output and whether its guard fired (R236). -/
structure Guarded where
  out : B64
  fired : Bool
deriving DecidableEq, Repr

/-- A guard (R236): a non-finite value is replaced by +0.0. -/
def guardFinite (v : B64) : Guarded :=
  if F64.isFinite v then ⟨v, false⟩ else ⟨F64.zero, true⟩

/-- The `w` of R130: summed from the left, `A2 * y2` subtracted last (R133). -/
def recurrence (c : Coefs) (z : Delay) (u : B64) : B64 :=
  F64.sub
    (F64.sub
      (F64.add (F64.add (F64.mul c.b0 u) (F64.mul c.b1 z.x1)) (F64.mul c.b2 z.x2))
      (F64.mul c.a1 z.y1))
    (F64.mul c.a2 z.y2)

/-- The delay state after a step on input `u` that computed `w`: advanced when `w` is finite (R132),
cleared when the guard fires (R131). -/
def nextDelay (z : Delay) (u w : B64) : Delay :=
  if F64.isFinite w then ⟨u, z.x1, w, z.y1⟩ else clearedDelay

end Sys2Proof.Machine
end

