-- ==== Sys2Proof/Machine/Reset.lean ====
section
/-! DEFINITION. The values power-on reset gives a band's registers (spec/10_state.md R43). -/

namespace Sys2Proof.Machine

/-- The targets of a band after power-on reset. Q is 1.0 whatever Q_MIN is (log 7). -/
def resetTargets (cfg : Config) (b : Band) : ByParam B64 where
  freq := cfg.clampFreq (cfg.freqDefault.get b)
  q := F64.one
  boost := F64.zero
  bypass := F64.zero

/-- The registers of a band after power-on reset: currents at the targets, delay state cleared, the
coefficients `Coef` gives for the currents. -/
def resetBand (cfg : Config) (b : Band) : BandRegs where
  tgt := resetTargets cfg b
  cur := resetTargets cfg b
  delay := clearedDelay
  coefs := coef cfg b.filterType (resetTargets cfg b).freq (resetTargets cfg b).q
    (resetTargets cfg b).boost

/-- `MULR` after power-on reset. -/
def resetMul : B64 := F64.one

end Sys2Proof.Machine
end

