-- ==== Sys2Proof/Machine/State.lean ====
section
/-! DEFINITION. The state of the core (spec/10_state.md R30-R37) and power-on reset (R43,
spec/70_reset_and_hazards.md R260). -/

namespace Sys2Proof.Machine

/-- The storage of the STATUS register (R36): its three fields. Every other bit reads 0 and ignores
writes, so it is no storage; `Status.word` (Flags.lean) is the 64-bit register. -/
structure Status where
  /-- Bit 0, sticky: some command was rejected. -/
  err : Bool
  /-- Bit 1, sticky: some guard forced silence. -/
  nanf : Bool
  /-- Bits 7:4: the code of the most recent rejected command, 0 when none. -/
  lastErr : BitVec 4
deriving DecidableEq, Repr

/-- The two host agents (spec/20_memory.md R77). -/
inductive Agent where
  | audio | control
deriving DecidableEq, Repr

/-- What the host can do to the core (R85): present a command, or apply power-on reset, which samples
a configuration (R260). -/
inductive HostEvent where
  | command (issuer : Agent) (cw : CmdWord) (d : DataWord)
  | powerOn (cfg : Config)
deriving DecidableEq, Repr

/-- The output triple (M, L, R) of an accepted SMP (spec/30_encoding.md R96). -/
structure SampleOut where
  m : B64
  l : B64
  r : B64
deriving DecidableEq, Repr

/-- The response of a command (R96). -/
structure Response where
  /-- CODE. -/
  code : BitVec 4
  /-- RDATA. -/
  rdata : DataWord
  /-- OUT, present for an accepted SMP only. -/
  out : Option SampleOut
deriving DecidableEq, Repr

/-- The state of the machine. `bands`, `mulr`, `pos` and `status` are the spec's record (R30). `cfg`
is its configuration, constant between power-on resets (R262; log 1). `port` and `resp` are the
model's own: the host events not yet performed, oldest first (log 4), and the response of the
most recent command (log 5). -/
structure State where
  cfg : Config
  bands : Bands BandRegs
  mulr : B64
  pos : Nat
  status : Status
  port : List HostEvent
  resp : Option Response
deriving DecidableEq, Repr

/-- The reasons the machine can stop with a fault: none. The core never halts (R273), an error is a
rejection with a next state (R230), and an audio fault is a guard event with a next state (R237). -/
inductive Fault where
deriving DecidableEq, Repr

/-- The reasons a step can be refused. -/
inductive Refusal where
  /-- Raised by `exec` for an instruction without a meaning. Safe. No arm of this model raises it. -/
  | notModelled (mnemonic : String)
  /-- Raised by the power-on reset event on a configuration that R6 calls illegal: "A model refuses
  (gives no machine) for an illegal configuration." Safe (log 8). -/
  | illegalConfiguration
deriving DecidableEq, Repr

/-- STATUS after power-on reset: 0 (R43). -/
def Status.reset : Status := ⟨false, false, 0#4⟩

/-- The machine right after power-on reset with configuration `cfg` (R43), with nothing presented by
the host and no response given. -/
def State.powerOn (cfg : Config) : State where
  cfg := cfg
  bands := Bands.ofFn (resetBand cfg)
  mulr := resetMul
  pos := 0
  status := Status.reset
  port := []
  resp := none

/-- The machine right after reset, with the configuration of log 1. -/
def State.reset : State := State.powerOn Config.atReset

end Sys2Proof.Machine
end

