-- ==== Sys2Proof/Machine/Flags.lean ====
section
/-! DEFINITION. The STATUS register (spec/10_state.md R36) and everything that sets or clears its
fields (spec/45_control_access.md R214, spec/60_exceptions.md R231, R233, R238). -/

namespace Sys2Proof.Machine

/-- The response codes of R231. -/
inductive Code where
  | ok | errAddr | errRo | errValue | errOpcode
deriving DecidableEq, Repr

/-- The 4-bit encoding of a response code (R231). -/
def Code.bits : Code → BitVec 4
  | .ok => 0#4
  | .errAddr => 1#4
  | .errRo => 2#4
  | .errValue => 3#4
  | .errOpcode => 4#4

/-- The 64-bit STATUS register as it reads: ERR in bit 0, NANF in bit 1, LASTERR in bits 7:4, every
other bit 0 (R36). -/
def Status.word (s : Status) : DataWord :=
  BitVec.ofNat 64 (s.err.toNat + 2 * s.nanf.toNat + 16 * s.lastErr.toNat)

/-- `WriteStatus(D)` (R214): write-1-to-clear; LASTERR clears with ERR; D[63:2] is ignored. -/
def Status.write (s : Status) (d : DataWord) : Status where
  err := s.err && !d.getLsbD 0
  nanf := s.nanf && !d.getLsbD 1
  lastErr := if d.getLsbD 0 then 0#4 else s.lastErr

/-- What a rejection records (R233): ERR and the code; NANF stays. -/
def Status.recordReject (s : Status) (c : Code) : Status :=
  { s with err := true, lastErr := c.bits }

/-- NANF after an SMP: set when some guard fired, else kept (R238). -/
def Status.recordGuard (s : Status) (fired : Bool) : Status :=
  { s with nanf := s.nanf || fired }

end Sys2Proof.Machine
end

