-- ==== Sys2Proof/Machine/Operands.lean ====
section
/-! DEFINITION. The operands of a command: the register a register address names
(spec/10_state.md R40, R42; spec/45_control_access.md R210) and the data operand read as a
binary64 value (spec/30_encoding.md R92). -/

namespace Sys2Proof.Machine

/-- The registers of the map of R40. -/
inductive Reg where
  | target (p : Param) (b : Band)
  | mul
  | current (p : Param) (b : Band)
  | mulC
  | pan
  | fs
  | nblk
  | type (b : Band)
  | status
  /-- A reserved address, 0x15-0x1F, 0x3D or 0x3E; also every number that is no 6-bit address
  (log 9). -/
  | reserved
deriving DecidableEq, Repr

/-- The access classes of R210. -/
inductive AccessClass where
  | param | ro | statusA | rsvd
deriving DecidableEq, Repr

/-- The register at an address (R40). -/
def regAt (a : Nat) : Reg :=
  if a < 0x14 then .target (Param.ofIndex (a / 5)) (Band.ofIndex (a % 5))
  else if a = 0x14 then .mul
  else if a < 0x20 then .reserved
  else if a < 0x34 then .current (Param.ofIndex ((a - 0x20) / 5)) (Band.ofIndex ((a - 0x20) % 5))
  else if a = 0x34 then .mulC
  else if a = 0x35 then .pan
  else if a = 0x36 then .fs
  else if a = 0x37 then .nblk
  else if a < 0x3D then .type (Band.ofIndex (a - 0x38))
  else if a = 0x3F then .status
  else .reserved

/-- The access class of a register (R40, R210). -/
def Reg.access : Reg → AccessClass
  | .target _ _ => .param
  | .mul => .param
  | .current _ _ => .ro
  | .mulC => .ro
  | .pan => .ro
  | .fs => .ro
  | .nblk => .ro
  | .type _ => .ro
  | .status => .statusA
  | .reserved => .rsvd

/-- The data operand of a parameter write or of SMP, read as a binary64 pattern (R92). -/
def sampleOf (d : DataWord) : B64 := d

/-- The response word that holds a binary64 value: its pattern (R71, R215). -/
def wordOf (v : B64) : DataWord := v

end Sys2Proof.Machine
end

