-- ==== Sys2Proof/Machine/Ops.lean ====
section
/-! DEFINITION. The operations the meanings share: ending a command (spec/00_scope.md R12), rejecting
one (spec/60_exceptions.md R233), and the reads and writes of the register map
(spec/45_control_access.md R212, R215). -/

namespace Sys2Proof.Machine

/-- What a command yields. -/
abbrev Result := Host.Outcome State Fault Refusal

/-- The response of a rejected command: its code, RDATA 0, no OUT (R96, R233). -/
def rejection (c : Code) : Response := ⟨c.bits, 0#64, none⟩

/-- `raise Reject(code)` (R233): the core's one way to take an error. Only STATUS and the response
change. -/
def reject (c : Code) (s : State) : Result :=
  .next { s with status := s.status.recordReject c, resp := some (rejection c) }

/-- `respond(OK, rdata)` with an optional OUT (R12, R96). -/
def respondOk (rdata : DataWord) (out : Option SampleOut) (s : State) : Result :=
  .next { s with resp := some ⟨Code.ok.bits, rdata, out⟩ }

/-- `Value(a)` of R215, by the register the address names; a reserved one has no value and is never
read. -/
def readReg (s : State) : Reg → DataWord
  | .target p b => wordOf ((s.bands.get b).tgt.get p)
  | .mul => wordOf s.mulr
  | .current p b => wordOf ((s.bands.get b).cur.get p)
  | .mulC => wordOf s.mulr
  | .pan => wordOf s.cfg.pan
  | .fs => wordOf s.cfg.fs
  | .nblk => wordOf (F64.ofNat s.cfg.blockSize)
  | .type b => wordOf b.filterType.code
  | .status => s.status.word
  | .reserved => 0#64

/-- The value a parameter target takes when `v` is written to it (R212, R213). -/
def clampParam (cfg : Config) (p : Param) (v : B64) : B64 :=
  match p with
  | .freq => cfg.clampFreq v
  | .q => cfg.clampQ v
  | .boost => v
  | .bypass => Config.clampBypass v

/-- `TGT[p][b] <- v`. -/
def writeTarget (s : State) (p : Param) (b : Band) (v : B64) : State :=
  { s with
    bands := s.bands.set b { s.bands.get b with tgt := (s.bands.get b).tgt.set p v } }

end Sys2Proof.Machine
end

