-- ==== Sys2Proof/Machine/Access.lean ====
section
/-! DEFINITION. The parameter access commands WR and RD (spec/45_control_access.md R210-R218). -/

namespace Sys2Proof.Machine

/-- WR of `v` to the target of parameter `p`, band `b` (R212, R213, R217). -/
def writeParam (p : Param) (b : Band) (v : B64) (s : State) : Result :=
  if F64.isFinite v then respondOk 0#64 none (writeTarget s p b (clampParam s.cfg p v))
  else reject .errValue s

/-- WR of `v` to MUL (R212, R217, R218). -/
def writeMul (v : B64) (s : State) : Result :=
  if F64.isFinite v && !F64.lt v F64.zero then respondOk 0#64 none { s with mulr := v }
  else reject .errValue s

/-- WR of the mask `d` to STATUS (R214). -/
def writeStatusReg (d : DataWord) (s : State) : Result :=
  respondOk 0#64 none { s with status := s.status.write d }

/-- WR (R212): the address is checked before the value (R235). -/
def execWr (a : Nat) (d : DataWord) (s : State) : Result :=
  match regAt a with
  | .reserved => reject .errAddr s
  | .current _ _ => reject .errRo s
  | .mulC => reject .errRo s
  | .pan => reject .errRo s
  | .fs => reject .errRo s
  | .nblk => reject .errRo s
  | .type _ => reject .errRo s
  | .status => writeStatusReg d s
  | .mul => writeMul (sampleOf d) s
  | .target p b => writeParam p b (sampleOf d) s

/-- RD (R215). -/
def execRd (a : Nat) (s : State) : Result :=
  match (regAt a).access with
  | .rsvd => reject .errAddr s
  | .param => respondOk (readReg s (regAt a)) none s
  | .ro => respondOk (readReg s (regAt a)) none s
  | .statusA => respondOk (readReg s (regAt a)) none s

end Sys2Proof.Machine
end

