-- ==== Sys2Proof/Machine/Crossfader.lean ====
section
/-! DEFINITION. The bypass_crossfader block (spec/42_bypass_crossfader.md R170-R172). -/

namespace Sys2Proof.Machine

/-- The `v` of R170 before its guard: the endpoints select (R171), the interior blends. -/
def mix (u w beta : B64) : B64 :=
  if F64.eq beta F64.zero then w
  else if F64.eq beta F64.one then u
  else F64.add (F64.mul u beta) (F64.mul w (F64.sub F64.one beta))

/-- `Blend(u, w, beta)` (R170), with the band output guard (R172). -/
def blend (u w beta : B64) : Guarded := guardFinite (mix u w beta)

end Sys2Proof.Machine
end

