-- ==== Sys2Proof/Machine/Smoother.lean ====
section
/-! DEFINITION. The parameter_smoother block (spec/41_parameter_smoother.md R150-R152). -/

namespace Sys2Proof.Machine

/-- `TickLinear(c, t, m)` (R151). -/
def tickLinear (c t m : B64) : B64 :=
  if F64.le (F64.abs (F64.sub t c)) m then t
  else if F64.lt F64.zero (F64.sub t c) then F64.add c m
  else F64.sub c m

/-- The step of R152 for a distance `d`: `d * k`, then clamped to `[-m, m]`. -/
def expStep (d m k : B64) : B64 :=
  let s := F64.mul d k
  let s := if F64.lt m s then m else s
  if F64.lt s (F64.neg m) then F64.neg m else s

/-- `TickExp(c, t, m, k, snap)` (R152). -/
def tickExp (c t m k snap : B64) : B64 :=
  let d := F64.sub t c
  let n := F64.add c (expStep d m k)
  if F64.le (F64.abs d) snap then t
  else if F64.lt F64.zero d && F64.lt t n then t
  else if F64.lt d F64.zero && F64.lt n t then t
  else n

/-- The current that `Tick(p, b)` leaves, from the current `c` and the target `t` (R150). -/
def tick (cfg : Config) (p : Param) (c t : B64) : B64 :=
  match cfg.mode.get p with
  | .linear => tickLinear c t (cfg.maxStepOf p)
  | .exponential => tickExp c t (cfg.maxStepOf p) (cfg.expKOf p) (cfg.snapOf p)

/-- Step (a) of R180: all four smoothers of a band advance once, each from its own target and
current alone (R153, R154). -/
def tickAll (cfg : Config) (cur tgt : ByParam B64) : ByParam B64 where
  freq := tick cfg .freq cur.freq tgt.freq
  q := tick cfg .q cur.q tgt.q
  boost := tick cfg .boost cur.boost tgt.boost
  bypass := tick cfg .bypass cur.bypass tgt.bypass

end Sys2Proof.Machine
end

