-- ==== Sys2Proof/Machine/Chain.lean ====
section
/-! DEFINITION. The band step (spec/43_eq_band.md R180, R181) and the cascade's commands SMP and SRST
(spec/44_eq_chain.md R190-R195). -/

namespace Sys2Proof.Machine

/-- Step (b) of R180: the coefficients after the currents `cur` have ticked. `pos` is the position
before this SMP advances it (R181). -/
def updatedCoefs (cfg : Config) (pos : Nat) (ty : FilterType) (cur : ByParam B64) (old : Coefs) :
    Coefs :=
  if cfg.coefUpdate = .perSample ∨ pos = 0 then coef cfg ty cur.freq cur.q cur.boost else old

/-- The wet output `w` of steps (a) to (c) before the recurrence guard. -/
def bandWet (cfg : Config) (pos : Nat) (b : Band) (u : B64) (r : BandRegs) : B64 :=
  recurrence (updatedCoefs cfg pos b.filterType (tickAll cfg r.cur r.tgt) r.coefs) r.delay u

/-- Step (d) of R180: the blend of the dry input and the guarded wet output. -/
def bandBlend (cfg : Config) (pos : Nat) (b : Band) (u : B64) (r : BandRegs) : Guarded :=
  blend u (guardFinite (bandWet cfg pos b u r)).out (tickAll cfg r.cur r.tgt).bypass

/-- The output of `BandStep(b, u)` (R180 (e)). -/
def bandOut (cfg : Config) (pos : Nat) (b : Band) (u : B64) (r : BandRegs) : B64 :=
  (bandBlend cfg pos b u r).out

/-- Whether a guard of the band fired: the recurrence guard (R131) or the output guard (R172). -/
def bandFired (cfg : Config) (pos : Nat) (b : Band) (u : B64) (r : BandRegs) : Bool :=
  (guardFinite (bandWet cfg pos b u r)).fired || (bandBlend cfg pos b u r).fired

/-- The registers that `BandStep(b, u)` leaves (R180, R182). -/
def bandRegs (cfg : Config) (pos : Nat) (b : Band) (u : B64) (r : BandRegs) : BandRegs where
  tgt := r.tgt
  cur := tickAll cfg r.cur r.tgt
  delay := nextDelay r.delay u (bandWet cfg pos b u r)
  coefs := updatedCoefs cfg pos b.filterType (tickAll cfg r.cur r.tgt) r.coefs

/-- What enters band n when `u` enters the first: each band's output is the next band's input, in the
fixed order (R194). Index 5 is the output of the last band. -/
def cascadeAt (cfg : Config) (pos : Nat) (bs : Bands BandRegs) (u : B64) : Nat → B64
  | 0 => u
  | n + 1 =>
    bandOut cfg pos (Band.ofIndex n) (cascadeAt cfg pos bs u n) (bs.get (Band.ofIndex n))

/-- The band registers after the five band steps (R190). -/
def cascadeRegs (cfg : Config) (pos : Nat) (bs : Bands BandRegs) (u : B64) : Bands BandRegs :=
  Bands.ofFn fun b => bandRegs cfg pos b (cascadeAt cfg pos bs u b.index) (bs.get b)

/-- Whether a guard of band `b` fired when `u` enters the cascade. -/
def cascadeFiredAt (cfg : Config) (pos : Nat) (bs : Bands BandRegs) (u : B64) (b : Band) : Bool :=
  bandFired cfg pos b (cascadeAt cfg pos bs u b.index) (bs.get b)

/-- Whether a guard of any band fired. -/
def cascadeFired (cfg : Config) (pos : Nat) (bs : Bands BandRegs) (u : B64) : Bool :=
  cascadeFiredAt cfg pos bs u .lowshelf || cascadeFiredAt cfg pos bs u .peak1
    || cascadeFiredAt cfg pos bs u .peak2 || cascadeFiredAt cfg pos bs u .peak3
    || cascadeFiredAt cfg pos bs u .highshelf

/-- `M` of `OutStage(y)` with its guard (R193). -/
def outGain (mulr y : B64) : Guarded := guardFinite (F64.mul y mulr)

/-- `OutStage(y)`: the triple (M, L, R) (R193). -/
def outStage (cfg : Config) (mulr y : B64) : SampleOut where
  m := (outGain mulr y).out
  l := F64.mul (outGain mulr y).out cfg.gl
  r := F64.mul (outGain mulr y).out cfg.gr

/-- `InGuard(x)` (R191). -/
def inGuard (x : B64) : Guarded := guardFinite x

/-- The output of the fifth band for the input sample `x`. -/
def chainOut (s : State) (x : B64) : B64 := cascadeAt s.cfg s.pos s.bands (inGuard x).out 5

/-- Whether any guard fires during the SMP of `x` (R236). -/
def chainFired (s : State) (x : B64) : Bool :=
  (inGuard x).fired || cascadeFired s.cfg s.pos s.bands (inGuard x).out
    || (outGain s.mulr (chainOut s x)).fired

/-- `pos <- (pos + 1) mod BLOCK_SIZE` (R192). -/
def nextPos (cfg : Config) (pos : Nat) : Nat := (pos + 1) % cfg.blockSize

/-- The state an SMP of `x` leaves, before its response (R190). -/
def afterSample (s : State) (x : B64) : State :=
  { s with
    bands := cascadeRegs s.cfg s.pos s.bands (inGuard x).out
    pos := nextPos s.cfg s.pos
    status := s.status.recordGuard (chainFired s x) }

/-- SMP (R190). -/
def execSmp (d : DataWord) (s : State) : Result :=
  respondOk 0#64 (some (outStage s.cfg s.mulr (chainOut s (sampleOf d))))
    (afterSample s (sampleOf d))

/-- A band with its delay state cleared and nothing else changed (R195). -/
def clearDelay (r : BandRegs) : BandRegs := { r with delay := clearedDelay }

/-- SRST (R195). -/
def execSrst (s : State) : Result :=
  respondOk 0#64 none { s with bands := Bands.ofFn fun b => clearDelay (s.bands.get b), pos := 0 }

end Sys2Proof.Machine
end

