-- ==== Sys2Proof/Machine/Dispatch.lean ====
section
/-! DEFINITION. One arm per instruction (spec/opcode_table.json). -/

namespace Sys2Proof.Machine

def exec (i : Instr) (s : State) : Host.Outcome State Fault Refusal :=
  match i with
  | .wr a d => Sys2Proof.Machine.execWr a d s
  | .rd a => Sys2Proof.Machine.execRd a s
  | .smp d => Sys2Proof.Machine.execSmp d s
  | .srst => Sys2Proof.Machine.execSrst s

end Sys2Proof.Machine
end

