-- ==== Sys2Proof/Machine/Perform.lean ====
section
/-! DEFINITION. Performing one host event: a command (spec/30_encoding.md R94, R95) or power-on reset
(spec/70_reset_and_hazards.md R260), and idling (spec/60_exceptions.md R248). -/

namespace Sys2Proof.Machine

/-- Perform the command `cw`, `d`: decode it and run the instruction; an ILLEGAL word is rejected
before anything is read (R232). -/
def performCommand (cw : CmdWord) (d : DataWord) (s : State) : Result :=
  match decode cw d with
  | .ok i => exec i s
  | .error _ => reject .errOpcode s

/-- The power-on reset event (R260): every element takes its value of R43, the events still to come
stay. An illegal configuration gives no machine (R6; log 8). -/
def performPowerOn (cfg : Config) (s : State) : Result :=
  if cfg.legal then .next { State.powerOn cfg with port := s.port }
  else .refused .illegalConfiguration

/-- Perform one host event. Which agent issued a command makes no difference (R243). -/
def perform (e : HostEvent) (s : State) : Result :=
  match e with
  | .command _ cw d => performCommand cw d s
  | .powerOn cfg => performPowerOn cfg s

/-- The state once the oldest pending event has been taken from the port. -/
def takeEvent (s : State) (rest : List HostEvent) : State := { s with port := rest }

/-- One step of the core: the oldest pending event is performed as a whole (R73, R79). With nothing
pending the core is idle and holds all state (R248). -/
def stepCore (s : State) : Result :=
  match s.port with
  | [] => .next s
  | e :: rest => perform e (takeEvent s rest)

/-- The host presents one command ahead of everything pending (log 4, log 10). -/
def present (s : State) (cw : CmdWord) (d : DataWord) : State :=
  { s with port := .command .control cw d :: s.port }

end Sys2Proof.Machine
end

