-- ==== Sys2Proof/Machine/Step.lean ====
section
/-! DEFINITION. One step of the machine, and how a table word is placed where it is performed next. -/

namespace Sys2Proof.Machine

/-- One step (Perform.lean). -/
def step : State → Host.Outcome State Fault Refusal := stepCore

/-- `s` with the table row's command presented next at the command port (log 10). -/
def State.withFetchWord (s : State) (nbits w : Nat) : State :=
  present s (tableCmdWord nbits w) (tableDataWord nbits w)

end Sys2Proof.Machine
end

