-- ==== Sys2Proof/Machine/Assembler.lean ====
section
/-! DEFINITION. The textual form of a command: register names and address strings
(spec/10_state.md R40, R41), syntax and pseudo-instructions (spec/30_encoding.md R97, R98). Text is a
list of characters; one line gives the commands it stands for, or nothing where it has no reading.
The core never sees text: `step` does not use this file. Log 13 names the conventions. -/

namespace Sys2Proof.Asm

/-- A command as it is presented to the core (R90). -/
abbrev Words := CmdWord × DataWord

/-! Characters and numbers. -/

def isSpace (c : Char) : Bool := c = ' ' || c = '\t'

def trim (t : List Char) : List Char :=
  ((t.dropWhile isSpace).reverse.dropWhile isSpace).reverse

def lower (t : List Char) : List Char := t.map Char.toLower

/-- The text before the first `;` (R97: the rest is a comment). -/
def stripComment (t : List Char) : List Char := t.takeWhile (fun c => c ≠ ';')

/-- The pieces between the commas, trimmed; no pieces for blank text. -/
def operands (t : List Char) : List (List Char) :=
  if trim t = [] then [] else (t.splitOn ',').map trim

def digitVal (c : Char) : Option Nat :=
  if '0' ≤ c ∧ c ≤ '9' then some (c.toNat - '0'.toNat) else none

def hexVal (c : Char) : Option Nat :=
  if '0' ≤ c ∧ c ≤ '9' then some (c.toNat - '0'.toNat)
  else if 'a' ≤ c ∧ c ≤ 'f' then some (c.toNat - 'a'.toNat + 10)
  else if 'A' ≤ c ∧ c ≤ 'F' then some (c.toNat - 'A'.toNat + 10)
  else none

/-- The number these digits write in a base, after the digits already read in `acc`. -/
def digitsFrom (base : Nat) (val : Char → Option Nat) : Nat → List Char → Option Nat
  | acc, [] => some acc
  | acc, c :: t =>
    match val c with
    | some v => digitsFrom base val (acc * base + v) t
    | none => none

/-- A nonempty run of decimal digits. -/
def decNat (t : List Char) : Option Nat := if t = [] then none else digitsFrom 10 digitVal 0 t

/-- Exactly n hexadecimal digits. -/
def hexNat (n : Nat) (t : List Char) : Option Nat :=
  if t.length = n then digitsFrom 16 hexVal 0 t else none

/-! Values. -/

/-- An optional sign and the text after it. -/
def signOf : List Char → Bool × List Char
  | '-' :: t => (true, t)
  | '+' :: t => (false, t)
  | t => (false, t)

/-- A signed decimal exponent. -/
def expNat (t : List Char) : Option (Bool × Nat) :=
  match signOf t with
  | (s, u) =>
    match decNat u with
    | some n => some (s, n)
    | none => none

/-- The digits of a mantissa, `ddd` or `ddd.ddd`: their number and how many follow the point. -/
def mantissa (t : List Char) : Option (Nat × Nat) :=
  match t.span (fun c => c ≠ '.') with
  | (whole, []) => (decNat whole).map fun n => (n, 0)
  | (whole, _ :: frac) =>
    match decNat whole, decNat frac with
    | some n, some f => some (n * 10 ^ frac.length + f, frac.length)
    | _, _ => none

/-- The binary64 value nearest to m·10^-places·10^±e (R10). -/
def decimalValue (neg : Bool) (m places : Nat) (eNeg : Bool) (e : Nat) : B64 :=
  if eNeg then F64.ofRatio neg m (10 ^ (places + e)) else F64.ofRatio neg (m * 10 ^ e) (10 ^ places)

/-- A decimal literal `[±]ddd[.ddd][e[±]ddd]`, rounded to the nearest binary64. -/
def decimal (t : List Char) : Option B64 :=
  match signOf t with
  | (neg, u) =>
    match u.span (fun c => c ≠ 'e' && c ≠ 'E') with
    | (m, []) => (mantissa m).map fun p => decimalValue neg p.1 p.2 false 0
    | (m, _ :: ex) =>
      match mantissa m, expNat ex with
      | some p, some (en, e) => some (decimalValue neg p.1 p.2 en e)
      | _, _ => none

/-- `<value>` as a 64-bit pattern (R97). -/
def value (t : List Char) : Option DataWord :=
  if t = "nan".toList then some 0x7FF8000000000000#64
  else if t = "inf".toList then some 0x7FF0000000000000#64
  else if t = "-inf".toList then some 0xFFF0000000000000#64
  else
    match t with
    | '#' :: h => (hexNat 16 h).map fun n => BitVec.ofNat 64 n
    | _ => decimal t

/-- `<value>` written to register address `a`: for STATUS a plain integer is the raw mask (R97).
DESIGN CHOICE (log 13): a plain integer of 2^64 or more, which is no 64-bit mask, has no reading, and
a value for STATUS that is no plain integer is taken as its 64-bit pattern. -/
def valueFor (a : Nat) (t : List Char) : Option DataWord :=
  if a = 0x3F then
    match decNat t with
    | some n => if n < 2 ^ 64 then some (BitVec.ofNat 64 n) else none
    | none => value t
  else value t

/-! Registers. -/

/-- The five names `<stem>1<suffix>` to `<stem>5<suffix>` at consecutive addresses. -/
def fiveNames (stem suffix : String) (base : Nat) : List (List Char × Nat) :=
  [('1', 0), ('2', 1), ('3', 2), ('4', 3), ('5', 4)].map fun p =>
    (stem.toList ++ p.1 :: suffix.toList, base + p.2)

/-- The register names of R40. -/
def regNames : List (List Char × Nat) :=
  fiveNames "FREQ" "" 0x00 ++ fiveNames "Q" "" 0x05 ++ fiveNames "BOOST" "" 0x0A
    ++ fiveNames "BYPASS" "" 0x0F ++ [("MUL".toList, 0x14)]
    ++ fiveNames "FREQ" "_C" 0x20 ++ fiveNames "Q" "_C" 0x25 ++ fiveNames "BOOST" "_C" 0x2A
    ++ fiveNames "BYPASS" "_C" 0x2F ++ [("MUL_C".toList, 0x34)]
    ++ [("PAN".toList, 0x35), ("FS".toList, 0x36), ("NBLK".toList, 0x37)]
    ++ fiveNames "TYPE" "" 0x38 ++ [("STATUS".toList, 0x3F)]

/-- The 21 address strings of R41. -/
def addrStrings : List (List Char × Nat) :=
  fiveNames "/freq" "" 0x00 ++ fiveNames "/q" "" 0x05 ++ fiveNames "/boost" "" 0x0A
    ++ fiveNames "/bypass" "" 0x0F ++ [("/mul".toList, 0x14)]

/-- A numeric address `0x00` to `0x3F` (R97). DESIGN CHOICE (log 13): `0x` in lower case and exactly two
digits, in either case. -/
def numericAddr : List Char → Option Nat
  | '0' :: 'x' :: h =>
    match hexNat 2 h with
    | some n => if n < 64 then some n else none
    | none => none
  | _ => none

/-- The address of an address string (R41). -/
def addrString (t : List Char) : Option Nat := addrStrings.lookup t

/-- `<reg>` (R97): a register name, an address string or a numeric address. -/
def reg (t : List Char) : Option Nat :=
  match regNames.lookup t with
  | some a => some a
  | none =>
    match addrString t with
    | some a => some a
    | none => numericAddr t

/-- The band number `<N>` of `bypass` and `engage`, 1 to 5 (R98). DESIGN CHOICE (log 13): any run of
decimal digits of that value, so leading zeros are accepted and `02` is band 2. -/
def bandNumber (t : List Char) : Option Nat :=
  match decNat t with
  | some n => if 1 ≤ n ∧ n ≤ 5 then some n else none
  | none => none

/-! Commands and pseudo-instructions. -/

/-- `wr <reg>, <value>` (R97). -/
def asmWr (a : Nat) (v : List Char) : Option (List Words) :=
  (valueFor a v).map fun d => [encode (.wr a d)]

/-- `smp <v0>` ... `smp <vK>`, the expansion of `block` (R98). -/
def asmBlock : List (List Char) → Option (List Words)
  | [] => some []
  | v :: vs =>
    match value v, asmBlock vs with
    | some d, some rest => some (encode (.smp d) :: rest)
    | _, _ => none

/-- The expansion of `describe` (R98): 21 reads, 0x20 to 0x34. -/
def asmDescribe : List Words := (List.range 21).map fun k => encode (.rd (0x20 + k))

/-- The mnemonics of R97 and R98. -/
inductive Mnemonic where
  | wr | rd | smp | srst
  | set | clrerr | clrnan | clrstat | bypass | engage | block | silence | describe
deriving DecidableEq, Repr

/-- Their spelling, in lower case. -/
def mnemonics : List (List Char × Mnemonic) :=
  [("wr".toList, .wr), ("rd".toList, .rd), ("smp".toList, .smp), ("srst".toList, .srst)]
    ++ [("set".toList, .set), ("clrerr".toList, .clrerr), ("clrnan".toList, .clrnan),
        ("clrstat".toList, .clrstat), ("bypass".toList, .bypass), ("engage".toList, .engage),
        ("block".toList, .block), ("silence".toList, .silence), ("describe".toList, .describe)]

/-- The commands of one mnemonic with its operands (R97, R98). -/
def asmCommand : Mnemonic → List (List Char) → Option (List Words)
  | .wr, [r, v] => (reg r).bind fun a => asmWr a v
  | .rd, [r] => (reg r).map fun a => [encode (.rd a)]
  | .smp, [v] => (value v).map fun d => [encode (.smp d)]
  | .srst, [] => some [encode .srst]
  | .set, [r, v] => (addrString r).bind fun a => asmWr a v
  | .clrerr, [] => some [encode (.wr 0x3F 1#64)]
  | .clrnan, [] => some [encode (.wr 0x3F 2#64)]
  | .clrstat, [] => some [encode (.wr 0x3F 3#64)]
  | .bypass, [b] => (bandNumber b).map fun n => [encode (.wr (0x0F + n - 1) F64.one)]
  | .engage, [b] => (bandNumber b).map fun n => [encode (.wr (0x0F + n - 1) F64.zero)]
  | .block, v :: vs => asmBlock (v :: vs)
  | .silence, [n] => (decNat n).map fun k => List.replicate k (encode (.smp F64.zero))
  | .describe, [] => some asmDescribe
  | _, _ => none

/-- One line (R97): a mnemonic in either case, operands separated by commas, an optional comment. A
line without a mnemonic gives no command. -/
def assemble (line : List Char) : Option (List Words) :=
  match (trim (stripComment line)).span (fun c => !isSpace c) with
  | ([], _) => some []
  | (m, rest) => (mnemonics.lookup (lower m)).bind fun k => asmCommand k (operands rest)

end Sys2Proof.Asm
end

