-- ==== Sys2Proof/Machine/Pseudocode.lean ====
section
/-! DEFINITION. The spec's pseudocode of one SMP written down statement by statement: each assignment
changes the state, and the guards write `STATUS.NANF` where they stand (spec/44_eq_chain.md R190,
spec/43_eq_band.md R180, spec/41_parameter_smoother.md R150, spec/40_biquad_filter.md R130,
spec/42_bypass_crossfader.md R170). `exec` does not use this file; an obligation states that its
data-flow form and this sequential form agree. -/

namespace Sys2Proof.Machine.Pseudo

/-- `CUR[p][b] <- v` -/
def setCur (p : Param) (b : Band) (v : B64) (s : State) : State :=
  { s with bands := s.bands.set b { s.bands.get b with cur := (s.bands.get b).cur.set p v } }

/-- `(B0[b], B1[b], B2[b], A1[b], A2[b]) <- c` -/
def setCoefs (b : Band) (c : Coefs) (s : State) : State :=
  { s with bands := s.bands.set b { s.bands.get b with coefs := c } }

/-- `x1[b] <- ..; x2[b] <- ..; y1[b] <- ..; y2[b] <- ..` -/
def setDelay (b : Band) (z : Delay) (s : State) : State :=
  { s with bands := s.bands.set b { s.bands.get b with delay := z } }

/-- `STATUS.NANF <- 1` -/
def setNanf (s : State) : State := { s with status := { s.status with nanf := true } }

/-- `Tick(p, b)` (R150). -/
def tickStmt (p : Param) (b : Band) (s : State) : State :=
  setCur p b (tick s.cfg p ((s.bands.get b).cur.get p) ((s.bands.get b).tgt.get p)) s

/-- `Biquad(b, u)` (R130). -/
def biquadStmt (b : Band) (u : B64) (s : State) : B64 × State :=
  let w := recurrence (s.bands.get b).coefs (s.bands.get b).delay u
  if F64.isFinite w then
    (w, setDelay b ⟨u, (s.bands.get b).delay.x1, w, (s.bands.get b).delay.y1⟩ s)
  else
    (F64.zero, setNanf (setDelay b ⟨F64.zero, F64.zero, F64.zero, F64.zero⟩ s))

/-- `Blend(u, w, beta)` (R170). -/
def blendStmt (u w beta : B64) (s : State) : B64 × State :=
  let v :=
    if F64.eq beta F64.zero then w
    else if F64.eq beta F64.one then u
    else F64.add (F64.mul u beta) (F64.mul w (F64.sub F64.one beta))
  if F64.isFinite v then (v, s) else (F64.zero, setNanf s)

/-- Step (b) of `BandStep` (R180, R181). -/
def coefStmt (b : Band) (s : State) : State :=
  if s.cfg.coefUpdate = .perSample ∨ s.pos = 0 then
    setCoefs b
      (coef s.cfg b.filterType (s.bands.get b).cur.freq (s.bands.get b).cur.q
        (s.bands.get b).cur.boost) s
  else s

/-- `BandStep(b, u)` (R180). -/
def bandStepStmt (b : Band) (u : B64) (s : State) : B64 × State :=
  let s := tickStmt .freq b s
  let s := tickStmt .q b s
  let s := tickStmt .boost b s
  let s := tickStmt .bypass b s
  let s := coefStmt b s
  let (w, s) := biquadStmt b u s
  blendStmt u w (s.bands.get b).cur.bypass s

/-- `InGuard(x)` (R191). -/
def inGuardStmt (x : B64) (s : State) : B64 × State :=
  if F64.isFinite x then (x, s) else (F64.zero, setNanf s)

/-- `OutStage(y)` (R193). -/
def outStageStmt (y : B64) (s : State) : SampleOut × State :=
  let m := F64.mul y s.mulr
  if F64.isFinite m then (⟨m, F64.mul m s.cfg.gl, F64.mul m s.cfg.gr⟩, s)
  else
    (⟨F64.zero, F64.mul F64.zero s.cfg.gl, F64.mul F64.zero s.cfg.gr⟩, setNanf s)

/-- `SMP(x)` before its response (R190). -/
def smpStmt (x : B64) (s : State) : SampleOut × State :=
  let (u, s) := inGuardStmt x s
  let (u, s) := bandStepStmt .lowshelf u s
  let (u, s) := bandStepStmt .peak1 u s
  let (u, s) := bandStepStmt .peak2 u s
  let (u, s) := bandStepStmt .peak3 u s
  let (u, s) := bandStepStmt .highshelf u s
  let (o, s) := outStageStmt u s
  (o, { s with pos := (s.pos + 1) % s.cfg.blockSize })

end Sys2Proof.Machine.Pseudo
end

