-- ==== Sys2Proof/Safety.lean ====
section
/-! DEFINITION. The terms that claims about the core use: the state invariants of spec/10_state.md R38,
the agreement of samples, and runs. -/

namespace Sys2Proof.Machine

/-- The configuration facts that processing relies on: R6, with the clause on `EXP_K[p]` asked only of
the parameters whose smoother reads it (log 8). Every legal configuration has them. -/
def UsableConfig (cfg : Config) : Prop :=
  cfg.legalButExpK = true ∧ ∀ p, cfg.mode.get p = .exponential → cfg.legalExpK p = true

/-- R38 for one target or current: finite, and for FREQ, Q and BYPASS in the clamp range. -/
def ParamOk (cfg : Config) (p : Param) (v : B64) : Prop :=
  F64.isFinite v = true ∧
  match p with
  | .freq => F64.le cfg.freqMin v = true ∧ F64.le v cfg.freqMax = true
  | .q => F64.le cfg.qMin v = true
  | .boost => True
  | .bypass => F64.le F64.zero v = true ∧ F64.le v F64.one = true

/-- R38 for the delay state: all four registers are finite. -/
def DelayFinite (z : Delay) : Prop :=
  F64.isFinite z.x1 = true ∧ F64.isFinite z.x2 = true ∧
  F64.isFinite z.y1 = true ∧ F64.isFinite z.y2 = true

/-- R38 for the registers of one band. -/
structure BandOk (cfg : Config) (r : BandRegs) : Prop where
  targets : ∀ p, ParamOk cfg p (r.tgt.get p)
  currents : ∀ p, ParamOk cfg p (r.cur.get p)
  delay : DelayFinite r.delay

/-- LASTERR is 0 when ERR is clear (R36) and a code of R231 when it is set. -/
def StatusOk (st : Status) : Prop :=
  if st.err then 1 ≤ st.lastErr.toNat ∧ st.lastErr.toNat ≤ 4 else st.lastErr = 0#4

/-- The invariants of R38, with the facts about `pos` (R35) and STATUS (R36). -/
structure StateInv (s : State) : Prop where
  config : UsableConfig s.cfg
  bands : ∀ b, BandOk s.cfg (s.bands.get b)
  mul : F64.isFinite s.mulr = true ∧ F64.le F64.zero s.mulr = true
  pos : s.pos < s.cfg.blockSize
  status : StatusOk s.status

/-- No pending power-on reset has a Q floor above the reset value 1.0 of Q (R43; log 7). -/
def PendingResetsOk (s : State) : Prop :=
  ∀ cfg, HostEvent.powerOn cfg ∈ s.port → F64.le cfg.qMin F64.one = true

/-- Two values agree bit for bit, except that an input of -0.0 may leave as +0.0 (R183, R196). -/
def SameSample (y x : B64) : Prop :=
  y = x ∨ (x = F64.neg F64.zero ∧ y = F64.zero)

/-- The state after the samples `xs` have been processed, oldest first, with no command between
them. -/
def runSamples : List B64 → State → State
  | [], s => s
  | x :: xs, s =>
    match exec (.smp x) s with
    | .next t => runSamples xs t
    | _ => s

/-- The state that n steps of the machine lead to; a step that answers no next state changes
nothing. -/
def runSteps : Nat → State → State
  | 0, s => s
  | n + 1, s =>
    match step s with
    | .next t => runSteps n t
    | _ => runSteps n s

/-- A command that decodes to no WR. -/
def NotAWrite (e : HostEvent) : Prop :=
  ∃ g cw d, e = .command g cw d ∧ ∀ a d', decode cw d ≠ .ok (.wr a d')

end Sys2Proof.Machine
end

