-- ==== Sys2Proof/Certificates/Slice0/Obligations.lean ====
section
/-! DEFINITION. The statements for the provers; OBLIGATIONS.json lists them. Each docstring names the
rule of spec/ a statement formalises, or says that it is the model's own. -/

open Sys2Proof Sys2Proof.Machine

/-! ### Configuration and reset -/

/-- R43: the value of every state element after power-on reset, for every configuration. -/
def Obligations.PowerOnSetsResetValues : Prop :=
  (∀ (cfg : Config) (b : Band),
    ((State.powerOn cfg).bands.get b).tgt =
      ⟨cfg.clampFreq (cfg.freqDefault.get b), F64.one, F64.zero, F64.zero⟩ ∧
    ((State.powerOn cfg).bands.get b).cur = ((State.powerOn cfg).bands.get b).tgt ∧
    ((State.powerOn cfg).bands.get b).delay = ⟨F64.zero, F64.zero, F64.zero, F64.zero⟩ ∧
    ((State.powerOn cfg).bands.get b).coefs =
      coef cfg b.filterType ((State.powerOn cfg).bands.get b).cur.freq
        ((State.powerOn cfg).bands.get b).cur.q ((State.powerOn cfg).bands.get b).cur.boost ∧
    ((State.powerOn cfg).bands.get b).coefs =
      ⟨F64.one, F64.zero, F64.zero, F64.zero, F64.zero⟩) ∧
  (∀ cfg : Config,
    (State.powerOn cfg).mulr = F64.one ∧ (State.powerOn cfg).pos = 0 ∧
    (State.powerOn cfg).status.word = 0#64) ∧
  (∀ (fs : B64) (n : Nat),
    (Config.default fs n).freqDefault =
      ⟨F64.ofRatio false 100 1, F64.ofRatio false 500 1, F64.ofRatio false 1000 1,
       F64.ofRatio false 5000 1, F64.ofRatio false 10000 1⟩)

/-- R260, R6: the power-on reset event puts any state at the reset values of the configuration it
samples; an illegal configuration gives no machine, and nothing else stops a step. That the events
still pending stay, and that no response is given, is the model's choice (log 4, log 5); that an
illegal configuration is a refusal of the step is log 8. -/
def Obligations.PowerOnEventSamplesItsConfiguration : Prop :=
  (∀ (s : State) (cfg : Config) (rest : List HostEvent), s.port = .powerOn cfg :: rest →
    (cfg.legal = true → step s = .next { State.powerOn cfg with port := rest }) ∧
    (cfg.legal = false → step s = .refused .illegalConfiguration)) ∧
  (∀ s : State, (∃ t, step s = .next t) ∨
    ∃ cfg rest, s.port = .powerOn cfg :: rest ∧ cfg.legal = false ∧
      step s = .refused .illegalConfiguration)

/-- R6: which configurations are legal. -/
def Obligations.LegalConfigurationsMeetTheirConditions : Prop :=
  ∀ cfg : Config, cfg.legal = true ↔
    (F64.isFinite cfg.fs = true ∧
      F64.lt (F64.mul F64.two (F64.add cfg.freqMin cfg.freqEps)) cfg.fs = true) ∧
    (1 ≤ cfg.blockSize ∧ cfg.blockSize ≤ 2 ^ 32 - 1) ∧
    (F64.isFinite cfg.freqMin = true ∧ F64.lt F64.zero cfg.freqMin = true) ∧
    (F64.isFinite cfg.freqEps = true ∧ F64.le F64.zero cfg.freqEps = true) ∧
    (F64.isFinite cfg.qMin = true ∧ F64.lt F64.zero cfg.qMin = true) ∧
    (F64.isFinite cfg.tSmooth = true ∧ F64.lt F64.zero cfg.tSmooth = true) ∧
    (∀ p : Param,
      F64.isFinite (cfg.maxStepOf p) = true ∧ F64.lt F64.zero (cfg.maxStepOf p) = true ∧
      F64.lt F64.zero (cfg.expKOf p) = true ∧ F64.le (cfg.expKOf p) F64.one = true ∧
      F64.le F64.zero (cfg.snapOf p) = true ∧ F64.le (cfg.snapOf p) (cfg.maxStepOf p) = true) ∧
    (F64.le F64.zero cfg.pan = true ∧ F64.le cfg.pan F64.one = true) ∧
    (∀ b : Band, F64.isFinite (cfg.freqDefault.get b) = true)

/-- R7: the derived constants of every configuration by their formulas, and their values at the test
vectors' configuration and the five pans of 95 V-CH-3; beside them the default steps at 44100 Hz
(R155, R156; 95 V-SM-6). -/
def Obligations.ConstantsAtTheTestConfiguration : Prop :=
  (∀ cfg : Config,
    cfg.freqMax = F64.sub (F64.div cfg.fs F64.two) cfg.freqEps ∧
    cfg.gl = (if F64.lt (F64.mul F64.two (F64.sub F64.one cfg.pan)) F64.one then
      F64.mul F64.two (F64.sub F64.one cfg.pan) else F64.one) ∧
    cfg.gr = (if F64.lt (F64.mul F64.two cfg.pan) F64.one then
      F64.mul F64.two cfg.pan else F64.one)) ∧
  ([0x0000000000000000#64, 0x3FD0000000000000#64, 0x3FE0000000000000#64, 0x3FE8000000000000#64,
      0x3FF0000000000000#64].map fun pan =>
    let cfg := { Config.default 0x40E5888000000000#64 256 with pan := pan }
    (cfg.gl, cfg.gr)) =
    [(0x3FF0000000000000#64, 0x0000000000000000#64), (0x3FF0000000000000#64, 0x3FE0000000000000#64),
     (0x3FF0000000000000#64, 0x3FF0000000000000#64), (0x3FE0000000000000#64, 0x3FF0000000000000#64),
     (0x0000000000000000#64, 0x3FF0000000000000#64)] ∧
  (Config.default 0x40E5888000000000#64 256).freqMax = 0x40D5884000000000#64 ∧
  (Config.default 0x40E5888000000000#64 256).gl = F64.one ∧
  (Config.default 0x40E5888000000000#64 256).gr = F64.one ∧
  (Config.default 0x40E5888000000000#64 256).maxStepOf .freq = 0x4024000000000000#64 ∧
  (Config.default 0x40E5888000000000#64 256).maxStepOf .q = 0x3F7293725BB804A5#64 ∧
  (Config.default 0x40E5888000000000#64 256).maxStepOf .boost = 0x3F964A893ADCD25F#64 ∧
  (Config.default 0x40E5888000000000#64 256).maxStepOf .bypass = 0x3F3DB8B6F9266DD5#64 ∧
  (Config.default 0x40E5888000000000#64 256).snapOf .freq = 0x3F95888000000000#64 ∧
  (Config.default 0x40E5888000000000#64 256).snapOf .q = 0x3EE4000000000000#64 ∧
  (Config.default 0x40E5888000000000#64 256).snapOf .boost = 0x3F08000000000000#64 ∧
  (Config.default 0x40E5888000000000#64 256).snapOf .bypass = 0x3EB0000000000000#64

/-- R155, R156: `MAXSTEP[p]`, `EXP_K[p]` and `SNAP[p]` are the values `cfg` gives, and where it gives
none the formulas; MAXSTEP at 44100 Hz, and EXP_K there for a platform whose `fexp` of -1/2205 is
3FEFFC492054A407 (a glibc libm's), are the printed ones. -/
def Obligations.StepConstantsAreGivenOrDefault : Prop :=
  (∀ (cfg : Config) (p : Param) (v : B64),
    (cfg.maxStep.get p = some v → cfg.maxStepOf p = v) ∧
    (cfg.expK.get p = some v → cfg.expKOf p = v) ∧
    (cfg.snap.get p = some v → cfg.snapOf p = v)) ∧
  (∀ (cfg : Config) (p : Param) (span : B64),
    span = (match p with
      | .freq => F64.div cfg.fs F64.two
      | .q => F64.ofRatio false 10 1
      | .boost => F64.ofRatio false 48 1
      | .bypass => F64.ofRatio false 1 1) →
    (cfg.maxStep.get p = none → cfg.maxStepOf p = F64.div span (F64.mul cfg.tSmooth cfg.fs)) ∧
    (cfg.expK.get p = none → cfg.expKOf p =
      F64.sub F64.one (cfg.exp (F64.div (F64.neg F64.one) (F64.mul cfg.tSmooth cfg.fs)))) ∧
    (cfg.snap.get p = none → cfg.snapOf p = F64.mul span (F64.ofRatio false 1 (2 ^ 20)))) ∧
  (∀ (n : Nat) (cfg : Config), cfg = Config.default 0x40E5888000000000#64 n →
    cfg.maxStepOf .freq = 0x4024000000000000#64 ∧ cfg.maxStepOf .q = 0x3F7293725BB804A5#64 ∧
    cfg.maxStepOf .boost = 0x3F964A893ADCD25F#64 ∧ cfg.maxStepOf .bypass = 0x3F3DB8B6F9266DD5#64 ∧
    (cfg.exp 0xBF3DB8B6F9266DD5#64 = 0x3FEFFC492054A407#64 →
      ∀ p, cfg.expKOf p = 0x3F3DB6FD5ADFC800#64))

/-! ### Encoding -/

/-- R90, R93, R94: decoding the encoding of any well-formed instruction gives it back. -/
def Obligations.DecodeOfEncodeGivesTheInstruction : Prop :=
  ∀ i : Instr, i.wellFormed = true → decode (encodeWord i) (encodeData i) = .ok i

/-- R90, R94: an instruction the decoder reads is well formed and encodes to the word it was read
from, and to the data operand where it carries one. -/
def Obligations.EncodeOfDecodeGivesTheWord : Prop :=
  ∀ (cw : CmdWord) (d : DataWord) (i : Instr), decode cw d = .ok i →
    i.wellFormed = true ∧ encodeWord i = cw ∧ (encodeData i = d ∨ ∃ a, i = .rd a ∨ i = .srst)

/-- R93: each command is the words that its match and mask select, with the address in bits 5:0. -/
def Obligations.DecoderFollowsTheOpcodeMap : Prop :=
  ∀ (cw : CmdWord) (d : DataWord),
    (∀ a d', decode cw d = .ok (.wr a d') ↔
      cw &&& 0xFFFFFFC0#32 = 0x10000000#32 ∧ a = (cw.extractLsb' 0 6).toNat ∧ d' = d) ∧
    (∀ a, decode cw d = .ok (.rd a) ↔
      cw &&& 0xFFFFFFC0#32 = 0x20000000#32 ∧ a = (cw.extractLsb' 0 6).toNat) ∧
    (∀ d', decode cw d = .ok (.smp d') ↔ cw &&& 0xFFFFFFFF#32 = 0x30000000#32 ∧ d' = d) ∧
    (decode cw d = .ok .srst ↔ cw &&& 0xFFFFFFFF#32 = 0x40000000#32)

/-- R99: the spec's example lines assemble to the words printed beside them, and those words decode
to the commands they stand for; the last two are illegal. -/
def Obligations.ExampleWordsDecode : Prop :=
  decode 0x1000000A#32 0x4028000000000000#64 = .ok (.wr 0x0A 0x4028000000000000#64) ∧
  decode 0x10000000#32 0x4059000000000000#64 = .ok (.wr 0x00 0x4059000000000000#64) ∧
  decode 0x10000014#32 0x3FE0000000000000#64 = .ok (.wr 0x14 0x3FE0000000000000#64) ∧
  decode 0x1000003F#32 3#64 = .ok (.wr 0x3F 3#64) ∧
  decode 0x20000030#32 0#64 = .ok (.rd 0x30) ∧
  decode 0x2000003F#32 0#64 = .ok (.rd 0x3F) ∧
  decode 0x30000000#32 0x3FF0000000000000#64 = .ok (.smp 0x3FF0000000000000#64) ∧
  decode 0x30000000#32 0xBFE0000000000000#64 = .ok (.smp 0xBFE0000000000000#64) ∧
  decode 0x40000000#32 0#64 = .ok .srst ∧
  (∀ d, decode 0x00000000#32 d = .error .reservedOp) ∧
  (∀ d, decode 0x10000040#32 d = .error .nonzeroRsv) ∧
  Asm.assemble "wr BOOST1, 12.0".toList = some [(0x1000000A#32, 0x4028000000000000#64)] ∧
  Asm.assemble "set /freq1, 100.0".toList = some [(0x10000000#32, 0x4059000000000000#64)] ∧
  Asm.assemble "wr MUL, 0.5".toList = some [(0x10000014#32, 0x3FE0000000000000#64)] ∧
  Asm.assemble "wr STATUS, 3".toList = some [(0x1000003F#32, 3#64)] ∧
  Asm.assemble "rd BYPASS2_C".toList = some [(0x20000030#32, 0#64)] ∧
  Asm.assemble "rd STATUS".toList = some [(0x2000003F#32, 0#64)] ∧
  Asm.assemble "smp 1.0".toList = some [(0x30000000#32, 0x3FF0000000000000#64)] ∧
  Asm.assemble "smp -0.5".toList = some [(0x30000000#32, 0xBFE0000000000000#64)] ∧
  Asm.assemble "srst".toList = some [(0x40000000#32, 0#64)]

/-- R97, R98: every command that a line of text assembles to is legal and well formed. -/
def Obligations.AssembledCommandsAreLegal : Prop :=
  ∀ (line : List Char) (cmds : List (CmdWord × DataWord)), Asm.assemble line = some cmds →
    ∀ c ∈ cmds, ∃ i : Instr, i.wellFormed = true ∧ decode c.1 c.2 = .ok i

/-! ### Steps -/

/-- R78, R79, R94: a step takes the oldest pending command and runs the instruction its words decode
to. -/
def Obligations.StepRunsTheDecodedCommand : Prop :=
  ∀ (s : State) (g : Agent) (cw : CmdWord) (d : DataWord) (rest : List HostEvent) (i : Instr),
    s.port = .command g cw d :: rest → decode cw d = .ok i →
    step s = exec i { s with port := rest }

/-- R248: with nothing pending the core holds all state. That an idle step is a step is the model's
choice (log 4). -/
def Obligations.IdleCoreHoldsItsState : Prop :=
  ∀ s : State, s.port = [] → step s = .next s

/-- R94, R95, R232, R233: an illegal word is rejected with ERR_OPCODE and changes only STATUS. -/
def Obligations.IllegalWordsChangeOnlyStatus : Prop :=
  ∀ (s : State) (g : Agent) (cw : CmdWord) (d : DataWord) (rest : List HostEvent),
    s.port = .command g cw d :: rest →
    ((cw.extractLsb' 6 22).toNat ≠ 0 ∨ (cw.extractLsb' 28 4).toNat = 0 ∨
      5 ≤ (cw.extractLsb' 28 4).toNat ∨
      (((cw.extractLsb' 28 4).toNat = 3 ∨ (cw.extractLsb' 28 4).toNat = 4) ∧
        (cw.extractLsb' 0 6).toNat ≠ 0)) →
    step s = .next { s with
      port := rest
      status := { s.status with err := true, lastErr := 4#4 }
      resp := some ⟨4#4, 0#64, none⟩ }

/-- R82: every command, legal or not, completes in one step and gives a response. -/
def Obligations.EveryCommandCompletesInOneStep : Prop :=
  ∀ (s : State) (g : Agent) (cw : CmdWord) (d : DataWord) (rest : List HostEvent),
    s.port = .command g cw d :: rest →
    ∃ t r, step s = .next t ∧ t.port = rest ∧ t.resp = some r ∧ r.code.toNat ≤ 4

/-- R79, R243: a command does the same whichever agent issued it and whatever is pending behind it.
That a power-on reset does the same whatever is pending behind it, and leaves those events pending,
is the model's choice (log 4), no rule of the spec. -/
def Obligations.EventsIgnoreIssuerAndLaterEvents : Prop :=
  (∀ (s t : State) (g g' : Agent) (cw : CmdWord) (d : DataWord) (rest rest' : List HostEvent),
    step { s with port := .command g cw d :: rest } = .next t →
    step { s with port := .command g' cw d :: rest' } = .next { t with port := rest' }) ∧
  (∀ (s t : State) (cfg : Config) (rest rest' : List HostEvent),
    step { s with port := .powerOn cfg :: rest } = .next t →
    step { s with port := .powerOn cfg :: rest' } = .next { t with port := rest' })

/-- R231, R234, R235: the response code of every command, the causes in their order of priority. -/
def Obligations.ErrorCodesFollowThePriority : Prop :=
  ∀ (s : State) (g : Agent) (cw : CmdWord) (d : DataWord) (rest : List HostEvent) (op rsv a : Nat),
    s.port = .command g cw d :: rest →
    op = (cw.extractLsb' 28 4).toNat → rsv = (cw.extractLsb' 6 22).toNat →
    a = (cw.extractLsb' 0 6).toNat →
    ∃ t r, step s = .next t ∧ t.resp = some r ∧ r.code =
      if rsv ≠ 0 ∨ op = 0 ∨ 5 ≤ op ∨ ((op = 3 ∨ op = 4) ∧ a ≠ 0) then 4#4
      else if (op = 1 ∨ op = 2) ∧ ((0x15 ≤ a ∧ a ≤ 0x1F) ∨ a = 0x3D ∨ a = 0x3E) then 1#4
      else if op = 1 ∧ 0x20 ≤ a ∧ a ≤ 0x3C then 2#4
      else if op = 1 ∧ a ≤ 0x14 ∧
          (F64.isFinite d = false ∨ (a = 0x14 ∧ F64.lt d F64.zero = true)) then 3#4
      else 0#4

/-- R230, R233: a rejected command changes STATUS.ERR and LASTERR and nothing else; its response has
the code, RDATA 0 and no OUT. -/
def Obligations.RejectionsChangeOnlyStatus : Prop :=
  ∀ (s t : State) (g : Agent) (cw : CmdWord) (d : DataWord) (rest : List HostEvent) (r : Response),
    s.port = .command g cw d :: rest → step s = .next t → t.resp = some r → r.code ≠ 0#4 →
    t = { s with
      port := rest
      status := { s.status with err := true, lastErr := r.code }
      resp := some ⟨r.code, 0#64, none⟩ }

/-- R45, R238: NANF is set by every SMP in which some guard fires, by nothing else, and cleared only by
a STATUS write with bit 1 set; ERR and LASTERR are set by every command whose response code is not
0, by nothing else, and ERR is cleared only by a STATUS write with bit 0 set. -/
def Obligations.FlagsChangeOnlyAsNamed : Prop :=
  ∀ (i : Instr) (s t : State), exec i s = .next t →
    (∀ d, i = .smp d → chainFired s d = true → t.status.nanf = true) ∧
    (s.status.nanf = false → t.status.nanf = true → ∃ d, i = .smp d ∧ chainFired s d = true) ∧
    (s.status.nanf = true → t.status.nanf = false → ∃ d, i = .wr 0x3F d ∧ d.getLsbD 1 = true) ∧
    (∀ r, t.resp = some r → r.code ≠ 0#4 → t.status.err = true ∧ t.status.lastErr = r.code) ∧
    (s.status.err = false → t.status.err = true → ∃ r, t.resp = some r ∧ r.code ≠ 0#4) ∧
    (s.status.err = true → t.status.err = false → ∃ d, i = .wr 0x3F d ∧ d.getLsbD 0 = true)

/-- R262: the configuration changes only at a power-on reset. -/
def Obligations.ConfigurationChangesOnlyAtReset : Prop :=
  ∀ s t : State, step s = .next t →
    t.cfg = s.cfg ∨ ∃ cfg rest, s.port = .powerOn cfg :: rest ∧ t.cfg = cfg

/-! ### WR -/

/-- R213: the value that WR of a finite `d` stores in the target of parameter p, band b (address
5p + b, R40), and that nothing else changes. -/
def Obligations.WrStoresTheClampedTarget : Prop :=
  ∀ (s : State) (p : Param) (b : Band) (d : DataWord), F64.isFinite d = true →
    exec (.wr (5 * p.index + b.index) d) s = .next { s with
      bands := s.bands.set b { s.bands.get b with
        tgt := (s.bands.get b).tgt.set p
          (match p with
            | .freq =>
              if F64.lt d s.cfg.freqMin then s.cfg.freqMin
              else if F64.lt (F64.sub (F64.div s.cfg.fs F64.two) s.cfg.freqEps) d then
                F64.sub (F64.div s.cfg.fs F64.two) s.cfg.freqEps
              else d
            | .q => if F64.lt d s.cfg.qMin then s.cfg.qMin else d
            | .boost => d
            | .bypass =>
              if F64.lt d F64.zero then F64.zero else if F64.lt F64.one d then F64.one else d) }
      resp := some ⟨0#4, 0#64, none⟩ }

/-- R217: WR of a NaN or an infinity to any parameter register is rejected with ERR_VALUE. -/
def Obligations.WrRejectsNonFiniteValues : Prop :=
  ∀ (s : State) (a : Nat) (d : DataWord), a ≤ 0x14 → F64.isFinite d = false →
    exec (.wr a d) s = .next { s with
      status := { s.status with err := true, lastErr := 3#4 }
      resp := some ⟨3#4, 0#64, none⟩ }

/-- R218: WR to MUL stores a finite value that is not below zero as it is, and rejects a negative
one. -/
def Obligations.WrMulStoresUnclamped : Prop :=
  ∀ (s : State) (d : DataWord), F64.isFinite d = true →
    (F64.lt d F64.zero = false →
      exec (.wr 0x14 d) s = .next { s with mulr := d, resp := some ⟨0#4, 0#64, none⟩ }) ∧
    (F64.lt d F64.zero = true →
      exec (.wr 0x14 d) s = .next { s with
        status := { s.status with err := true, lastErr := 3#4 }
        resp := some ⟨3#4, 0#64, none⟩ })

/-- R214: WR to STATUS clears the fields whose data bit is 1, LASTERR with ERR, and ignores every
other data bit. -/
def Obligations.WrStatusClearsWrittenBits : Prop :=
  ∀ (s : State) (d : DataWord),
    exec (.wr 0x3F d) s = .next { s with
      status :=
        ⟨if d.getLsbD 0 then false else s.status.err,
         if d.getLsbD 1 then false else s.status.nanf,
         if d.getLsbD 0 then 0#4 else s.status.lastErr⟩
      resp := some ⟨0#4, 0#64, none⟩ }

/-- R42, R212: WR to a reserved address is rejected with ERR_ADDR and to a read-only one with ERR_RO,
whatever the data. -/
def Obligations.WrRejectsProtectedAddresses : Prop :=
  ∀ (s : State) (a : Nat) (d : DataWord),
    ((0x15 ≤ a ∧ a ≤ 0x1F) ∨ a = 0x3D ∨ a = 0x3E →
      exec (.wr a d) s = .next { s with
        status := { s.status with err := true, lastErr := 1#4 }
        resp := some ⟨1#4, 0#64, none⟩ }) ∧
    (0x20 ≤ a ∧ a ≤ 0x3C →
      exec (.wr a d) s = .next { s with
        status := { s.status with err := true, lastErr := 2#4 }
        resp := some ⟨2#4, 0#64, none⟩ })

/-- R212, frame of WR: never a current, a coefficient, the delay state or the block position; a target
only when it is the one addressed, MUL only at 0x14, STATUS only at 0x3F or by a rejection. -/
def Obligations.WrChangesOnlyItsRegister : Prop :=
  ∀ (s t : State) (a : Nat) (d : DataWord), exec (.wr a d) s = .next t →
    t.cfg = s.cfg ∧ t.pos = s.pos ∧ t.port = s.port ∧
    (∀ b, (t.bands.get b).cur = (s.bands.get b).cur ∧
      (t.bands.get b).delay = (s.bands.get b).delay ∧
      (t.bands.get b).coefs = (s.bands.get b).coefs) ∧
    (∀ p b, a ≠ 5 * p.index + b.index →
      (t.bands.get b).tgt.get p = (s.bands.get b).tgt.get p) ∧
    (a ≠ 0x14 → t.mulr = s.mulr) ∧
    (a ≠ 0x3F → t.status.nanf = s.status.nanf) ∧
    (a ≠ 0x3F → (∃ r, t.resp = some r ∧ r.code = 0#4) → t.status = s.status)

/-- R74, R216: writing the same value again changes nothing, for every register and value, accepted or
rejected. -/
def Obligations.WritingTwiceIsWritingOnce : Prop :=
  ∀ (s t : State) (a : Nat) (d : DataWord), exec (.wr a d) s = .next t →
    exec (.wr a d) t = .next t

/-- R81: of two accepted writes of one parameter register the later one's value stays, and accepted
writes of different registers do not interact: either order leaves one state. -/
def Obligations.LaterWriteWins : Prop :=
  (∀ (s t u : State) (a : Nat) (d d' : DataWord) (r r' : Response), a ≤ 0x14 →
    exec (.wr a d) s = .next t → t.resp = some r → r.code = 0#4 →
    exec (.wr a d') s = .next u → u.resp = some r' → r'.code = 0#4 →
    exec (.wr a d') t = .next u) ∧
  (∀ (s t t' : State) (a a' : Nat) (d d' : DataWord) (r r' : Response), a ≠ a' →
    exec (.wr a d) s = .next t → t.resp = some r → r.code = 0#4 →
    exec (.wr a' d') s = .next t' → t'.resp = some r' → r'.code = 0#4 →
    ∃ u, exec (.wr a' d') t = .next u ∧ exec (.wr a d) t' = .next u)

/-! ### RD and STATUS -/

/-- R36: the bits of STATUS as it reads: ERR, NANF, LASTERR in 7:4, every other bit 0. -/
def Obligations.StatusWordLayout : Prop :=
  ∀ (st : Status) (i : Nat), st.word.getLsbD i =
    if i = 0 then st.err
    else if i = 1 then st.nanf
    else if 4 ≤ i ∧ i ≤ 7 then st.lastErr.getLsbD (i - 4)
    else false

/-- R215: RD of every address: its encoding, whatever D is; the value the map of R40 names, with no
change of any state but the response; ERR_ADDR at a reserved address. -/
def Obligations.RdReturnsTheMappedRegister : Prop :=
  ∀ (s : State) (a : Nat), a < 64 →
    (∀ d, decode (0x20000000#32 ||| BitVec.ofNat 32 a) d = .ok (.rd a)) ∧
    if (0x15 ≤ a ∧ a ≤ 0x1F) ∨ a = 0x3D ∨ a = 0x3E then
      exec (.rd a) s = .next { s with
        status := { s.status with err := true, lastErr := 1#4 }
        resp := some ⟨1#4, 0#64, none⟩ }
    else
      exec (.rd a) s = .next { s with
        resp := some ⟨0#4,
          if a < 0x14 then (s.bands.get (Band.ofIndex (a % 5))).tgt.get (Param.ofIndex (a / 5))
          else if a = 0x14 ∨ a = 0x34 then s.mulr
          else if a < 0x34 then
            (s.bands.get (Band.ofIndex ((a - 0x20) % 5))).cur.get (Param.ofIndex ((a - 0x20) / 5))
          else if a = 0x35 then s.cfg.pan
          else if a = 0x36 then s.cfg.fs
          else if a = 0x37 then F64.ofNat s.cfg.blockSize
          else if a = 0x38 then F64.zero
          else if a < 0x3C then F64.one
          else if a = 0x3C then F64.two
          else s.status.word, none⟩ }

/-- R267: after a WR of a finite value, RD of the target returns the stored value at once and RD of
the current returns what it returned before. -/
def Obligations.ReadAfterWriteReturnsTheStoredValue : Prop :=
  ∀ (s : State) (p : Param) (b : Band) (d : DataWord), F64.isFinite d = true →
    ∃ t, exec (.wr (5 * p.index + b.index) d) s = .next t ∧
      exec (.rd (5 * p.index + b.index)) t =
        .next { t with resp := some ⟨0#4, clampParam s.cfg p d, none⟩ } ∧
      exec (.rd (0x20 + (5 * p.index + b.index))) t =
        .next { t with resp := some ⟨0#4, (s.bands.get b).cur.get p, none⟩ }

/-! ### SMP as a whole -/

/-- R190, R180, R191, R193: SMP is CW 30000000 and no other word with OP 3; it does what the spec's
pseudocode does, statement by statement, the guards writing STATUS.NANF where they stand, and
answers OK with OUT = (M, L, R). -/
def Obligations.SmpMeetsItsPseudocode : Prop :=
  (∀ (cw : CmdWord) (d : DataWord), (cw.extractLsb' 28 4).toNat = 3 →
    if cw = 0x30000000#32 then decode cw d = .ok (.smp d) else ∃ e, decode cw d = .error e) ∧
  (∀ (s : State) (d : DataWord),
    exec (.smp d) s = .next { (Pseudo.smpStmt d s).2 with
      resp := some ⟨0#4, 0#64, some (Pseudo.smpStmt d s).1⟩ })

/-- R190, R192, frame of SMP: it completes in every state; targets, MUL, ERR, LASTERR and the
configuration stay; `pos` advances by one modulo BLOCK_SIZE; NANF is never cleared. -/
def Obligations.SmpChangesOnlyProcessingState : Prop :=
  ∀ (s : State) (d : DataWord), ∃ t, exec (.smp d) s = .next t ∧
    t.cfg = s.cfg ∧ t.mulr = s.mulr ∧ t.port = s.port ∧
    t.status.err = s.status.err ∧ t.status.lastErr = s.status.lastErr ∧
    (s.status.nanf = true → t.status.nanf = true) ∧
    t.pos = (s.pos + 1) % s.cfg.blockSize ∧
    ∀ b, (t.bands.get b).tgt = (s.bands.get b).tgt

/-- R153: every smoother ticks exactly once per accepted SMP, from the targets the SMP found; none
ticks on any other instruction. -/
def Obligations.SmpTicksEverySmootherOnce : Prop :=
  (∀ (s : State) (d : DataWord), ∃ t, exec (.smp d) s = .next t ∧
    ∀ p b, (t.bands.get b).cur.get p =
      tick s.cfg p ((s.bands.get b).cur.get p) ((s.bands.get b).tgt.get p)) ∧
  (∀ (i : Instr) (s t : State), (∀ d, i ≠ .smp d) → exec i s = .next t →
    ∀ b, (t.bands.get b).cur = (s.bands.get b).cur)

/-- R80, R265: the tick of the next SMP moves toward the value a WR has just stored. -/
def Obligations.WriteIsSeenByTheNextSample : Prop :=
  ∀ (s : State) (p : Param) (b : Band) (v d : DataWord), F64.isFinite v = true →
    ∃ t u, exec (.wr (5 * p.index + b.index) v) s = .next t ∧ exec (.smp d) t = .next u ∧
      (u.bands.get b).cur.get p =
        tick s.cfg p ((s.bands.get b).cur.get p) (clampParam s.cfg p v)

/-! ### Smoothers -/

/-- R158: in both modes the new current lies between the old current and the target. -/
def Obligations.SmootherStaysBetweenCurrentAndTarget : Prop :=
  ∀ (cfg : Config) (p : Param) (c t : B64), UsableConfig cfg →
    F64.isFinite c = true → F64.isFinite t = true →
    (F64.le c t = true →
      F64.le c (tick cfg p c t) = true ∧ F64.le (tick cfg p c t) t = true) ∧
    (F64.le t c = true →
      F64.le t (tick cfg p c t) = true ∧ F64.le (tick cfg p c t) c = true)

/-- R157: one tick moves the current by at most m·(1 + 2^-53) + 2^-53·|c'|, m the step of the
parameter, however far the target is. Values count units of 2^-1074 and both sides are multiplied
by 2^53; the spec asks it of a normal m, the statement of every m. -/
def Obligations.SmootherStepIsBounded : Prop :=
  ∀ (cfg : Config) (p : Param) (c t : B64), UsableConfig cfg →
    F64.isFinite c = true → F64.isFinite t = true →
    2 ^ 53 * |F64.value (tick cfg p c t) - F64.value c| ≤
      (2 ^ 53 + 1) * F64.value (cfg.maxStepOf p) + |F64.value (tick cfg p c t)|

/-- R151, R152, R159: a current that has reached its target stays there, a LINEAR current within one
step of it lands on it exactly, and an EXPONENTIAL current within `SNAP[p]` of it; and every tick,
whatever the values, is the pseudocode of its mode: the LINEAR step `c + m` or `c - m`, the
EXPONENTIAL step `d * k` clamped to `[-m, m]` with the two tests against overshoot. -/
def Obligations.SmootherLandsAndStays : Prop :=
  (∀ (cfg : Config) (p : Param) (c t : B64), UsableConfig cfg →
    F64.isFinite c = true → F64.isFinite t = true →
    (F64.eq c t = true → tick cfg p c t = t) ∧
    (cfg.mode.get p = .linear →
      |F64.value t - F64.value c| ≤ F64.value (cfg.maxStepOf p) → tick cfg p c t = t) ∧
    (cfg.mode.get p = .exponential →
      |F64.value t - F64.value c| ≤ F64.value (cfg.snapOf p) → tick cfg p c t = t)) ∧
  (∀ (cfg : Config) (p : Param) (c t d m : B64), cfg.mode.get p = .linear →
    d = F64.sub t c → m = cfg.maxStepOf p →
    tick cfg p c t =
      if F64.le (F64.abs d) m then t
      else if F64.lt F64.zero d then F64.add c m
      else F64.sub c m) ∧
  (∀ (cfg : Config) (p : Param) (c t d m s₀ s₁ s₂ n : B64), cfg.mode.get p = .exponential →
    d = F64.sub t c → m = cfg.maxStepOf p →
    s₀ = F64.mul d (cfg.expKOf p) →
    s₁ = (if F64.lt m s₀ then m else s₀) →
    s₂ = (if F64.lt s₁ (F64.neg m) then F64.neg m else s₁) →
    n = F64.add c s₂ →
    tick cfg p c t =
      if F64.le (F64.abs d) (cfg.snapOf p) then t
      else if F64.lt F64.zero d = true ∧ F64.lt t n = true then t
      else if F64.lt d F64.zero = true ∧ F64.lt n t = true then t
      else n)

/-- R159, LINEAR: within n + 1 ticks of a fixed target the current equals it, where n steps cover the
distance and the accumulated rounding, n·2^-53·max(|c0|, |t|), stays below one step. -/
def Obligations.LinearRampSettles : Prop :=
  ∀ (c t m : B64) (n : Nat),
    F64.isFinite c = true → F64.isFinite t = true → F64.isFinite m = true →
    0 < F64.value m →
    |F64.value t - F64.value c| ≤ n * F64.value m →
    n * max |F64.value c| |F64.value t| ≤ 2 ^ 53 * F64.value m →
    (fun x => tickLinear x t m)^[n + 1] c = t

/-- R160: where the step rounds back to the current and the target is farther than one step (LINEAR)
or the snap distance (EXPONENTIAL), the current never changes. -/
def Obligations.StalledCurrentsNeverMove : Prop :=
  ∀ (c t m k snap : B64) (n : Nat), F64.isFinite c = true → F64.isFinite t = true →
    (F64.le (F64.abs (F64.sub t c)) m = false →
      (if F64.lt F64.zero (F64.sub t c) then F64.add c m = c else F64.sub c m = c) →
      (fun x => tickLinear x t m)^[n] c = c) ∧
    (F64.le (F64.abs (F64.sub t c)) snap = false →
      F64.add c (expStep (F64.sub t c) m k) = c →
      (fun x => tickExp x t m k snap)^[n] c = c)

/-- R266, R192: with no other command between them, n SMPs move every current n ticks toward its
target and `pos` by n modulo BLOCK_SIZE. -/
def Obligations.SamplesTickOneByOne : Prop :=
  ∀ (s : State) (xs : List B64), s.pos < s.cfg.blockSize →
    (runSamples xs s).pos = (s.pos + xs.length) % s.cfg.blockSize ∧
    ∀ p b, ((runSamples xs s).bands.get b).cur.get p =
      (fun c => tick s.cfg p c ((s.bands.get b).tgt.get p))^[xs.length] ((s.bands.get b).cur.get p)

/-! ### Coefficients -/

/-- R129: at zero boost, of either sign, the coefficients are exactly the identity for every type,
frequency and Q; with them the recurrence returns the input's value, whatever the delay state. -/
def Obligations.CoefIsIdentityAtZeroBoost : Prop :=
  (∀ (cfg : Config) (ty : FilterType) (f q g : B64), F64.eq g F64.zero = true →
    coef cfg ty f q g = ⟨F64.one, F64.zero, F64.zero, F64.zero, F64.zero⟩) ∧
  (∀ (z : Delay) (u : B64), DelayFinite z → F64.isFinite u = true →
    SameSample (recurrence ⟨F64.one, F64.zero, F64.zero, F64.zero, F64.zero⟩ z u) u)

/-- R123-R127: the coefficients at a boost other than zero, as the cookbook's formulas give them from
the clamped frequency and Q. -/
def Obligations.CoefFollowsTheFormulas : Prop :=
  ∀ (cfg : Config) (f q g : B64), F64.eq g F64.zero = false →
    ∀ A w0 cw sw alpha t Ap1 Am1 : B64,
    A = cfg.pow F64.ten (F64.div g F64.forty) →
    w0 = F64.div (F64.mul (F64.mul F64.two F64.pi) (cfg.clampFreq f)) cfg.fs →
    cw = cfg.cos w0 → sw = cfg.sin w0 →
    alpha = F64.div sw (F64.mul F64.two (cfg.clampQ q)) →
    t = F64.mul (F64.mul F64.two (F64.sqrt A)) alpha →
    Ap1 = F64.add A F64.one → Am1 = F64.sub A F64.one →
    coef cfg .peak f q g = normalise
      ⟨F64.add F64.one (F64.mul alpha A), F64.mul (F64.neg F64.two) cw,
       F64.sub F64.one (F64.mul alpha A), F64.add F64.one (F64.div alpha A),
       F64.mul (F64.neg F64.two) cw, F64.sub F64.one (F64.div alpha A)⟩ ∧
    coef cfg .lowshelf f q g = normalise
      ⟨F64.mul A (F64.add (F64.sub Ap1 (F64.mul Am1 cw)) t),
       F64.mul (F64.mul F64.two A) (F64.sub Am1 (F64.mul Ap1 cw)),
       F64.mul A (F64.sub (F64.sub Ap1 (F64.mul Am1 cw)) t),
       F64.add (F64.add Ap1 (F64.mul Am1 cw)) t,
       F64.mul (F64.neg F64.two) (F64.add Am1 (F64.mul Ap1 cw)),
       F64.sub (F64.add Ap1 (F64.mul Am1 cw)) t⟩ ∧
    coef cfg .highshelf f q g = normalise
      ⟨F64.mul A (F64.add (F64.add Ap1 (F64.mul Am1 cw)) t),
       F64.mul (F64.mul (F64.neg F64.two) A) (F64.add Am1 (F64.mul Ap1 cw)),
       F64.mul A (F64.sub (F64.add Ap1 (F64.mul Am1 cw)) t),
       F64.add (F64.sub Ap1 (F64.mul Am1 cw)) t,
       F64.mul F64.two (F64.sub Am1 (F64.mul Ap1 cw)),
       F64.sub (F64.sub Ap1 (F64.mul Am1 cw)) t⟩ ∧
    ∀ r : RawCoefs, normalise r =
      ⟨F64.div r.b0 r.a0, F64.div r.b1 r.a0, F64.div r.b2 r.a0, F64.div r.a1 r.a0,
       F64.div r.a2 r.a0⟩

/-- R121: the generator clamps its frequency and Q, so it answers the same for a value and its
clamp, and the clamps are the identity in range. -/
def Obligations.CoefClampsFrequencyAndQ : Prop :=
  ∀ (cfg : Config) (ty : FilterType) (f q g : B64), UsableConfig cfg →
    F64.isFinite f = true → F64.isFinite q = true →
    coef cfg ty (cfg.clampFreq f) (cfg.clampQ q) g = coef cfg ty f q g ∧
    (ParamOk cfg .freq f → cfg.clampFreq f = f) ∧ (ParamOk cfg .q q → cfg.clampQ q = q)

/-- R181: a band recomputes its coefficients from the currents just ticked on every SMP under
PER_SAMPLE and at block position 0 under PER_BLOCK, and keeps them otherwise; its smoothers tick
on every SMP. -/
def Obligations.CoefficientsFollowTheUpdateCadence : Prop :=
  ∀ (s : State) (d : DataWord), ∃ t, exec (.smp d) s = .next t ∧
    ∀ b, (∀ p, (t.bands.get b).cur.get p =
        tick s.cfg p ((s.bands.get b).cur.get p) ((s.bands.get b).tgt.get p)) ∧
      (t.bands.get b).coefs =
      if s.cfg.coefUpdate = .perSample ∨ s.pos = 0 then
        coef s.cfg b.filterType (t.bands.get b).cur.freq (t.bands.get b).cur.q
          (t.bands.get b).cur.boost
      else (s.bands.get b).coefs

/-- R186: under PER_BLOCK, from a block's first SMP to its last the coefficients are those of the
currents that the first SMP ticked. -/
def Obligations.CoefficientLagIsWithinTheBlock : Prop :=
  ∀ (s : State) (x : B64) (xs : List B64), s.cfg.coefUpdate = .perBlock → s.pos = 0 →
    xs.length < s.cfg.blockSize → ∀ b : Band,
    ((runSamples (x :: xs) s).bands.get b).coefs =
      coef s.cfg b.filterType ((runSamples [x] s).bands.get b).cur.freq
        ((runSamples [x] s).bands.get b).cur.q ((runSamples [x] s).bands.get b).cur.boost

/-! ### Bands -/

/-- R130, R131, R132: with u the band's input and w what the recurrence computes from it and from the
coefficients just updated, a finite w
advances the delay line, and a w that is NaN or infinite clears it, leaves +0.0 as the wet output
and sets STATUS.NANF. -/
def Obligations.RecurrenceAdvancesOrClearsTheDelayLine : Prop :=
  ∀ (s : State) (d : DataWord) (b : Band) (u w : B64),
    u = cascadeAt s.cfg s.pos s.bands (inGuard d).out b.index →
    ∃ t, exec (.smp d) s = .next t ∧
      (w = F64.sub (F64.sub (F64.add (F64.add
            (F64.mul (t.bands.get b).coefs.b0 u)
            (F64.mul (t.bands.get b).coefs.b1 (s.bands.get b).delay.x1))
            (F64.mul (t.bands.get b).coefs.b2 (s.bands.get b).delay.x2))
            (F64.mul (t.bands.get b).coefs.a1 (s.bands.get b).delay.y1))
            (F64.mul (t.bands.get b).coefs.a2 (s.bands.get b).delay.y2) →
        (F64.isFinite w = true →
          (t.bands.get b).delay = ⟨u, (s.bands.get b).delay.x1, w, (s.bands.get b).delay.y1⟩ ∧
          cascadeAt s.cfg s.pos s.bands (inGuard d).out (b.index + 1) =
            (blend u w (t.bands.get b).cur.bypass).out) ∧
        (F64.isFinite w = false →
          (t.bands.get b).delay = ⟨F64.zero, F64.zero, F64.zero, F64.zero⟩ ∧
          t.status.nanf = true ∧
          cascadeAt s.cfg s.pos s.bands (inGuard d).out (b.index + 1) =
            (blend u F64.zero (t.bands.get b).cur.bypass).out))

/-- R183: a band whose coefficients were last computed at boost 0.0 and whose bypass is 0.0 passes
every finite input through, bit for bit but for the sign of a zero. -/
def Obligations.ZeroBoostBandIsTransparent : Prop :=
  ∀ (cfg : Config) (pos : Nat) (b : Band) (u : B64) (r : BandRegs),
    F64.isFinite u = true → DelayFinite r.delay →
    ((cfg.coefUpdate = .perSample ∨ pos = 0) ∧
        F64.eq (tick cfg .boost r.cur.boost r.tgt.boost) F64.zero = true ∨
      ¬(cfg.coefUpdate = .perSample ∨ pos = 0) ∧
        r.coefs = ⟨F64.one, F64.zero, F64.zero, F64.zero, F64.zero⟩) →
    F64.eq (tick cfg .bypass r.cur.bypass r.tgt.bypass) F64.zero = true →
    SameSample (bandOut cfg pos b u r) u

/-- R171: at bypass exactly 0.0 the blend is the wet signal and at exactly 1.0 the dry signal, bit for
bit, and no guard fires. -/
def Obligations.BlendEndpointsAreExact : Prop :=
  ∀ u w beta : B64, F64.isFinite u = true → F64.isFinite w = true →
    (F64.eq beta F64.zero = true → blend u w beta = ⟨w, false⟩) ∧
    (F64.eq beta F64.one = true → blend u w beta = ⟨u, false⟩)

/-- R184, R174: a band whose bypass target is 1.0 and whose current has reached it puts out its input
bit for bit, at 0.0 the wet output, on the sample whose tick reaches it and on every later one; and
the filter runs the same whatever the bypass is. -/
def Obligations.SettledBypassIsExact : Prop :=
  ∀ (cfg : Config) (pos : Nat) (b : Band) (u c : B64) (r : BandRegs), UsableConfig cfg →
    F64.isFinite u = true → F64.isFinite r.tgt.bypass = true → F64.isFinite r.cur.bypass = true →
    c = tick cfg .bypass r.cur.bypass r.tgt.bypass →
    (F64.eq r.tgt.bypass F64.one = true →
      (F64.eq r.cur.bypass F64.one = true → F64.eq c F64.one = true) ∧
      (F64.eq c F64.one = true → bandOut cfg pos b u r = u)) ∧
    (F64.eq r.tgt.bypass F64.zero = true →
      (F64.eq r.cur.bypass F64.zero = true → F64.eq c F64.zero = true) ∧
      (F64.eq c F64.zero = true → bandOut cfg pos b u r = (guardFinite (bandWet cfg pos b u r)).out)) ∧
    (∀ v w : B64,
      (bandRegs cfg pos b u { r with
        tgt := { r.tgt with bypass := v }, cur := { r.cur with bypass := w } }).delay =
      (bandRegs cfg pos b u r).delay)

/-- R185: what band b leaves and puts out depends on the bands before it and itself alone. -/
def Obligations.EarlierBandsIgnoreLaterBands : Prop :=
  ∀ (s s' : State) (d : DataWord) (n : Nat), s.cfg = s'.cfg → s.pos = s'.pos →
    (∀ b : Band, b.index ≤ n → s.bands.get b = s'.bands.get b) →
    ∃ t t', exec (.smp d) s = .next t ∧ exec (.smp d) s' = .next t' ∧
      ∀ b : Band, b.index ≤ n →
        t.bands.get b = t'.bands.get b ∧
        cascadeAt s.cfg s.pos s.bands (inGuard d).out (b.index + 1) =
          cascadeAt s'.cfg s'.pos s'.bands (inGuard d).out (b.index + 1)

/-! ### Guards and outputs -/

/-- R191, R197: a sample that is NaN or infinite gives the outputs and the state of a +0.0 sample,
with NANF set. -/
def Obligations.NonFiniteSampleIsSilence : Prop :=
  ∀ (s : State) (d : DataWord), F64.isFinite d = false →
    ∃ t, exec (.smp F64.zero) s = .next t ∧
      exec (.smp d) s = .next { t with status := { t.status with nanf := true } }

/-- R237: every SMP returns OK with its outputs, which are finite; ERR and LASTERR stay, whatever
guards fire. -/
def Obligations.SmpOutputsAreFinite : Prop :=
  ∀ (s : State) (d : DataWord), UsableConfig s.cfg →
    ∃ t o, exec (.smp d) s = .next t ∧ t.resp = some ⟨0#4, 0#64, some o⟩ ∧
      F64.isFinite o.m = true ∧ F64.isFinite o.l = true ∧ F64.isFinite o.r = true ∧
      t.status.err = s.status.err ∧ t.status.lastErr = s.status.lastErr

/-- R196: from power-on reset with PAN 0.5, after any commands none of which is a WR, every SMP of a
finite sample returns M, L and R equal to it, bit for bit but for the sign of a zero. -/
def Obligations.FlatChainIsTransparent : Prop :=
  ∀ (cfg : Config) (before rest : List HostEvent) (g : Agent) (x : B64), UsableConfig cfg →
    cfg.pan = F64.ofRatio false 1 2 → F64.isFinite x = true → (∀ e ∈ before, NotAWrite e) →
    ∃ t o, step (runSteps before.length { State.powerOn cfg with
        port := before ++ .command g 0x30000000#32 x :: rest }) = .next t ∧
      t.resp = some ⟨0#4, 0#64, some o⟩ ∧
      SameSample o.m x ∧ SameSample o.l x ∧ SameSample o.r x

/-! ### SRST -/

/-- R195: SRST is CW 40000000, whatever D is, and no other word with OP 4; it sets every delay
register to +0.0 and `pos` to 0, and changes nothing else. -/
def Obligations.SrstClearsFilterState : Prop :=
  (∀ (cw : CmdWord) (d : DataWord), (cw.extractLsb' 28 4).toNat = 4 →
    if cw = 0x40000000#32 then decode cw d = .ok .srst else ∃ e, decode cw d = .error e) ∧
  (∀ s : State, exec .srst s = .next { s with
    bands := Bands.ofFn fun b => { s.bands.get b with
      delay := ⟨F64.zero, F64.zero, F64.zero, F64.zero⟩ }
    pos := 0
    resp := some ⟨0#4, 0#64, none⟩ })

/-! ### Invariants -/

/-- R38, R43: the reset state meets the invariants. It rests on the configuration of log 1. -/
def Obligations.ResetMeetsTheInvariants : Prop :=
  StateInv State.reset ∧ PendingResetsOk State.reset

/-- R38, R43, R260: power-on reset with any legal configuration whose Q floor is at most the reset
value 1.0 (log 7) meets the invariants. -/
def Obligations.LegalResetMeetsTheInvariants : Prop :=
  ∀ cfg : Config, cfg.legal = true → F64.le cfg.qMin F64.one = true →
    StateInv (State.powerOn cfg)

/-- R38: every command keeps the invariants, from every state that has them: every instruction, and
every command word, legal or not, that a step performs. -/
def Obligations.CommandsKeepTheInvariants : Prop :=
  (∀ (i : Instr) (s t : State), StateInv s → exec i s = .next t → StateInv t) ∧
  (∀ (s t : State) (g : Agent) (cw : CmdWord) (d : DataWord) (rest : List HostEvent),
    StateInv s → s.port = .command g cw d :: rest → step s = .next t → StateInv t)

/-- Every step keeps the invariants, power-on resets among them. That a pending reset has a Q floor of
at most 1.0 is log 7. -/
def Obligations.StepsKeepTheInvariants : Prop :=
  ∀ s t : State, StateInv s → PendingResetsOk s → step s = .next t →
    StateInv t ∧ PendingResetsOk t

/-! ### Arithmetic -/

/-- R10: the sum, difference, product and quotient of finite values are the representable value
nearest to the exact result, and on a tie the one with the even pattern. Values count units of
2^-1074; the infinities stand at 2^1024, where the format's next value would be. The IEEE semantics are PRESUMED (log 6). -/
def Obligations.ArithmeticIsCorrectlyRounded : Prop :=
  ∀ a b c : B64, F64.isFinite a = true → F64.isFinite b = true → F64.isNaN c = false →
    (∀ r, r = F64.add a b → F64.isNaN r = false ∧
      |F64.value r - (F64.value a + F64.value b)| ≤ |F64.value c - (F64.value a + F64.value b)| ∧
      (|F64.value r - (F64.value a + F64.value b)| = |F64.value c - (F64.value a + F64.value b)| →
        F64.value r ≠ F64.value c → F64.mag r % 2 = 0)) ∧
    (∀ r, r = F64.sub a b → F64.isNaN r = false ∧
      |F64.value r - (F64.value a - F64.value b)| ≤ |F64.value c - (F64.value a - F64.value b)| ∧
      (|F64.value r - (F64.value a - F64.value b)| = |F64.value c - (F64.value a - F64.value b)| →
        F64.value r ≠ F64.value c → F64.mag r % 2 = 0)) ∧
    (∀ r, r = F64.mul a b → F64.isNaN r = false ∧
      |F64.value r * F64.unitsPerOne - F64.value a * F64.value b| ≤
        |F64.value c * F64.unitsPerOne - F64.value a * F64.value b| ∧
      (|F64.value r * F64.unitsPerOne - F64.value a * F64.value b| =
          |F64.value c * F64.unitsPerOne - F64.value a * F64.value b| →
        F64.value r ≠ F64.value c → F64.mag r % 2 = 0)) ∧
    (F64.value b ≠ 0 → ∀ r, r = F64.div a b → F64.isNaN r = false ∧
      |F64.value r * F64.value b - F64.value a * F64.unitsPerOne| ≤
        |F64.value c * F64.value b - F64.value a * F64.unitsPerOne| ∧
      (|F64.value r * F64.value b - F64.value a * F64.unitsPerOne| =
          |F64.value c * F64.value b - F64.value a * F64.unitsPerOne| →
        F64.value r ≠ F64.value c → F64.mag r % 2 = 0))

/-- R10: the square root of a finite value that is not below zero is the representable value nearest
to the exact root: no representable value lies strictly nearer. The exact root of a, in units, is
the square root of value a · 2^1074. PRESUMED (log 6). -/
def Obligations.SquareRootIsCorrectlyRounded : Prop :=
  ∀ a c : B64, F64.isFinite a = true → 0 ≤ F64.value a → F64.isFinite c = true →
    F64.isFinite (F64.sqrt a) = true ∧
    |(F64.value (F64.sqrt a) : ℝ) - Real.sqrt ((F64.value a : ℝ) * F64.unitsPerOne)| ≤
      |(F64.value c : ℝ) - Real.sqrt ((F64.value a : ℝ) * F64.unitsPerOne)|
end

