-- ==== Sys2Proof/Laws/Float64.lean ====
section
/-! SUPPORT. What the operators of Machine/Float64.lean do: the patterns, the rounding (it is monotone,
exact on representable values and within half a unit in the last place), and for each operator one
lemma that bounds its result by representable values. -/

namespace Sys2Proof.F64

/-! ### Patterns -/

theorem mag_lt (a : B64) : mag a < 2 ^ 63 := Nat.mod_lt _ (by norm_num)

theorem toNat_eq (a : B64) : a.toNat = (if signBit a then 2 ^ 63 else 0) + mag a := by
  have h := a.isLt
  unfold signBit mag
  by_cases hs : 2 ^ 63 ≤ a.toNat
  · rw [decide_eq_true hs, if_pos rfl]; omega
  · rw [decide_eq_false hs, if_neg Bool.false_ne_true]; omega

theorem mag_ofMag {s : Bool} {p : Nat} (h : p < 2 ^ 63) : mag (ofMag s p) = p := by
  cases s <;> simp only [mag, ofMag, BitVec.toNat_ofNat, if_true, Bool.false_eq_true, if_false] <;> omega

theorem signBit_ofMag {s : Bool} {p : Nat} (h : p < 2 ^ 63) : signBit (ofMag s p) = s := by
  cases s <;>
    simp only [signBit, ofMag, BitVec.toNat_ofNat, if_true, Bool.false_eq_true, if_false,
      decide_eq_true_eq, decide_eq_false_iff_not] <;> omega

/-- A pattern is its sign and magnitude. -/
theorem ofMag_sign_mag (a : B64) : ofMag (signBit a) (mag a) = a := by
  apply BitVec.eq_of_toNat_eq
  have h := a.isLt
  have e := toNat_eq a
  unfold ofMag
  rw [BitVec.toNat_ofNat]
  cases hs : signBit a <;> simp [hs] at e ⊢ <;> omega

theorem ext_sign_mag {a b : B64} (hs : signBit a = signBit b) (hm : mag a = mag b) : a = b := by
  rw [← ofMag_sign_mag a, ← ofMag_sign_mag b, hs, hm]

theorem infMag_lt : infMag < 2 ^ 63 := by unfold infMag; norm_num

theorem signMask_low : ∀ j : Fin 64, j.val ≠ 63 → (0x8000000000000000#64).getLsbD j = false := by
  decide

theorem toNat_neg (a : B64) :
    (neg a).toNat = if 2 ^ 63 ≤ a.toNat then a.toNat - 2 ^ 63 else a.toNat + 2 ^ 63 := by
  have h := a.isLt
  have e : neg a = a + 0x8000000000000000#64 := by
    unfold neg
    apply BitVec.eq_of_getLsbD_eq
    intro i hi
    rw [BitVec.getLsbD_xor, BitVec.getLsbD_add hi]
    congr 1
    by_cases h63 : i = 63
    · subst h63
      have : BitVec.carry 63 a 0x8000000000000000#64 false = false := by
        simp [BitVec.carry, Nat.mod_lt]
      rw [this, Bool.xor_false]
    · rw [signMask_low ⟨i, hi⟩ h63, Bool.false_xor]
      have h0 : 0x8000000000000000 % 2 ^ i = 0 := by
        apply Nat.mod_eq_zero_of_dvd
        rw [show 0x8000000000000000 = 2 ^ 63 by norm_num]
        exact pow_dvd_pow 2 (by omega)
      simp [BitVec.carry, h0, Nat.mod_lt]
  rw [e, BitVec.toNat_add, BitVec.toNat_ofNat]
  split <;> omega

@[simp] theorem mag_neg (a : B64) : mag (neg a) = mag a := by
  have h := a.isLt
  unfold mag
  rw [toNat_neg]
  split <;> omega

@[simp] theorem signBit_neg (a : B64) : signBit (neg a) = !signBit a := by
  have h := a.isLt
  unfold signBit
  rw [toNat_neg]
  by_cases hs : 2 ^ 63 ≤ a.toNat
  · rw [if_pos hs, decide_eq_true hs]; simp; omega
  · rw [if_neg hs, decide_eq_false hs]; simp

theorem toNat_abs (a : B64) : (abs a).toNat = mag a := by
  unfold abs mag
  rw [BitVec.toNat_and, BitVec.toNat_ofNat,
    show 0x7FFFFFFFFFFFFFFF % 2 ^ 64 = 2 ^ 63 - 1 by norm_num, Nat.and_two_pow_sub_one_eq_mod]

@[simp] theorem mag_abs (a : B64) : mag (abs a) = mag a := by
  have h := mag_lt a
  conv_lhs => unfold mag
  rw [toNat_abs]
  omega

@[simp] theorem signBit_abs (a : B64) : signBit (abs a) = false := by
  have h := mag_lt a
  unfold signBit
  rw [toNat_abs]
  simp; omega

/-- The NaN an operator yields is a NaN, whatever its free bits are (log 3). -/
@[simp] theorem isNaN_nanOf (op : FloatOp) (a b : B64) : isNaN (nanOf op a b) = true := by
  unfold isNaN mag nanOf infMag
  generalize Config.nanBits op a b = x
  rw [BitVec.toNat_or, BitVec.toNat_ofNat, ← Nat.and_two_pow_sub_one_eq_mod, Nat.and_or_distrib_right]
  have h : (0x7FF8000000000000 % 2 ^ 64) &&& (2 ^ 63 - 1) = 0x7FF8000000000000 := by decide
  rw [h]
  have := @Nat.right_le_or (x.toNat &&& (2 ^ 63 - 1)) 0x7FF8000000000000
  simp only [decide_eq_true_eq]
  omega

/-! ### Classes -/

theorem isFinite_iff {a : B64} : isFinite a = true ↔ mag a < infMag := by simp [isFinite]
theorem isNaN_iff {a : B64} : isNaN a = true ↔ infMag < mag a := by simp [isNaN]
theorem isNaN_false_iff {a : B64} : isNaN a = false ↔ mag a ≤ infMag := by simp [isNaN]
theorem isInf_iff {a : B64} : isInf a = true ↔ mag a = infMag := by simp [isInf]
theorem isZero_iff {a : B64} : isZero a = true ↔ mag a = 0 := by simp [isZero]

@[simp] theorem isFinite_nanOf (op : FloatOp) (a b : B64) : isFinite (nanOf op a b) = false := by
  have h := isNaN_iff.1 (isNaN_nanOf op a b)
  simp [isFinite]; omega

theorem isNaN_of_isFinite {a : B64} (h : isFinite a = true) : isNaN a = false := by
  rw [isFinite_iff] at h
  rw [isNaN_false_iff]; omega

theorem isInf_of_isFinite {a : B64} (h : isFinite a = true) : isInf a = false := by
  rw [isFinite_iff] at h
  simp [isInf]; omega

@[simp] theorem isFinite_neg (a : B64) : isFinite (neg a) = isFinite a := by simp [isFinite]
@[simp] theorem isNaN_neg (a : B64) : isNaN (neg a) = isNaN a := by simp [isNaN]
@[simp] theorem isInf_neg (a : B64) : isInf (neg a) = isInf a := by simp [isInf]
@[simp] theorem isFinite_abs (a : B64) : isFinite (abs a) = isFinite a := by simp [isFinite]
@[simp] theorem isNaN_abs (a : B64) : isNaN (abs a) = isNaN a := by simp [isNaN]

/-! ### Magnitudes -/

theorem magValue_scaled {e f : Nat} (hf : f < 2 ^ 52) :
    magValue ((e + 1) * 2 ^ 52 + f) = (2 ^ 52 + f) * 2 ^ e := by
  unfold magValue
  have h1 : ¬ ((e + 1) * 2 ^ 52 + f < 2 ^ 52) := by omega
  have h2 : ((e + 1) * 2 ^ 52 + f) % 2 ^ 52 = f := by omega
  have h3 : ((e + 1) * 2 ^ 52 + f) / 2 ^ 52 - 1 = e := by omega
  rw [if_neg h1, h2, h3]

/-- The pattern made of `k` dropped places and a significand `r` of at most 53 bits (2^53 after a
carry) denotes r·2^k. -/
theorem magValue_pattern {k r : Nat} (hk : k = 0 ∨ 2 ^ 52 ≤ r) (hr : r ≤ 2 ^ 53) :
    magValue (k * 2 ^ 52 + r) = r * 2 ^ k := by
  by_cases hlow : r < 2 ^ 52
  · have : k = 0 := by omega
    subst this
    rw [Nat.zero_mul, Nat.zero_add, magValue, if_pos hlow, pow_zero, Nat.mul_one]
  · by_cases hcarry : r = 2 ^ 53
    · subst hcarry
      rw [show k * 2 ^ 52 + 2 ^ 53 = (k + 1 + 1) * 2 ^ 52 + 0 by ring, magValue_scaled (by norm_num)]
      ring
    · rw [show k * 2 ^ 52 + r = (k + 1) * 2 ^ 52 + (r - 2 ^ 52) by omega,
        magValue_scaled (by omega), show 2 ^ 52 + (r - 2 ^ 52) = r by omega]

/-- Every magnitude pattern is some dropped places and a significand. -/
theorem exists_pattern (p : Nat) :
    ∃ k r, p = k * 2 ^ 52 + r ∧ (k = 0 ∨ 2 ^ 52 ≤ r) ∧ r < 2 ^ 53 := by
  by_cases h : p < 2 ^ 52
  · exact ⟨0, p, by omega, .inl rfl, by omega⟩
  · exact ⟨p / 2 ^ 52 - 1, 2 ^ 52 + p % 2 ^ 52, by omega, .inr (by omega), by omega⟩

theorem magValue_lt_succ (p : Nat) : magValue p < magValue (p + 1) := by
  obtain ⟨k, r, rfl, hk, hr⟩ := exists_pattern p
  rw [magValue_pattern hk (by omega), show k * 2 ^ 52 + r + 1 = k * 2 ^ 52 + (r + 1) by ring,
    magValue_pattern (by omega) (by omega)]
  exact Nat.mul_lt_mul_of_pos_right (by omega) (Nat.two_pow_pos k)

theorem magValue_strictMono : StrictMono magValue := strictMono_nat_of_lt_succ magValue_lt_succ

@[simp] theorem magValue_zero : magValue 0 = 0 := by simp [magValue]

theorem magValue_lt {p q : Nat} : magValue p < magValue q ↔ p < q := magValue_strictMono.lt_iff_lt
theorem magValue_le {p q : Nat} : magValue p ≤ magValue q ↔ p ≤ q := magValue_strictMono.le_iff_le
theorem magValue_inj {p q : Nat} : magValue p = magValue q ↔ p = q :=
  magValue_strictMono.injective.eq_iff
theorem magValue_eq_zero {p : Nat} : magValue p = 0 ↔ p = 0 := by
  have := @magValue_inj p 0
  rwa [magValue_zero] at this

/-! ### Rounding to a whole number -/

/-- The rounded quotient is within one half. -/
theorem roundQuot_spec {n d : Nat} (hd : 0 < d) :
    2 * (roundQuot n d * d) ≤ 2 * n + d ∧ 2 * n ≤ 2 * (roundQuot n d * d) + d := by
  have h := Nat.div_add_mod n d
  have hm := Nat.mod_lt n hd
  have hc : d * (n / d) = n / d * d := Nat.mul_comm _ _
  unfold roundQuot
  split
  · constructor <;> omega
  · split
    · rw [Nat.add_mul, Nat.one_mul]
      constructor <;> omega
    · rcases Nat.mod_two_eq_zero_or_one (n / d) with h2 | h2 <;> rw [h2]
      · rw [Nat.add_zero]
        constructor <;> omega
      · rw [Nat.add_mul, Nat.one_mul]
        constructor <;> omega

/-- A tie goes to the even neighbour. -/
theorem roundQuot_tie {n d m : Nat} (hd : 0 < d) (h : 2 * n = (2 * m + 1) * d) :
    roundQuot n d = m + m % 2 := by
  have hdm : n / d = m := by
    apply Nat.div_eq_of_lt_le <;> nlinarith
  have hmod : 2 * (n % d) = d := by
    have := Nat.div_add_mod n d
    rw [hdm] at this
    nlinarith
  unfold roundQuot
  rw [hdm, if_neg (by omega), if_neg (by omega)]

theorem roundQuot_mul {m d : Nat} (hd : 0 < d) : roundQuot (m * d) d = m := by
  unfold roundQuot
  simp [Nat.mul_div_cancel _ hd, hd]

/-- Rounding is monotone in the quotient. -/
theorem roundQuot_mono {n₁ d₁ n₂ d₂ : Nat} (h₁ : 0 < d₁) (h₂ : 0 < d₂) (h : n₁ * d₂ ≤ n₂ * d₁) :
    roundQuot n₁ d₁ ≤ roundQuot n₂ d₂ := by
  by_contra hlt
  obtain ⟨-, hu⟩ := roundQuot_spec (n := n₂) h₂
  obtain ⟨hl, -⟩ := roundQuot_spec (n := n₁) h₁
  set r₁ := roundQuot n₁ d₁ with hr₁
  set r₂ := roundQuot n₂ d₂ with hr₂
  obtain ⟨t, ht⟩ : ∃ t, r₁ = r₂ + 1 + t := ⟨r₁ - r₂ - 1, by omega⟩
  have hpos : 0 < d₁ * d₂ := Nat.mul_pos h₁ h₂
  have a₁ : 2 * (r₁ * d₁) * d₂ ≤ (2 * n₁ + d₁) * d₂ := Nat.mul_le_mul_right _ hl
  have a₂ : 2 * n₂ * d₁ ≤ (2 * (r₂ * d₂) + d₂) * d₁ := Nat.mul_le_mul_right _ hu
  have ht0 : t = 0 := by
    rw [ht] at a₁
    by_contra hne
    have : 1 ≤ t := by omega
    nlinarith [Nat.mul_le_mul_left (d₁ * d₂) this]
  have ht1 : r₁ = r₂ + 1 := by omega
  have e₁ : 2 * n₁ = (2 * r₂ + 1) * d₁ := by
    rw [ht1] at a₁ hl
    have : (2 * r₂ + 1) * d₁ * d₂ ≤ 2 * n₁ * d₂ := by nlinarith
    have l : (2 * r₂ + 1) * d₁ ≤ 2 * n₁ := Nat.le_of_mul_le_mul_right this h₂
    have u : 2 * n₁ * d₂ ≤ (2 * r₂ + 1) * d₁ * d₂ := by nlinarith
    have u' : 2 * n₁ ≤ (2 * r₂ + 1) * d₁ := Nat.le_of_mul_le_mul_right u h₂
    omega
  have e₂ : 2 * n₂ = (2 * r₂ + 1) * d₂ := by
    have u : 2 * n₂ ≤ (2 * r₂ + 1) * d₂ := by nlinarith
    have : (2 * r₂ + 1) * d₂ * d₁ ≤ 2 * n₂ * d₁ := by nlinarith
    have l : (2 * r₂ + 1) * d₂ ≤ 2 * n₂ := Nat.le_of_mul_le_mul_right this h₁
    omega
  have := roundQuot_tie h₁ e₁
  have := roundQuot_tie h₂ e₂
  omega

/-! ### Rounding to a magnitude pattern -/

theorem dropBits_spec {n d : Nat} (hd : 0 < d) :
    n < 2 ^ 53 * (d * 2 ^ dropBits n d) ∧
    (dropBits n d = 0 ∨ 2 ^ 52 * (d * 2 ^ dropBits n d) ≤ n) := by
  unfold dropBits
  constructor
  · have h1 : n / d < 2 ^ (Nat.log2 (n / d) + 1) := Nat.lt_log2_self
    have h2 : n / d < 2 ^ (53 + (Nat.log2 (n / d) - 52)) :=
      h1.trans_le (Nat.pow_le_pow_right (by norm_num) (by omega))
    rw [Nat.div_lt_iff_lt_mul hd, pow_add] at h2
    calc n < 2 ^ 53 * 2 ^ (Nat.log2 (n / d) - 52) * d := h2
      _ = _ := by ring
  · by_cases hk : Nat.log2 (n / d) ≤ 52
    · left; omega
    · right
      have hq : n / d ≠ 0 := by
        intro h0
        rw [h0] at hk
        exact hk (by decide)
      have h1 := Nat.log2_self_le hq
      rw [Nat.le_div_iff_mul_le hd] at h1
      calc 2 ^ 52 * (d * 2 ^ (Nat.log2 (n / d) - 52))
          = 2 ^ (52 + (Nat.log2 (n / d) - 52)) * d := by rw [pow_add]; ring
        _ = 2 ^ Nat.log2 (n / d) * d := by rw [show 52 + (Nat.log2 (n / d) - 52) = Nat.log2 (n / d) by omega]
        _ ≤ n := h1

/-- The significand that rounding leaves: 53 bits, or 2^53 after a carry, and normal unless nothing
was dropped. -/
theorem significand_bounds {n d : Nat} (hd : 0 < d) :
    (dropBits n d = 0 ∨ 2 ^ 52 ≤ roundQuot n (d * 2 ^ dropBits n d)) ∧
    roundQuot n (d * 2 ^ dropBits n d) ≤ 2 ^ 53 := by
  obtain ⟨hu, hl⟩ := dropBits_spec (n := n) hd
  have hpos : 0 < d * 2 ^ dropBits n d := Nat.mul_pos hd (Nat.two_pow_pos _)
  constructor
  · refine hl.imp id fun h => ?_
    have := roundQuot_mono (n₁ := 2 ^ 52 * (d * 2 ^ dropBits n d)) (n₂ := n) hpos hpos
      (Nat.mul_le_mul_right _ h)
    rwa [roundQuot_mul hpos] at this
  · have := roundQuot_mono (n₁ := n) (n₂ := 2 ^ 53 * (d * 2 ^ dropBits n d)) hpos hpos
      (Nat.mul_le_mul_right _ hu.le)
    rwa [roundQuot_mul hpos] at this

/-- Rounding is monotone in the quotient. -/
theorem roundMag_mono {n₁ d₁ n₂ d₂ : Nat} (h₁ : 0 < d₁) (h₂ : 0 < d₂) (h : n₁ * d₂ ≤ n₂ * d₁) :
    roundMag n₁ d₁ ≤ roundMag n₂ d₂ := by
  unfold roundMag
  apply min_le_min_left
  have hq : n₁ / d₁ ≤ n₂ / d₂ := by
    rw [Nat.le_div_iff_mul_le h₂]
    have h3 : n₁ / d₁ * d₁ ≤ n₁ := Nat.div_mul_le_self _ _
    have h4 : n₁ / d₁ * d₂ * d₁ ≤ n₂ * d₁ := by
      calc n₁ / d₁ * d₂ * d₁ = n₁ / d₁ * d₁ * d₂ := by ring
        _ ≤ n₁ * d₂ := Nat.mul_le_mul_right _ h3
        _ ≤ _ := h
    exact Nat.le_of_mul_le_mul_right h4 h₁
  have hk : dropBits n₁ d₁ ≤ dropBits n₂ d₂ := by
    unfold dropBits
    have : Nat.log2 (n₁ / d₁) ≤ Nat.log2 (n₂ / d₂) := by
      rw [Nat.log2_eq_log_two, Nat.log2_eq_log_two]
      exact Nat.log_mono_right hq
    omega
  rcases hk.eq_or_lt with he | hlt
  · rw [he]
    apply Nat.add_le_add_left
    refine roundQuot_mono (Nat.mul_pos h₁ (Nat.two_pow_pos _)) (Nat.mul_pos h₂ (Nat.two_pow_pos _)) ?_
    calc n₁ * (d₂ * 2 ^ dropBits n₂ d₂) = n₁ * d₂ * 2 ^ dropBits n₂ d₂ := by ring
      _ ≤ n₂ * d₁ * 2 ^ dropBits n₂ d₂ := Nat.mul_le_mul_right _ h
      _ = _ := by ring
  · have a := (significand_bounds (n := n₁) h₁).2
    have b := (significand_bounds (n := n₂) h₂).1
    have : dropBits n₁ d₁ + 1 ≤ dropBits n₂ d₂ := hlt
    have := Nat.mul_le_mul_right (2 ^ 52) this
    omega

theorem roundMag_le_infMag (n d : Nat) : roundMag n d ≤ infMag := min_le_left _ _

theorem roundMag_lt (n d : Nat) : roundMag n d < 2 ^ 63 :=
  (roundMag_le_infMag n d).trans_lt infMag_lt

/-- A representable magnitude rounds to its own pattern. -/
theorem roundMag_magValue {p d : Nat} (hd : 0 < d) (hp : p ≤ infMag) :
    roundMag (magValue p * d) d = p := by
  obtain ⟨k, r, rfl, hk, hr⟩ := exists_pattern p
  have hv := magValue_pattern hk hr.le
  have hdrop : dropBits (magValue (k * 2 ^ 52 + r) * d) d = k := by
    unfold dropBits
    rw [Nat.mul_div_cancel _ hd, hv]
    rcases hk with rfl | hk
    · have : Nat.log2 (r * 2 ^ 0) < 53 := by
        rw [pow_zero, Nat.mul_one]
        by_cases h0 : r = 0
        · subst h0; decide
        · exact (Nat.log2_lt h0).2 hr
      omega
    · have : Nat.log2 (r * 2 ^ k) = 52 + k := by
        rw [Nat.log2_eq_iff (by positivity)]
        constructor
        · rw [pow_add]; exact Nat.mul_le_mul_right _ hk
        · rw [show 52 + k + 1 = 53 + k by ring, pow_add]
          exact Nat.mul_lt_mul_of_pos_right hr (Nat.two_pow_pos k)
      omega
  unfold roundMag
  rw [hdrop, hv, show r * 2 ^ k * d = r * (d * 2 ^ k) by ring,
    roundQuot_mul (Nat.mul_pos hd (Nat.two_pow_pos k))]
  exact min_eq_right hp

/-- A bound by a representable magnitude carries over to the rounded one. -/
theorem roundMag_le {n d p : Nat} (hd : 0 < d) (hp : p ≤ infMag) (h : n ≤ magValue p * d) :
    roundMag n d ≤ p := by
  have := roundMag_mono (n₂ := magValue p * d) hd hd (Nat.mul_le_mul_right d h)
  rwa [roundMag_magValue hd hp] at this

theorem le_roundMag {n d p : Nat} (hd : 0 < d) (hp : p ≤ infMag) (h : magValue p * d ≤ n) :
    p ≤ roundMag n d := by
  have := roundMag_mono (n₁ := magValue p * d) hd hd (Nat.mul_le_mul_right d h)
  rwa [roundMag_magValue hd hp] at this

/-- A whole number of units that does not overflow is off by at most 2^-53 of the result. -/
theorem roundMag_error {n : Nat} (hfin : roundMag n 1 < infMag) :
    2 ^ 53 * magValue (roundMag n 1) ≤ 2 ^ 53 * n + magValue (roundMag n 1) ∧
    2 ^ 53 * n ≤ 2 ^ 53 * magValue (roundMag n 1) + magValue (roundMag n 1) := by
  obtain ⟨hk, hr⟩ := significand_bounds (n := n) Nat.one_pos
  have hmag : roundMag n 1 = dropBits n 1 * 2 ^ 52 + roundQuot n (1 * 2 ^ dropBits n 1) := by
    unfold roundMag at hfin ⊢
    omega
  rw [hmag, magValue_pattern hk hr]
  obtain ⟨hl, hu⟩ := roundQuot_spec (n := n) (d := 1 * 2 ^ dropBits n 1) (by positivity)
  rw [Nat.one_mul] at hl hu hk ⊢
  rcases hk with h0 | h52
  · have : roundQuot n (2 ^ dropBits n 1) * 2 ^ dropBits n 1 = n := by
      have e := roundQuot_mul (m := n) Nat.one_pos
      rw [h0, pow_zero]
      rw [Nat.mul_one] at e
      omega
    rw [this]
    omega
  · have := Nat.mul_le_mul_right (2 ^ dropBits n 1) h52
    constructor <;> omega

end Sys2Proof.F64
end

