-- ==== Sys2Proof/Laws/FloatOps.lean ====
section
/-! SUPPORT. What each binary64 operator answers, through the value it denotes: comparisons are
comparisons of values, and the result of an operation lies below (above) every representable value
that the exact result lies below (above). -/

namespace Sys2Proof.F64

/-! ### Values -/

theorem value_ofMag {s : Bool} {p : Nat} (h : p < 2 ^ 63) :
    value (ofMag s p) = if s then -(magValue p : Int) else (magValue p : Int) := by
  unfold value
  rw [signBit_ofMag h, mag_ofMag h]

@[simp] theorem value_neg (a : B64) : value (neg a) = -value a := by
  unfold value
  rw [signBit_neg, mag_neg]
  cases signBit a <;> simp

@[simp] theorem value_abs (a : B64) : value (abs a) = |value a| := by
  unfold value
  rw [signBit_abs, mag_abs]
  cases signBit a <;> simp

theorem natAbs_value (a : B64) : (value a).natAbs = magValue (mag a) := by
  unfold value
  cases signBit a <;> simp

theorem abs_value (a : B64) : |value a| = (magValue (mag a) : Int) := by
  rw [← natAbs_value]; exact Int.abs_eq_natAbs _

theorem value_of_nonneg {a : B64} (h : 0 ≤ value a) : value a = (magValue (mag a) : Int) := by
  rw [← abs_value, abs_of_nonneg h]

theorem value_eq_zero {a : B64} : value a = 0 ↔ mag a = 0 := by
  rw [← Int.natAbs_eq_zero, natAbs_value, magValue_eq_zero]

/-- A value is finite when its magnitude is below that of the infinities. -/
theorem isFinite_of_abs_lt {a : B64} (h : |value a| < (magValue infMag : Int)) : isFinite a = true := by
  rw [abs_value] at h
  exact isFinite_iff.2 (magValue_lt.1 (by exact_mod_cast h))

theorem abs_value_lt {a : B64} (h : isFinite a = true) : |value a| < (magValue infMag : Int) := by
  rw [abs_value]
  exact_mod_cast magValue_lt.2 (isFinite_iff.1 h)

/-- Between two finite values there are only finite values. -/
theorem isFinite_of_between {a b c : B64} (ha : isFinite a = true) (hb : isFinite b = true)
    (h₁ : value a ≤ value c) (h₂ : value c ≤ value b) : isFinite c = true := by
  apply isFinite_of_abs_lt
  have := abs_lt.1 (abs_value_lt ha)
  have := abs_lt.1 (abs_value_lt hb)
  exact abs_lt.2 ⟨by omega, by omega⟩

/-- Two non-zero patterns of one value are one pattern. -/
theorem eq_of_value_eq {a b : B64} (h : value a = value b) (h0 : value a ≠ 0) : a = b := by
  have hm : mag a = mag b := by
    rw [← magValue_inj, ← natAbs_value, ← natAbs_value, h]
  refine ext_sign_mag ?_ hm
  unfold value at h h0
  rw [hm] at h h0
  have : (magValue (mag b) : Int) ≠ 0 := by
    intro hz
    rw [hz] at h0
    simp at h0
  cases ha : signBit a <;> cases hb : signBit b <;> simp [ha, hb] at h ⊢ <;> omega

/-! ### Comparisons -/

theorem lt_iff {a b : B64} (ha : isNaN a = false) (hb : isNaN b = false) :
    lt a b = true ↔ value a < value b := by simp [lt, ha, hb]

theorem le_iff {a b : B64} (ha : isNaN a = false) (hb : isNaN b = false) :
    le a b = true ↔ value a ≤ value b := by simp [le, ha, hb]

theorem eq_iff {a b : B64} (ha : isNaN a = false) (hb : isNaN b = false) :
    eq a b = true ↔ value a = value b := by simp [eq, ha, hb]

theorem le_spec {a b : B64} (h : le a b = true) :
    isNaN a = false ∧ isNaN b = false ∧ value a ≤ value b := by
  simpa [le, and_assoc] using h

theorem lt_spec {a b : B64} (h : lt a b = true) :
    isNaN a = false ∧ isNaN b = false ∧ value a < value b := by
  simpa [lt, and_assoc] using h

theorem eq_spec {a b : B64} (h : eq a b = true) :
    isNaN a = false ∧ isNaN b = false ∧ value a = value b := by
  simpa [eq, and_assoc] using h

theorem le_of_value_le {a b : B64} (ha : isNaN a = false) (hb : isNaN b = false)
    (h : value a ≤ value b) : le a b = true := (le_iff ha hb).2 h

/-- A value between two finite ones by `le` is finite. -/
theorem isFinite_of_le_le {a b c : B64} (ha : isFinite a = true) (hb : isFinite b = true)
    (h₁ : le a c = true) (h₂ : le c b = true) : isFinite c = true :=
  isFinite_of_between ha hb (le_spec h₁).2.2 (le_spec h₂).2.2

/-! ### Rounding a signed quotient -/

theorem isNaN_round (s : Bool) (n d : Nat) : isNaN (round s n d) = false := by
  rw [isNaN_false_iff, round, mag_ofMag (roundMag_lt n d)]
  exact roundMag_le_infMag n d

theorem mag_round (s : Bool) (n d : Nat) : mag (round s n d) = roundMag n d :=
  mag_ofMag (roundMag_lt n d)

theorem signBit_round (s : Bool) (n d : Nat) : signBit (round s n d) = s :=
  signBit_ofMag (roundMag_lt n d)

theorem value_round (s : Bool) (n d : Nat) :
    value (round s n d) = if s then -(magValue (roundMag n d) : Int) else magValue (roundMag n d) :=
  value_ofMag (roundMag_lt n d)

theorem value_round_true (n d : Nat) : value (round true n d) = -value (round false n d) := by
  simp [value_round]

theorem round_false_le {n d : Nat} (hd : 0 < d) {c : B64} (hc : isNaN c = false)
    (h : (n : Int) ≤ value c * d) : value (round false n d) ≤ value c := by
  have h0 : 0 ≤ value c := by
    by_contra hneg
    have : value c * d < 0 := mul_neg_of_neg_of_pos (by omega) (by exact_mod_cast hd)
    omega
  rw [value_of_nonneg h0] at h ⊢
  rw [value_round]
  have := roundMag_le hd (isNaN_false_iff.1 hc) (by exact_mod_cast h)
  simpa using magValue_le.2 this

theorem le_round_false {n d : Nat} (hd : 0 < d) {c : B64} (hc : isNaN c = false)
    (h : value c * d ≤ (n : Int)) : value c ≤ value (round false n d) := by
  by_cases h0 : 0 ≤ value c
  · rw [value_of_nonneg h0] at h ⊢
    rw [value_round]
    have := le_roundMag hd (isNaN_false_iff.1 hc) (by exact_mod_cast h)
    simpa using magValue_le.2 this
  · have : 0 ≤ value (round false n d) := by rw [value_round]; simp
    omega

/-- A quotient below a representable value rounds to at most that value. -/
theorem round_le {s : Bool} {n d : Nat} (hd : 0 < d) {c : B64} (hc : isNaN c = false)
    (h : (if s then -(n : Int) else n) ≤ value c * d) : value (round s n d) ≤ value c := by
  cases s
  · exact round_false_le hd hc (by simpa using h)
  · rw [value_round_true]
    have := le_round_false (n := n) hd (c := neg c) (by simpa using hc)
      (by rw [value_neg]; rw [if_pos rfl] at h; nlinarith)
    rw [value_neg] at this
    omega

/-- A quotient above a representable value rounds to at least that value. -/
theorem le_round {s : Bool} {n d : Nat} (hd : 0 < d) {c : B64} (hc : isNaN c = false)
    (h : value c * d ≤ (if s then -(n : Int) else n)) : value c ≤ value (round s n d) := by
  cases s
  · exact le_round_false hd hc (by simpa using h)
  · rw [value_round_true]
    have := round_false_le (n := n) hd (c := neg c) (by simpa using hc)
      (by rw [value_neg]; rw [if_pos rfl] at h; nlinarith)
    rw [value_neg] at this
    omega

theorem signed_natAbs (v : Int) :
    (if decide (v < 0) = true then -(v.natAbs : Int) else (v.natAbs : Int)) = v := by
  by_cases h : v < 0
  · rw [decide_eq_true h, if_pos rfl]; omega
  · rw [decide_eq_false h, if_neg Bool.false_ne_true]; omega

/-! ### Sum and difference -/

/-- The sum of two finite values, in the form of its definition. -/
theorem addAs_of_finite {op : FloatOp} {a b : B64} (ha : isFinite a = true) (hb : isFinite b = true) :
    addAs op a b =
      if value a + value b = 0 then ofMag (signBit a && signBit b) 0
      else round (decide (value a + value b < 0)) (value a + value b).natAbs 1 := by
  simp [addAs, isNaN_of_isFinite ha, isNaN_of_isFinite hb, isInf_of_isFinite ha, isInf_of_isFinite hb]

theorem isNaN_addAs {op : FloatOp} {a b : B64} (ha : isFinite a = true) (hb : isFinite b = true) :
    isNaN (addAs op a b) = false := by
  rw [addAs_of_finite ha hb]
  split
  · rw [isNaN_false_iff, mag_ofMag (by norm_num)]; exact Nat.zero_le _
  · exact isNaN_round _ _ _

theorem addAs_le {op : FloatOp} {a b c : B64} (ha : isFinite a = true) (hb : isFinite b = true)
    (hc : isNaN c = false) (h : value a + value b ≤ value c) : value (addAs op a b) ≤ value c := by
  rw [addAs_of_finite ha hb]
  split
  · rw [value_ofMag (by norm_num)]; simp; omega
  · exact round_le Nat.one_pos hc (by rw [signed_natAbs]; simpa using h)

theorem le_addAs {op : FloatOp} {a b c : B64} (ha : isFinite a = true) (hb : isFinite b = true)
    (hc : isNaN c = false) (h : value c ≤ value a + value b) : value c ≤ value (addAs op a b) := by
  rw [addAs_of_finite ha hb]
  split
  · rw [value_ofMag (by norm_num)]; simp; omega
  · exact le_round Nat.one_pos hc (by rw [signed_natAbs]; simpa using h)

/-- A finite sum is off by at most 2^-53 of itself. -/
theorem addAs_error {op : FloatOp} {a b : B64} (ha : isFinite a = true) (hb : isFinite b = true)
    (hf : isFinite (addAs op a b) = true) :
    2 ^ 53 * |value (addAs op a b) - (value a + value b)| ≤ |value (addAs op a b)| := by
  rw [addAs_of_finite ha hb] at hf ⊢
  generalize value a + value b = v at hf ⊢
  split at hf
  · rename_i h0
    rw [if_pos h0, h0, value_ofMag (by norm_num)]
    simp
  · rename_i h0
    rw [if_neg h0]
    have hm : roundMag v.natAbs 1 < infMag := by
      rw [isFinite_iff, mag_round] at hf; exact hf
    obtain ⟨h1, h2⟩ := roundMag_error hm
    rw [value_round]
    generalize magValue (roundMag v.natAbs 1) = m at h1 h2
    by_cases hv : v < 0
    · simp only [hv, decide_true, if_true]
      rw [abs_neg, abs_of_nonneg (by positivity : (0 : Int) ≤ (m : Int))]
      have : (v.natAbs : Int) = -v := by omega
      rcases abs_cases (-(m : Int) - v) with ⟨e, _⟩ | ⟨e, _⟩ <;> rw [e] <;> omega
    · simp only [hv, decide_false, Bool.false_eq_true, if_false]
      rw [abs_of_nonneg (by positivity : (0 : Int) ≤ (m : Int))]
      have : (v.natAbs : Int) = v := by omega
      rcases abs_cases ((m : Int) - v) with ⟨e, _⟩ | ⟨e, _⟩ <;> rw [e] <;> omega

theorem isNaN_add {a b : B64} (ha : isFinite a = true) (hb : isFinite b = true) :
    isNaN (add a b) = false := isNaN_addAs ha hb

theorem isNaN_sub {a b : B64} (ha : isFinite a = true) (hb : isFinite b = true) :
    isNaN (sub a b) = false := isNaN_addAs ha (by simpa using hb)

theorem add_le {a b c : B64} (ha : isFinite a = true) (hb : isFinite b = true)
    (hc : isNaN c = false) (h : value a + value b ≤ value c) : value (add a b) ≤ value c :=
  addAs_le ha hb hc h

theorem le_add {a b c : B64} (ha : isFinite a = true) (hb : isFinite b = true)
    (hc : isNaN c = false) (h : value c ≤ value a + value b) : value c ≤ value (add a b) :=
  le_addAs ha hb hc h

theorem sub_le {a b c : B64} (ha : isFinite a = true) (hb : isFinite b = true)
    (hc : isNaN c = false) (h : value a - value b ≤ value c) : value (sub a b) ≤ value c :=
  addAs_le ha (by simpa using hb) hc (by rw [value_neg]; omega)

theorem le_sub {a b c : B64} (ha : isFinite a = true) (hb : isFinite b = true)
    (hc : isNaN c = false) (h : value c ≤ value a - value b) : value c ≤ value (sub a b) :=
  le_addAs ha (by simpa using hb) hc (by rw [value_neg]; omega)

theorem add_error {a b : B64} (ha : isFinite a = true) (hb : isFinite b = true)
    (hf : isFinite (add a b) = true) :
    2 ^ 53 * |value (add a b) - (value a + value b)| ≤ |value (add a b)| := addAs_error ha hb hf

theorem sub_error {a b : B64} (ha : isFinite a = true) (hb : isFinite b = true)
    (hf : isFinite (sub a b) = true) :
    2 ^ 53 * |value (sub a b) - (value a - value b)| ≤ |value (sub a b)| := by
  have := addAs_error (op := .sub) ha (b := neg b) (by simpa using hb) hf
  rw [value_neg, ← Int.sub_eq_add_neg] at this
  exact this

/-- A sum whose exact value is representable is exact. -/
theorem add_exact {a b c : B64} (ha : isFinite a = true) (hb : isFinite b = true)
    (hc : isNaN c = false) (h : value a + value b = value c) : value (add a b) = value c :=
  le_antisymm (add_le ha hb hc h.le) (le_add ha hb hc h.ge)

theorem sub_exact {a b c : B64} (ha : isFinite a = true) (hb : isFinite b = true)
    (hc : isNaN c = false) (h : value a - value b = value c) : value (sub a b) = value c :=
  le_antisymm (sub_le ha hb hc h.le) (le_sub ha hb hc h.ge)

/-! ### Product -/

theorem unitsPerOne_pos : 0 < unitsPerOne := by unfold unitsPerOne; positivity

theorem mul_of_finite {a b : B64} (ha : isFinite a = true) (hb : isFinite b = true) :
    mul a b =
      round (signBit a != signBit b) (magValue (mag a) * magValue (mag b)) unitsPerOne := by
  simp [mul, isNaN_of_isFinite ha, isNaN_of_isFinite hb, isInf_of_isFinite ha, isInf_of_isFinite hb]

theorem signed_mul (a b : B64) :
    (if (signBit a != signBit b) = true then -((magValue (mag a) * magValue (mag b) : Nat) : Int)
     else ((magValue (mag a) * magValue (mag b) : Nat) : Int)) = value a * value b := by
  unfold value
  cases signBit a <;> cases signBit b <;> simp

theorem isNaN_mul {a b : B64} (ha : isFinite a = true) (hb : isFinite b = true) :
    isNaN (mul a b) = false := by
  rw [mul_of_finite ha hb]; exact isNaN_round _ _ _

theorem mul_le {a b c : B64} (ha : isFinite a = true) (hb : isFinite b = true)
    (hc : isNaN c = false) (h : value a * value b ≤ value c * unitsPerOne) :
    value (mul a b) ≤ value c := by
  rw [mul_of_finite ha hb]
  exact round_le unitsPerOne_pos hc (by rw [signed_mul]; exact h)

theorem le_mul {a b c : B64} (ha : isFinite a = true) (hb : isFinite b = true)
    (hc : isNaN c = false) (h : value c * unitsPerOne ≤ value a * value b) :
    value c ≤ value (mul a b) := by
  rw [mul_of_finite ha hb]
  exact le_round unitsPerOne_pos hc (by rw [signed_mul]; exact h)

theorem mul_exact {a b c : B64} (ha : isFinite a = true) (hb : isFinite b = true)
    (hc : isNaN c = false) (h : value a * value b = value c * unitsPerOne) :
    value (mul a b) = value c :=
  le_antisymm (mul_le ha hb hc h.le) (le_mul ha hb hc h.ge)

/-! ### Quotient by a positive value -/

theorem div_of_finite {a b : B64} (ha : isFinite a = true) (hb : isFinite b = true)
    (h0 : 0 < value b) :
    div a b = round (signBit a) (magValue (mag a) * unitsPerOne) (magValue (mag b)) := by
  have hz : isZero b = false := by
    rw [Bool.eq_false_iff, ne_eq, isZero_iff, ← value_eq_zero]; omega
  have hs : signBit b = false := by
    by_contra hs
    rw [Bool.not_eq_false] at hs
    unfold value at h0
    rw [if_pos hs] at h0
    omega
  simp [div, isNaN_of_isFinite ha, isNaN_of_isFinite hb, isInf_of_isFinite ha, isInf_of_isFinite hb,
    hz, hs]

theorem signed_units (a : B64) :
    (if signBit a = true then -((magValue (mag a) * unitsPerOne : Nat) : Int)
     else ((magValue (mag a) * unitsPerOne : Nat) : Int)) = value a * unitsPerOne := by
  unfold value
  cases signBit a <;> simp

theorem isNaN_div {a b : B64} (ha : isFinite a = true) (hb : isFinite b = true)
    (h0 : 0 < value b) : isNaN (div a b) = false := by
  rw [div_of_finite ha hb h0]; exact isNaN_round _ _ _

theorem div_le {a b c : B64} (ha : isFinite a = true) (hb : isFinite b = true) (h0 : 0 < value b)
    (hc : isNaN c = false) (h : value a * unitsPerOne ≤ value c * value b) :
    value (div a b) ≤ value c := by
  rw [div_of_finite ha hb h0]
  rw [value_of_nonneg h0.le] at h h0
  exact round_le (by exact_mod_cast h0) hc (by rw [signed_units]; exact h)

theorem le_div {a b c : B64} (ha : isFinite a = true) (hb : isFinite b = true) (h0 : 0 < value b)
    (hc : isNaN c = false) (h : value c * value b ≤ value a * unitsPerOne) :
    value c ≤ value (div a b) := by
  rw [div_of_finite ha hb h0]
  rw [value_of_nonneg h0.le] at h h0
  exact le_round (by exact_mod_cast h0) hc (by rw [signed_units]; exact h)

/-! ### Literals -/

@[simp] theorem value_zero : value zero = 0 := by decide +kernel
@[simp] theorem value_one : value one = unitsPerOne := by decide +kernel
@[simp] theorem value_two : value two = 2 * unitsPerOne := by decide +kernel
@[simp] theorem isFinite_zero : isFinite zero = true := by decide
@[simp] theorem isFinite_one : isFinite one = true := by decide
@[simp] theorem isFinite_two : isFinite two = true := by decide
@[simp] theorem isNaN_zero : isNaN zero = false := by decide
@[simp] theorem isNaN_one : isNaN one = false := by decide
@[simp] theorem isNaN_two : isNaN two = false := by decide

end Sys2Proof.F64
end

