-- ==== Sys2Proof/Laws/State.lean ====
section
/-! SUPPORT. One lemma per field per update of the state and its parts, and one lemma per shared
operation that says everything it answers. -/

namespace Sys2Proof

/-! ### Per-parameter and per-band records -/

@[simp] theorem ByParam.get_set_self {α : Type} (t : ByParam α) (p : Param) (v : α) :
    (t.set p v).get p = v := by cases p <;> rfl

theorem ByParam.get_set_of_ne {α : Type} (t : ByParam α) {p p' : Param} (v : α) (h : p' ≠ p) :
    (t.set p v).get p' = t.get p' := by cases p <;> cases p' <;> first | rfl | exact absurd rfl h

@[simp] theorem ByParam.set_set {α : Type} (t : ByParam α) (p : Param) (v w : α) :
    (t.set p v).set p w = t.set p w := by cases p <;> rfl

@[simp] theorem ByParam.set_get {α : Type} (t : ByParam α) (p : Param) : t.set p (t.get p) = t := by
  cases p <;> rfl

theorem ByParam.set_comm {α : Type} (t : ByParam α) {p p' : Param} (v w : α) (h : p ≠ p') :
    (t.set p v).set p' w = (t.set p' w).set p v := by
  cases p <;> cases p' <;> first | rfl | exact absurd rfl h

@[simp] theorem Bands.get_set_self {α : Type} (t : Bands α) (b : Band) (v : α) :
    (t.set b v).get b = v := by cases b <;> rfl

theorem Bands.get_set_of_ne {α : Type} (t : Bands α) {b b' : Band} (v : α) (h : b' ≠ b) :
    (t.set b v).get b' = t.get b' := by cases b <;> cases b' <;> first | rfl | exact absurd rfl h

@[simp] theorem Bands.set_set {α : Type} (t : Bands α) (b : Band) (v w : α) :
    (t.set b v).set b w = t.set b w := by cases b <;> rfl

@[simp] theorem Bands.set_get {α : Type} (t : Bands α) (b : Band) : t.set b (t.get b) = t := by
  cases b <;> rfl

theorem Bands.set_comm {α : Type} (t : Bands α) {b b' : Band} (v w : α) (h : b ≠ b') :
    (t.set b v).set b' w = (t.set b' w).set b v := by
  cases b <;> cases b' <;> first | rfl | exact absurd rfl h

@[simp] theorem Bands.get_ofFn {α : Type} (f : Band → α) (b : Band) : (Bands.ofFn f).get b = f b := by
  cases b <;> rfl

theorem Bands.ext_get {α : Type} {t t' : Bands α} (h : ∀ b, t.get b = t'.get b) : t = t' := by
  cases t; cases t'
  simp only [Bands.mk.injEq]
  exact ⟨h .lowshelf, h .peak1, h .peak2, h .peak3, h .highshelf⟩

theorem ByParam.ext_get {α : Type} {t t' : ByParam α} (h : ∀ p, t.get p = t'.get p) : t = t' := by
  cases t; cases t'
  simp only [ByParam.mk.injEq]
  exact ⟨h .freq, h .q, h .boost, h .bypass⟩

@[simp] theorem Band.ofIndex_index (b : Band) : Band.ofIndex b.index = b := by cases b <;> rfl
@[simp] theorem Param.ofIndex_index (p : Param) : Param.ofIndex p.index = p := by cases p <;> rfl
theorem Band.index_lt (b : Band) : b.index < 5 := by cases b <;> decide
theorem Param.index_lt (p : Param) : p.index < 4 := by cases p <;> decide

namespace Machine

/-! ### Register addresses -/

/-- The target of parameter p, band b, stands at address 5p + b (R40). -/
@[simp] theorem regAt_target (p : Param) (b : Band) :
    regAt (5 * p.index + b.index) = .target p b := by cases p <;> cases b <;> rfl

/-- Its current stands 0x20 above (R40). -/
@[simp] theorem regAt_current (p : Param) (b : Band) :
    regAt (0x20 + (5 * p.index + b.index)) = .current p b := by cases p <;> cases b <;> rfl

/-! ### Operands are the words themselves -/

@[simp] theorem sampleOf_eq (d : DataWord) : sampleOf d = d := rfl
@[simp] theorem wordOf_eq (v : B64) : wordOf v = v := rfl

/-! ### The one-field updates -/

section writeTarget
variable (s : State) (p : Param) (b : Band) (v : B64)

@[simp] theorem writeTarget_cfg : (writeTarget s p b v).cfg = s.cfg := rfl
@[simp] theorem writeTarget_mulr : (writeTarget s p b v).mulr = s.mulr := rfl
@[simp] theorem writeTarget_pos : (writeTarget s p b v).pos = s.pos := rfl
@[simp] theorem writeTarget_status : (writeTarget s p b v).status = s.status := rfl
@[simp] theorem writeTarget_port : (writeTarget s p b v).port = s.port := rfl
@[simp] theorem writeTarget_resp : (writeTarget s p b v).resp = s.resp := rfl
@[simp] theorem writeTarget_bands_self :
    (writeTarget s p b v).bands.get b =
      { s.bands.get b with tgt := (s.bands.get b).tgt.set p v } := by simp [writeTarget]
theorem writeTarget_bands_of_ne {b' : Band} (h : b' ≠ b) :
    (writeTarget s p b v).bands.get b' = s.bands.get b' := by
  simp [writeTarget, Bands.get_set_of_ne _ _ h]
end writeTarget

section takeEvent
variable (s : State) (rest : List HostEvent)

@[simp] theorem takeEvent_cfg : (takeEvent s rest).cfg = s.cfg := rfl
@[simp] theorem takeEvent_bands : (takeEvent s rest).bands = s.bands := rfl
@[simp] theorem takeEvent_mulr : (takeEvent s rest).mulr = s.mulr := rfl
@[simp] theorem takeEvent_pos : (takeEvent s rest).pos = s.pos := rfl
@[simp] theorem takeEvent_status : (takeEvent s rest).status = s.status := rfl
@[simp] theorem takeEvent_port : (takeEvent s rest).port = rest := rfl
@[simp] theorem takeEvent_resp : (takeEvent s rest).resp = s.resp := rfl
end takeEvent

section afterSample
variable (s : State) (x : B64)

@[simp] theorem afterSample_cfg : (afterSample s x).cfg = s.cfg := rfl
@[simp] theorem afterSample_mulr : (afterSample s x).mulr = s.mulr := rfl
@[simp] theorem afterSample_pos : (afterSample s x).pos = nextPos s.cfg s.pos := rfl
@[simp] theorem afterSample_status :
    (afterSample s x).status = s.status.recordGuard (chainFired s x) := rfl
@[simp] theorem afterSample_port : (afterSample s x).port = s.port := rfl
@[simp] theorem afterSample_bands (b : Band) :
    (afterSample s x).bands.get b =
      bandRegs s.cfg s.pos b (cascadeAt s.cfg s.pos s.bands (inGuard x).out b.index)
        (s.bands.get b) := by simp [afterSample, cascadeRegs]
end afterSample

@[simp] theorem recordReject_err (st : Status) (c : Code) : (st.recordReject c).err = true := rfl
@[simp] theorem recordReject_nanf (st : Status) (c : Code) : (st.recordReject c).nanf = st.nanf := rfl
@[simp] theorem recordReject_lastErr (st : Status) (c : Code) :
    (st.recordReject c).lastErr = c.bits := rfl
@[simp] theorem recordGuard_err (st : Status) (g : Bool) : (st.recordGuard g).err = st.err := rfl
@[simp] theorem recordGuard_nanf (st : Status) (g : Bool) :
    (st.recordGuard g).nanf = (st.nanf || g) := rfl
@[simp] theorem recordGuard_lastErr (st : Status) (g : Bool) :
    (st.recordGuard g).lastErr = st.lastErr := rfl
@[simp] theorem write_err (st : Status) (d : DataWord) :
    (st.write d).err = (st.err && !d.getLsbD 0) := rfl
@[simp] theorem write_nanf (st : Status) (d : DataWord) :
    (st.write d).nanf = (st.nanf && !d.getLsbD 1) := rfl
@[simp] theorem write_lastErr (st : Status) (d : DataWord) :
    (st.write d).lastErr = if d.getLsbD 0 then 0#4 else st.lastErr := rfl

@[simp] theorem bandRegs_tgt (cfg : Config) (pos : Nat) (b : Band) (u : B64) (r : BandRegs) :
    (bandRegs cfg pos b u r).tgt = r.tgt := by
  rw [bandRegs]
@[simp] theorem bandRegs_cur (cfg : Config) (pos : Nat) (b : Band) (u : B64) (r : BandRegs) :
    (bandRegs cfg pos b u r).cur = tickAll cfg r.cur r.tgt := by
  rw [bandRegs]
@[simp] theorem bandRegs_delay (cfg : Config) (pos : Nat) (b : Band) (u : B64) (r : BandRegs) :
    (bandRegs cfg pos b u r).delay = nextDelay r.delay u (bandWet cfg pos b u r) := by
  rw [bandRegs]
@[simp] theorem bandRegs_coefs (cfg : Config) (pos : Nat) (b : Band) (u : B64) (r : BandRegs) :
    (bandRegs cfg pos b u r).coefs =
      updatedCoefs cfg pos b.filterType (tickAll cfg r.cur r.tgt) r.coefs := by
  rw [bandRegs]

@[simp] theorem tickAll_get (cfg : Config) (cur tgt : ByParam B64) (p : Param) :
    (tickAll cfg cur tgt).get p = tick cfg p (cur.get p) (tgt.get p) := by cases p <;> rfl

@[simp] theorem clearDelay_tgt (r : BandRegs) : (clearDelay r).tgt = r.tgt := rfl
@[simp] theorem clearDelay_cur (r : BandRegs) : (clearDelay r).cur = r.cur := rfl
@[simp] theorem clearDelay_coefs (r : BandRegs) : (clearDelay r).coefs = r.coefs := rfl
@[simp] theorem clearDelay_delay (r : BandRegs) : (clearDelay r).delay = clearedDelay := rfl

/-! ### What each operation answers -/

/-- A rejection always completes; STATUS and the response are all it changes (R233). -/
theorem reject_eq (c : Code) (s : State) :
    reject c s =
      .next { s with status := s.status.recordReject c, resp := some (rejection c) } := rfl

theorem respondOk_eq (v : DataWord) (o : Option SampleOut) (s : State) :
    respondOk v o s = .next { s with resp := some ⟨Code.ok.bits, v, o⟩ } := rfl

theorem reject_next {c : Code} {s t : State} (h : reject c s = .next t) :
    t = { s with status := s.status.recordReject c, resp := some (rejection c) } := by
  rw [reject_eq] at h; exact (Host.Outcome.next.inj h).symm

theorem respondOk_next {v : DataWord} {o : Option SampleOut} {s t : State}
    (h : respondOk v o s = .next t) : t = { s with resp := some ⟨Code.ok.bits, v, o⟩ } := by
  rw [respondOk_eq] at h; exact (Host.Outcome.next.inj h).symm

/-- Everything WR can do: a rejection, or an accepted write of STATUS, MUL or one target (R212). -/
theorem execWr_cases (a : Nat) (d : DataWord) (s : State) :
    (∃ c, c ≠ Code.ok ∧ execWr a d s = reject c s) ∨
    (regAt a = .status ∧
      execWr a d s = respondOk 0#64 none { s with status := s.status.write d }) ∨
    (regAt a = .mul ∧ F64.isFinite d = true ∧ F64.lt d F64.zero = false ∧
      execWr a d s = respondOk 0#64 none { s with mulr := d }) ∨
    (∃ p b, regAt a = .target p b ∧ F64.isFinite d = true ∧
      execWr a d s = respondOk 0#64 none (writeTarget s p b (clampParam s.cfg p d))) := by
  unfold execWr
  split <;> rename_i h
  · exact .inl ⟨.errAddr, by decide, rfl⟩
  · exact .inl ⟨.errRo, by decide, rfl⟩
  · exact .inl ⟨.errRo, by decide, rfl⟩
  · exact .inl ⟨.errRo, by decide, rfl⟩
  · exact .inl ⟨.errRo, by decide, rfl⟩
  · exact .inl ⟨.errRo, by decide, rfl⟩
  · exact .inl ⟨.errRo, by decide, rfl⟩
  · exact .inr (.inl ⟨h, rfl⟩)
  · unfold writeMul sampleOf
    by_cases hf : F64.isFinite d = true <;> by_cases hl : F64.lt d F64.zero = true
    · exact .inl ⟨.errValue, by decide, by simp [hf, hl]⟩
    · exact .inr (.inr (.inl ⟨h, hf, by simpa using hl, by simp [hf, hl]⟩))
    · exact .inl ⟨.errValue, by decide, by simp [hf]⟩
    · exact .inl ⟨.errValue, by decide, by simp [hf]⟩
  · rename_i p b
    unfold writeParam sampleOf
    by_cases hf : F64.isFinite d = true
    · exact .inr (.inr (.inr ⟨p, b, h, hf, by simp [hf]⟩))
    · exact .inl ⟨.errValue, by decide, by simp [hf]⟩

/-- Everything RD can do: a rejection of a reserved address, or the register's value (R215). -/
theorem execRd_cases (a : Nat) (s : State) :
    (regAt a = .reserved ∧ execRd a s = reject .errAddr s) ∨
    (regAt a ≠ .reserved ∧ execRd a s = respondOk (readReg s (regAt a)) none s) := by
  unfold execRd
  cases h : regAt a <;> simp [Reg.access]

/-- Every instruction completes (R82): `exec` always answers a next state. -/
theorem exec_completes (i : Instr) (s : State) : ∃ t, exec i s = .next t := by
  cases i with
  | wr a d =>
    rcases execWr_cases a d s with ⟨c, -, h⟩ | ⟨-, h⟩ | ⟨-, -, -, h⟩ | ⟨p, b, -, -, h⟩ <;>
      exact ⟨_, h⟩
  | rd a => rcases execRd_cases a s with ⟨-, h⟩ | ⟨-, h⟩ <;> exact ⟨_, h⟩
  | smp d => exact ⟨_, rfl⟩
  | srst => exact ⟨_, rfl⟩

/-- Everything a step can do. -/
theorem step_cases (s : State) :
    (s.port = [] ∧ step s = .next s) ∨
    (∃ g cw d rest i, s.port = .command g cw d :: rest ∧ decode cw d = .ok i ∧
      step s = exec i (takeEvent s rest)) ∨
    (∃ g cw d rest e, s.port = .command g cw d :: rest ∧ decode cw d = .error e ∧
      step s = reject .errOpcode (takeEvent s rest)) ∨
    (∃ cfg rest, s.port = .powerOn cfg :: rest ∧ cfg.legal = true ∧
      step s = .next { State.powerOn cfg with port := rest }) ∨
    (∃ cfg rest, s.port = .powerOn cfg :: rest ∧ cfg.legal = false ∧
      step s = .refused .illegalConfiguration) := by
  unfold step stepCore
  split
  · exact .inl ⟨by assumption, rfl⟩
  · rename_i e rest hp
    cases e with
    | command g cw d =>
      unfold perform performCommand
      cases hd : decode cw d with
      | ok i => exact .inr (.inl ⟨g, cw, d, rest, i, hp, hd, by simp [hd]⟩)
      | error e => exact .inr (.inr (.inl ⟨g, cw, d, rest, e, hp, hd, by simp [hd]⟩))
    | powerOn cfg =>
      unfold perform performPowerOn
      cases hl : cfg.legal
      · exact .inr (.inr (.inr (.inr ⟨cfg, rest, hp, hl, by simp [hl]⟩)))
      · exact .inr (.inr (.inr (.inl ⟨cfg, rest, hp, hl, by simp [hl]⟩)))

end Machine

end Sys2Proof
end

