-- ==== Sys2Proof/Laws/Constants.lean ====
section
/-! SUPPORT. What a legal configuration gives: each constant finite and in its range, and a frequency
range that is not empty; and where each configured value comes from. -/

namespace Sys2Proof

/-! What a configuration gives is used as given; the rest comes from the formulas and the platform. -/

@[simp] theorem MathFn.value_platform {α : Type} [DecidableEq α] (n : Nat) (g : Nat → α → B64) (x : α) :
    (MathFn.mk n []).value g x = g n x := rfl

theorem MathFn.value_of_given {α : Type} [DecidableEq α] {f : MathFn α} {g : Nat → α → B64} {x : α}
    {y : B64} (h : f.given.lookup x = some y) : f.value g x = y := by simp [MathFn.value, h]

theorem Config.maxStepOf_of_some {c : Config} {p : Param} {v : B64} (h : c.maxStep.get p = some v) :
    c.maxStepOf p = v := by simp [Config.maxStepOf, h]

theorem Config.maxStepOf_of_none {c : Config} {p : Param} (h : c.maxStep.get p = none) :
    c.maxStepOf p = F64.div (c.span p) c.smoothSamples := by simp [Config.maxStepOf, h]

theorem Config.expKOf_of_some {c : Config} {p : Param} {v : B64} (h : c.expK.get p = some v) :
    c.expKOf p = v := by simp [Config.expKOf, h]

theorem Config.expKOf_of_none {c : Config} {p : Param} (h : c.expK.get p = none) :
    c.expKOf p = F64.sub F64.one (c.exp (F64.div (F64.neg F64.one) c.smoothSamples)) := by
  simp [Config.expKOf, h]

theorem Config.snapOf_of_some {c : Config} {p : Param} {v : B64} (h : c.snap.get p = some v) :
    c.snapOf p = v := by simp [Config.snapOf, h]

theorem Config.snapOf_of_none {c : Config} {p : Param} (h : c.snap.get p = none) :
    c.snapOf p = F64.mul (c.span p) F64.twoPowNeg20 := by simp [Config.snapOf, h]

namespace F64

/-- A normal magnitude doubles by one step of the exponent field. -/
theorem magValue_double {p : Nat} (h : 2 ^ 52 ≤ p) : magValue (p + 2 ^ 52) = 2 * magValue p := by
  obtain ⟨k, r, rfl, hk, hr⟩ := exists_pattern p
  have h52 : 2 ^ 52 ≤ r := by omega
  rw [magValue_pattern hk hr.le, show k * 2 ^ 52 + r + 2 ^ 52 = (k + 1) * 2 ^ 52 + r by ring,
    magValue_pattern (.inr h52) hr.le]
  ring

/-- A subnormal magnitude counts its units. -/
theorem magValue_small {p : Nat} (h : p ≤ 2 ^ 52) : magValue p = p := by
  have := magValue_pattern (k := 0) (r := p) (.inl rfl) (by omega)
  simpa using this

theorem value_ofMag_false {p : Nat} (h : p ≤ infMag) : value (ofMag false p) = magValue p := by
  rw [value_ofMag (h.trans_lt infMag_lt)]; simp

theorem isNaN_ofMag_false {p : Nat} (h : p ≤ infMag) : isNaN (ofMag false p) = false := by
  rw [isNaN_false_iff, mag_ofMag (h.trans_lt infMag_lt)]; exact h

/-- Twice an infinite value is infinite. -/
theorem value_mul_two_inf {y : B64} (hy : mag y = infMag) :
    |value (mul two y)| = (magValue infMag : Int) := by
  have h1 : isNaN y = false := isNaN_false_iff.2 hy.le
  have h2 : isInf y = true := isInf_iff.2 hy
  have h3 : isZero y = false := by
    rw [Bool.eq_false_iff, ne_eq, isZero_iff, hy]; decide
  have h4 : isZero two = false := by decide
  unfold mul
  simp only [h1, h2, h3, h4, isNaN_two, Bool.or_self, Bool.or_true, Bool.false_eq_true, if_true,
    if_false]
  rw [abs_value, mag_ofMag infMag_lt]

/-- The step of R6 and R7: if twice the rounded sum of `a` and `b` lies below `f`, then half of `f`
reaches their exact sum. -/
theorem add_le_half {a b f : B64} (ha : isFinite a = true) (hb : isFinite b = true)
    (hf : isFinite f = true) (ha0 : 0 ≤ value a) (hb0 : 0 ≤ value b)
    (h : lt (mul two (add a b)) f = true) : value a + value b ≤ value (div f two) := by
  have hU := unitsPerOne_pos
  have hy := isNaN_add ha hb
  have hyf : isFinite (add a b) = true := by
    by_contra hn
    have hinf : mag (add a b) = infMag := by
      have := isNaN_false_iff.1 hy
      rw [isFinite_iff] at hn
      omega
    have h1 := value_mul_two_inf hinf
    have h2 := (lt_spec h).2.2
    have h3 := abs_lt.1 (abs_value_lt hf)
    have h4 : 0 ≤ value (mul two (add a b)) := by
      have h5 : 0 ≤ value (add a b) := by
        have := le_add (c := zero) ha hb isNaN_zero (by rw [value_zero]; omega)
        rwa [value_zero] at this
      have hs : signBit (add a b) = false := by
        by_contra hs
        rw [Bool.not_eq_false] at hs
        have : 0 < magValue (mag (add a b)) := by rw [hinf]; decide +kernel
        unfold value at h5
        rw [if_pos hs] at h5
        omega
      have h6 : mul two (add a b) = ofMag false infMag := by
        have h1 : isInf (add a b) = true := isInf_iff.2 hinf
        have h3 : isZero (add a b) = false := by
          rw [Bool.eq_false_iff, ne_eq, isZero_iff, hinf]; decide
        have h4 : isZero two = false := by decide
        have h7 : signBit two = false := by decide
        unfold mul
        simp [h1, h3, h4, hy, hs, h7]
      rw [h6, value_ofMag infMag_lt]; simp
    rw [abs_of_nonneg h4] at h1
    omega
  have hV : 2 * value (add a b) < value f := by
    by_contra hle
    have := le_mul (c := f) isFinite_two hyf (isNaN_of_isFinite hf)
      (by rw [value_two]; nlinarith)
    have := (lt_spec h).2.2
    omega
  have hq : 0 < value two := by rw [value_two]; omega
  have hyh : value (add a b) ≤ value (div f two) :=
    le_div hf isFinite_two hq hy (by rw [value_two]; nlinarith)
  by_cases hS : value a + value b ≤ value (add a b)
  · exact hS.trans hyh
  · have hy0 : 0 ≤ value (add a b) := by
      have := le_add (c := zero) ha hb isNaN_zero (by rw [value_zero]; omega)
      rwa [value_zero] at this
    have hp := isFinite_iff.1 hyf
    have hyv := value_of_nonneg hy0
    set p := mag (add a b) with hpdef
    have hp : p + 1 ≤ infMag := hp
    have hup : value a + value b < magValue (p + 1) := by
      by_contra hge
      have := le_add (c := ofMag false (p + 1)) ha hb (isNaN_ofMag_false hp)
        (by rw [value_ofMag_false hp]; omega)
      rw [value_ofMag_false hp, hyv] at this
      have := magValue_lt_succ p
      omega
    by_cases hsub : p < 2 ^ 52
    · rw [magValue_small (by omega : p + 1 ≤ 2 ^ 52)] at hup
      rw [magValue_small hsub.le] at hyv
      omega
    · have hfv : value f = magValue (mag f) := value_of_nonneg (by omega)
      have h2 : magValue (p + 2 ^ 52) < magValue (mag f) := by
        rw [magValue_double (by omega)]
        omega
      have h3 : p + 1 + 2 ^ 52 ≤ mag f := by
        have := magValue_lt.1 h2
        omega
      have h4 := magValue_le.2 h3
      rw [magValue_double (by omega)] at h4
      have h5 := le_div (c := ofMag false (p + 1)) hf isFinite_two hq (isNaN_ofMag_false hp)
        (by rw [value_ofMag_false hp, value_two, hfv]; nlinarith)
      rw [value_ofMag_false hp] at h5
      omega

/-- Half of a finite value that is not negative lies between zero and it. -/
theorem half_bounds {f : B64} (hf : isFinite f = true) (h0 : 0 ≤ value f) :
    isFinite (div f two) = true ∧ 0 ≤ value (div f two) ∧ value (div f two) ≤ value f := by
  have hU := unitsPerOne_pos
  have hq : 0 < value two := by rw [value_two]; omega
  have h1 := le_div (c := zero) hf isFinite_two hq isNaN_zero (by rw [value_zero]; nlinarith)
  have h2 := div_le (c := f) hf isFinite_two hq (isNaN_of_isFinite hf)
    (by rw [value_two]; nlinarith)
  rw [value_zero] at h1
  exact ⟨isFinite_of_between isFinite_zero hf (by rwa [value_zero]) h2, h1, h2⟩

end F64

namespace Config

/-- A positive constant. -/
theorem positive_spec {v : B64} (h : positive v = true) :
    F64.isFinite v = true ∧ 0 < F64.value v := by
  simp only [positive, Bool.and_eq_true] at h
  have := (F64.lt_spec h.2).2.2
  rw [F64.value_zero] at this
  exact ⟨h.1, this⟩

/-- The clauses of R6 but the one on `EXP_K[p]`, one by one. -/
theorem legalButExpK_iff (c : Config) : c.legalButExpK = true ↔
    F64.isFinite c.fs = true ∧
    F64.lt (F64.mul F64.two (F64.add c.freqMin c.freqEps)) c.fs = true ∧
    (1 ≤ c.blockSize ∧ c.blockSize ≤ 2 ^ 32 - 1) ∧
    positive c.freqMin = true ∧
    (F64.isFinite c.freqEps = true ∧ F64.le F64.zero c.freqEps = true) ∧
    positive c.qMin = true ∧ positive c.tSmooth = true ∧
    (∀ p, c.legalStep p = true) ∧
    (F64.le F64.zero c.pan = true ∧ F64.le c.pan F64.one = true) ∧
    (∀ b, F64.isFinite (c.freqDefault.get b) = true) := by
  have hp : (∀ p, c.legalStep p = true) ↔
      c.legalStep .freq = true ∧ c.legalStep .q = true ∧ c.legalStep .boost = true ∧
        c.legalStep .bypass = true :=
    ⟨fun h => ⟨h _, h _, h _, h _⟩, fun h p => by cases p <;> simp [h]⟩
  have hb : (∀ b, F64.isFinite (c.freqDefault.get b) = true) ↔
      F64.isFinite c.freqDefault.lowshelf = true ∧ F64.isFinite c.freqDefault.peak1 = true ∧
        F64.isFinite c.freqDefault.peak2 = true ∧ F64.isFinite c.freqDefault.peak3 = true ∧
          F64.isFinite c.freqDefault.highshelf = true :=
    ⟨fun h => ⟨h .lowshelf, h .peak1, h .peak2, h .peak3, h .highshelf⟩,
      fun h b => by cases b <;> simp [Bands.get, h]⟩
  rw [hp, hb]
  simp only [legalButExpK, Bool.and_eq_true, decide_eq_true_eq, and_assoc]

theorem legal_iff (c : Config) :
    c.legal = true ↔ c.legalButExpK = true ∧ ∀ p, c.legalExpK p = true := by
  have hp : (∀ p, c.legalExpK p = true) ↔
      c.legalExpK .freq = true ∧ c.legalExpK .q = true ∧ c.legalExpK .boost = true ∧
        c.legalExpK .bypass = true :=
    ⟨fun h => ⟨h _, h _, h _, h _⟩, fun h p => by cases p <;> simp [h]⟩
  rw [hp]
  simp only [legal, Bool.and_eq_true, and_assoc]

/-- A step constant of a legal configuration: finite, positive, and no smaller than the snap. -/
theorem legalStep_spec {c : Config} {p : Param} (h : c.legalStep p = true) :
    F64.isFinite (c.maxStepOf p) = true ∧ 0 < F64.value (c.maxStepOf p) ∧
    F64.isNaN (c.snapOf p) = false ∧ 0 ≤ F64.value (c.snapOf p) ∧
    F64.value (c.snapOf p) ≤ F64.value (c.maxStepOf p) := by
  simp only [legalStep, Bool.and_eq_true, and_assoc] at h
  obtain ⟨hm, hs, hsm⟩ := h
  obtain ⟨hm1, hm2⟩ := positive_spec hm
  obtain ⟨-, hn, hs0⟩ := F64.le_spec hs
  rw [F64.value_zero] at hs0
  exact ⟨hm1, hm2, hn, hs0, (F64.le_spec hsm).2.2⟩

/-- `EXP_K[p]` of a legal configuration: finite and positive. -/
theorem legalExpK_spec {c : Config} {p : Param} (h : c.legalExpK p = true) :
    F64.isFinite (c.expKOf p) = true ∧ 0 < F64.value (c.expKOf p) := by
  simp only [legalExpK, Bool.and_eq_true] at h
  obtain ⟨-, -, h0⟩ := F64.lt_spec h.1
  obtain ⟨-, -, h1⟩ := F64.le_spec h.2
  rw [F64.value_zero] at h0
  exact ⟨F64.isFinite_of_between F64.isFinite_zero F64.isFinite_one (by rw [F64.value_zero]; omega) h1,
    h0⟩

/-- The frequency range is finite and not empty (R6, R7). -/
theorem freqRange {c : Config} (h : c.legalButExpK = true) :
    F64.isFinite c.freqMin = true ∧ F64.isFinite c.freqMax = true ∧ 0 < F64.value c.freqMin ∧
    F64.value c.freqMin ≤ F64.value c.freqMax := by
  obtain ⟨hfs, hlt, -, hmin, ⟨heps, heps0⟩, -⟩ := (legalButExpK_iff c).1 h
  obtain ⟨hmin1, hmin2⟩ := positive_spec hmin
  have heps2 := (F64.le_spec heps0).2.2
  rw [F64.value_zero] at heps2
  have hhalf := F64.add_le_half hmin1 heps hfs hmin2.le heps2 hlt
  have hfs0 : 0 ≤ F64.value c.fs := by
    by_contra hneg
    have hU := F64.unitsPerOne_pos
    have hq : 0 < F64.value F64.two := by rw [F64.value_two]; omega
    have := F64.div_le (c := F64.zero) hfs F64.isFinite_two hq F64.isNaN_zero
      (by rw [F64.value_zero]; nlinarith)
    rw [F64.value_zero] at this
    omega
  obtain ⟨hh, hh0, hh1⟩ := F64.half_bounds hfs hfs0
  have h1 : F64.value c.freqMin ≤ F64.value c.freqMax :=
    F64.le_sub hh heps (F64.isNaN_of_isFinite hmin1) (by omega)
  have h2 : F64.value c.freqMax ≤ F64.value c.fs :=
    F64.sub_le hh heps (F64.isNaN_of_isFinite hfs) (by omega)
  exact ⟨hmin1, F64.isFinite_of_between hmin1 hfs h1 h2, hmin2, h1⟩

end Config

namespace Machine

theorem UsableConfig.maxStep {c : Config} (h : UsableConfig c) (p : Param) :
    F64.isFinite (c.maxStepOf p) = true ∧ 0 < F64.value (c.maxStepOf p) ∧
    F64.isNaN (c.snapOf p) = false ∧ 0 ≤ F64.value (c.snapOf p) ∧
    F64.value (c.snapOf p) ≤ F64.value (c.maxStepOf p) :=
  Config.legalStep_spec (((Config.legalButExpK_iff c).1 h.1).2.2.2.2.2.2.2.1 p)

theorem UsableConfig.expK {c : Config} (h : UsableConfig c) {p : Param}
    (hp : c.mode.get p = .exponential) :
    F64.isFinite (c.expKOf p) = true ∧ 0 < F64.value (c.expKOf p) :=
  Config.legalExpK_spec (h.2 p hp)

theorem UsableConfig.of_legal {c : Config} (h : c.legal = true) : UsableConfig c :=
  ⟨((Config.legal_iff c).1 h).1, fun p _ => ((Config.legal_iff c).1 h).2 p⟩

theorem UsableConfig.qMin {c : Config} (h : UsableConfig c) :
    F64.isFinite c.qMin = true ∧ 0 < F64.value c.qMin :=
  Config.positive_spec ((Config.legalButExpK_iff c).1 h.1).2.2.2.2.2.1

theorem UsableConfig.pan {c : Config} (h : UsableConfig c) :
    F64.isFinite c.pan = true ∧ 0 ≤ F64.value c.pan ∧ F64.value c.pan ≤ F64.value F64.one := by
  obtain ⟨h0, h1⟩ := ((Config.legalButExpK_iff c).1 h.1).2.2.2.2.2.2.2.2.1
  have a := (F64.le_spec h0).2.2
  rw [F64.value_zero] at a
  exact ⟨F64.isFinite_of_le_le F64.isFinite_zero F64.isFinite_one h0 h1, a, (F64.le_spec h1).2.2⟩

theorem UsableConfig.blockSize {c : Config} (h : UsableConfig c) : 1 ≤ c.blockSize :=
  ((Config.legalButExpK_iff c).1 h.1).2.2.1.1

/-- `ClampFreq` of a finite value lies in the frequency range (R213). -/
theorem clampFreq_ok {c : Config} (h : c.legalButExpK = true) {v : B64}
    (hv : F64.isFinite v = true) : ParamOk c .freq (c.clampFreq v) := by
  obtain ⟨hmin, hmax, -, hle⟩ := Config.freqRange h
  have nmin := F64.isNaN_of_isFinite hmin
  have nmax := F64.isNaN_of_isFinite hmax
  have nv := F64.isNaN_of_isFinite hv
  unfold Config.clampFreq
  split
  · exact ⟨hmin, F64.le_of_value_le nmin nmin le_rfl, F64.le_of_value_le nmin nmax hle⟩
  · rename_i h1
    split
    · exact ⟨hmax, F64.le_of_value_le nmin nmax hle, F64.le_of_value_le nmax nmax le_rfl⟩
    · rename_i h2
      rw [F64.lt_iff nv nmin] at h1
      rw [F64.lt_iff nmax nv] at h2
      exact ⟨hv, F64.le_of_value_le nmin nv (by omega), F64.le_of_value_le nv nmax (by omega)⟩

/-- `ClampQ` of a finite value is at least the floor (R213). -/
theorem clampQ_ok {c : Config} (h : UsableConfig c) {v : B64} (hv : F64.isFinite v = true) :
    ParamOk c .q (c.clampQ v) := by
  have nq := F64.isNaN_of_isFinite h.qMin.1
  have nv := F64.isNaN_of_isFinite hv
  unfold Config.clampQ
  split
  · exact ⟨h.qMin.1, F64.le_of_value_le nq nq le_rfl⟩
  · rename_i h1
    rw [F64.lt_iff nv nq] at h1
    exact ⟨hv, F64.le_of_value_le nq nv (by omega)⟩

/-- `ClampBypass` of a finite value lies in [0, 1] (R213). -/
theorem clampBypass_ok (c : Config) {v : B64} (hv : F64.isFinite v = true) :
    ParamOk c .bypass (Config.clampBypass v) := by
  have nv := F64.isNaN_of_isFinite hv
  have h01 : F64.value F64.zero ≤ F64.value F64.one := by
    rw [F64.value_zero, F64.value_one]; omega
  unfold Config.clampBypass
  split
  · exact ⟨F64.isFinite_zero, F64.le_of_value_le F64.isNaN_zero F64.isNaN_zero le_rfl,
      F64.le_of_value_le F64.isNaN_zero F64.isNaN_one h01⟩
  · rename_i h1
    split
    · exact ⟨F64.isFinite_one, F64.le_of_value_le F64.isNaN_zero F64.isNaN_one h01,
        F64.le_of_value_le F64.isNaN_one F64.isNaN_one le_rfl⟩
    · rename_i h2
      rw [F64.lt_iff nv F64.isNaN_zero] at h1
      rw [F64.lt_iff F64.isNaN_one nv] at h2
      exact ⟨hv, F64.le_of_value_le F64.isNaN_zero nv (by omega),
        F64.le_of_value_le nv F64.isNaN_one (by omega)⟩

/-- What WR stores in a target meets R38. -/
theorem clampParam_ok {c : Config} (h : UsableConfig c) (p : Param) {v : B64}
    (hv : F64.isFinite v = true) : ParamOk c p (clampParam c p v) := by
  cases p
  · exact clampFreq_ok h.1 hv
  · exact clampQ_ok h hv
  · exact ⟨hv, trivial⟩
  · exact clampBypass_ok c hv

end Machine

end Sys2Proof
end

