-- ==== Sys2Proof/Laws/Smoother.lean ====
section
/-! SUPPORT. What a smoother tick does to the current (spec/41_parameter_smoother.md R151, R152): it
stays between the old current and the target, it moves by at most the step bound, and it lands. -/

namespace Sys2Proof

namespace F64

/-- The distance of two finite values, as the smoother computes it, has the sign of the exact one and
is zero only where they are equal. -/
theorem sub_sign {a b : B64} (ha : isFinite a = true) (hb : isFinite b = true) :
    (value (sub a b) ≤ 0 → value a ≤ value b) ∧ (0 ≤ value (sub a b) → value b ≤ value a) := by
  have h1 : value (ofMag false 1) = 1 := by
    rw [value_ofMag_false (by decide), magValue_small (by decide)]; rfl
  have n1 : isNaN (ofMag false 1) = false := isNaN_ofMag_false (by decide)
  constructor
  · intro h
    by_contra hlt
    have := le_sub (c := ofMag false 1) ha hb n1 (by rw [h1]; omega)
    rw [h1] at this
    omega
  · intro h
    by_contra hlt
    have := sub_le (c := neg (ofMag false 1)) ha hb (by simpa using n1) (by rw [value_neg, h1]; omega)
    rw [value_neg, h1] at this
    omega

/-- A product with a positive finite factor keeps the sign and is not a NaN, also for an infinite
first factor. -/
theorem mul_pos_sign {d k : B64} (hd : isNaN d = false) (hk : isFinite k = true) (h0 : 0 < value k) :
    isNaN (mul d k) = false ∧ (0 ≤ value d → 0 ≤ value (mul d k)) ∧
    (value d ≤ 0 → value (mul d k) ≤ 0) := by
  by_cases hf : isFinite d = true
  · refine ⟨isNaN_mul hf hk, fun h => ?_, fun h => ?_⟩
    · have := le_mul (c := zero) hf hk isNaN_zero (by rw [value_zero]; nlinarith)
      rwa [value_zero] at this
    · have := mul_le (c := zero) hf hk isNaN_zero (by rw [value_zero]; nlinarith)
      rwa [value_zero] at this
  · have hi : mag d = infMag := by
      have := isNaN_false_iff.1 hd
      rw [isFinite_iff] at hf
      omega
    have hz : isZero k = false := by
      rw [Bool.eq_false_iff, ne_eq, isZero_iff, ← value_eq_zero]; omega
    have hzd : isZero d = false := by
      rw [Bool.eq_false_iff, ne_eq, isZero_iff, hi]; decide
    have hs : signBit k = false := by
      by_contra hs
      rw [Bool.not_eq_false] at hs
      unfold value at h0
      rw [if_pos hs] at h0
      omega
    have he : mul d k = ofMag (signBit d) infMag := by
      unfold mul
      simp [hd, isNaN_of_isFinite hk, isInf_iff.2 hi, hz, hzd, hs]
    have hv : value (mul d k) = value d := by
      rw [he, value_ofMag infMag_lt]
      unfold value
      rw [hi]
    refine ⟨?_, fun h => by rwa [hv], fun h => by rwa [hv]⟩
    rw [he, isNaN_false_iff, mag_ofMag infMag_lt]

end F64

namespace Machine

/-- Everything a LINEAR tick can do (R151): land when the computed distance is within the step, else
move by one step toward a target that is farther than the step. -/
theorem tickLinear_cases {c t m : B64} (hc : F64.isFinite c = true) (ht : F64.isFinite t = true)
    (hm : F64.isFinite m = true) :
    (tickLinear c t m = t ∧ |F64.value (F64.sub t c)| ≤ F64.value m) ∨
    (tickLinear c t m = F64.add c m ∧ F64.value c + F64.value m < F64.value t) ∨
    (tickLinear c t m = F64.sub c m ∧ F64.value t < F64.value c - F64.value m) := by
  have nd := F64.isNaN_sub ht hc
  have nm := F64.isNaN_of_isFinite hm
  unfold tickLinear
  split
  · rename_i h
    rw [F64.le_iff (by simpa using nd) nm, F64.value_abs] at h
    exact .inl ⟨rfl, h⟩
  · rename_i h
    rw [F64.le_iff (by simpa using nd) nm, F64.value_abs, not_le] at h
    split
    · rename_i h0
      rw [F64.lt_iff F64.isNaN_zero nd, F64.value_zero] at h0
      rw [abs_of_pos h0] at h
      refine .inr (.inl ⟨rfl, ?_⟩)
      by_contra hle
      have := F64.sub_le ht hc nm (by omega)
      omega
    · rename_i h0
      rw [F64.lt_iff F64.isNaN_zero nd, F64.value_zero, not_lt] at h0
      rw [abs_of_nonpos h0] at h
      refine .inr (.inr ⟨rfl, ?_⟩)
      by_contra hle
      have := F64.le_sub ht hc (c := F64.neg m) (by simpa using nm) (by rw [F64.value_neg]; omega)
      rw [F64.value_neg] at this
      omega

/-- The exponential step (R152): at most `m`, toward the target. -/
theorem expStep_spec {d m k : B64} (hd : F64.isNaN d = false) (hm : F64.isFinite m = true)
    (hm0 : 0 ≤ F64.value m) (hk : F64.isFinite k = true) (hk0 : 0 < F64.value k) :
    F64.isFinite (expStep d m k) = true ∧ |F64.value (expStep d m k)| ≤ F64.value m ∧
    (0 ≤ F64.value d → 0 ≤ F64.value (expStep d m k)) ∧
    (F64.value d ≤ 0 → F64.value (expStep d m k) ≤ 0) := by
  obtain ⟨ns, hpos, hneg⟩ := F64.mul_pos_sign hd hk hk0
  have nm := F64.isNaN_of_isFinite hm
  suffices h : F64.isNaN (expStep d m k) = false ∧ |F64.value (expStep d m k)| ≤ F64.value m ∧
      (0 ≤ F64.value d → 0 ≤ F64.value (expStep d m k)) ∧
      (F64.value d ≤ 0 → F64.value (expStep d m k) ≤ 0) by
    obtain ⟨-, h2, h3⟩ := h
    exact ⟨F64.isFinite_of_abs_lt (h2.trans_lt ((le_abs_self _).trans_lt (F64.abs_value_lt hm))),
      h2, h3⟩
  unfold expStep
  simp only
  by_cases h1 : F64.lt m (F64.mul d k) = true
  · rw [if_pos h1]
    rw [F64.lt_iff nm ns] at h1
    by_cases h2 : F64.lt m (F64.neg m) = true
    · rw [F64.lt_iff nm (by simpa using nm), F64.value_neg] at h2
      omega
    · rw [if_neg h2]
      exact ⟨nm, by rw [abs_of_nonneg hm0], fun _ => hm0, fun h => by have := hneg h; omega⟩
  · rw [if_neg h1]
    rw [F64.lt_iff nm ns] at h1
    by_cases h2 : F64.lt (F64.mul d k) (F64.neg m) = true
    · rw [if_pos h2]
      rw [F64.lt_iff ns (by simpa using nm), F64.value_neg] at h2
      refine ⟨by simpa using nm, by rw [F64.value_neg, abs_neg, abs_of_nonneg hm0], fun h => ?_,
        fun _ => by rw [F64.value_neg]; omega⟩
      have := hpos h
      omega
    · rw [if_neg h2]
      rw [F64.lt_iff ns (by simpa using nm), F64.value_neg] at h2
      exact ⟨ns, abs_le.2 ⟨by omega, by omega⟩, hpos, hneg⟩

/-- Everything an EXPONENTIAL tick can do (R152): snap to the target, stop at a target that the step
would pass, or take a step that does not pass it. -/
theorem tickExp_cases {c t m k snap : B64} (hc : F64.isFinite c = true) (ht : F64.isFinite t = true)
    (hm : F64.isFinite m = true) (hm0 : 0 ≤ F64.value m) (hk : F64.isFinite k = true)
    (hk0 : 0 < F64.value k) (hs : F64.isNaN snap = false) (hs0 : 0 ≤ F64.value snap) :
    (tickExp c t m k snap = t ∧ |F64.value (F64.sub t c)| ≤ F64.value snap) ∨
    (tickExp c t m k snap = t ∧ |F64.value t - F64.value c| ≤ F64.value m) ∨
    (∃ s, tickExp c t m k snap = F64.add c s ∧ F64.isFinite s = true ∧
      |F64.value s| ≤ F64.value m ∧
      ((0 ≤ F64.value s ∧ F64.value (F64.add c s) ≤ F64.value t) ∨
       (F64.value s ≤ 0 ∧ F64.value t ≤ F64.value (F64.add c s)))) := by
  have nd := F64.isNaN_sub ht hc
  have nt := F64.isNaN_of_isFinite ht
  obtain ⟨fs, hsm, hpos, hneg⟩ := expStep_spec nd hm hm0 hk hk0
  obtain ⟨sg1, sg2⟩ := F64.sub_sign ht hc
  unfold tickExp
  simp only
  generalize expStep (F64.sub t c) m k = s at fs hsm hpos hneg ⊢
  generalize F64.sub t c = d at nd hpos hneg sg1 sg2 ⊢
  have nn := F64.isNaN_add hc fs
  by_cases h1 : F64.le (F64.abs d) snap = true
  · rw [if_pos h1]
    rw [F64.le_iff (by simpa using nd) hs, F64.value_abs] at h1
    exact .inl ⟨rfl, h1⟩
  · rw [if_neg h1]
    rw [F64.le_iff (by simpa using nd) hs, F64.value_abs, not_le] at h1
    have hd0 : F64.value d ≠ 0 := by intro h; rw [h] at h1; simp at h1; omega
    simp only [Bool.and_eq_true, F64.lt_iff F64.isNaN_zero nd, F64.lt_iff nd F64.isNaN_zero,
      F64.lt_iff nt nn, F64.lt_iff nn nt, F64.value_zero]
    have hb := abs_le.1 hsm
    by_cases h2 : 0 < F64.value d ∧ F64.value t < F64.value (F64.add c s)
    · rw [if_pos h2]
      have : F64.value t < F64.value c + F64.value s := by
        by_contra hle
        have := F64.add_le hc fs nt (by omega)
        omega
      have := sg2 h2.1.le
      exact .inr (.inl ⟨rfl, abs_le.2 ⟨by omega, by omega⟩⟩)
    · rw [if_neg h2]
      by_cases h3 : F64.value d < 0 ∧ F64.value (F64.add c s) < F64.value t
      · rw [if_pos h3]
        have : F64.value c + F64.value s < F64.value t := by
          by_contra hle
          have := F64.le_add hc fs nt (by omega)
          omega
        have := sg1 h3.1.le
        exact .inr (.inl ⟨rfl, abs_le.2 ⟨by omega, by omega⟩⟩)
      · rw [if_neg h3]
        refine .inr (.inr ⟨s, rfl, fs, hsm, ?_⟩)
        rcases lt_or_gt_of_ne hd0 with hd | hd
        · exact .inr ⟨hneg hd.le, by omega⟩
        · exact .inl ⟨hpos hd.le, by omega⟩

/-- Everything a tick can do under a usable configuration: land on the target, or add a step of at
most `MAXSTEP[p]` that does not pass it. -/
theorem tick_cases {cfg : Config} (h : UsableConfig cfg) (p : Param) {c t : B64}
    (hc : F64.isFinite c = true) (ht : F64.isFinite t = true) :
    (tick cfg p c t = t ∧ (|F64.value (F64.sub t c)| ≤ F64.value (cfg.maxStepOf p) ∨
        |F64.value t - F64.value c| ≤ F64.value (cfg.maxStepOf p))) ∨
    (∃ s, F64.isFinite s = true ∧ |F64.value s| ≤ F64.value (cfg.maxStepOf p) ∧
      (tick cfg p c t = F64.add c s ∨ tick cfg p c t = F64.sub c (F64.neg s)) ∧
      ((0 ≤ F64.value s ∧ F64.value (tick cfg p c t) ≤ F64.value t) ∨
       (F64.value s ≤ 0 ∧ F64.value t ≤ F64.value (tick cfg p c t)))) := by
  obtain ⟨hm, hm0, hsn, hs0, hsm⟩ := h.maxStep p
  have nt := F64.isNaN_of_isFinite ht
  unfold tick
  split
  · rcases tickLinear_cases hc ht hm with ⟨e, hd⟩ | ⟨e, hd⟩ | ⟨e, hd⟩
    · exact .inl ⟨e, .inl hd⟩
    · refine .inr ⟨_, hm, by rw [abs_of_pos hm0], .inl e, .inl ⟨hm0.le, ?_⟩⟩
      rw [e]
      exact F64.add_le hc hm nt hd.le
    · refine .inr ⟨F64.neg (cfg.maxStepOf p), by simpa using hm, ?_, .inr ?_, .inr ⟨?_, ?_⟩⟩
      · rw [F64.value_neg, abs_neg, abs_of_pos hm0]
      · rw [e]
        congr 1
        exact F64.ext_sign_mag (by simp) (by simp)
      · rw [F64.value_neg]; omega
      · rw [e]
        exact F64.le_sub hc hm nt hd.le
  · rename_i hmode
    obtain ⟨hk, hk0⟩ := h.expK hmode
    rcases tickExp_cases hc ht hm hm0.le hk hk0 hsn hs0 with ⟨e, hd⟩ | ⟨e, hd⟩ | ⟨s, e, fs, hs, hb⟩
    · exact .inl ⟨e, .inl (hd.trans hsm)⟩
    · exact .inl ⟨e, .inr hd⟩
    · exact .inr ⟨s, fs, hs, .inl e, by rw [e]; exact hb⟩

theorem tick_isNaN {cfg : Config} (h : UsableConfig cfg) (p : Param) {c t : B64}
    (hc : F64.isFinite c = true) (ht : F64.isFinite t = true) :
    F64.isNaN (tick cfg p c t) = false := by
  rcases tick_cases h p hc ht with ⟨e, -⟩ | ⟨s, fs, -, e | e, -⟩ <;> rw [e]
  · exact F64.isNaN_of_isFinite ht
  · exact F64.isNaN_add hc fs
  · exact F64.isNaN_sub hc (by simpa using fs)

/-- A current that equals its target in value is the target after the next tick. -/
theorem tick_settled {cfg : Config} (h : UsableConfig cfg) (p : Param) {c t : B64}
    (hc : F64.isFinite c = true) (ht : F64.isFinite t = true) (he : F64.value c = F64.value t) :
    tick cfg p c t = t := by
  obtain ⟨hm, hm0, hsn, hs0, hsm⟩ := h.maxStep p
  have hd : F64.value (F64.sub t c) = 0 := by
    have := F64.sub_exact (c := F64.zero) ht hc F64.isNaN_zero (by rw [F64.value_zero]; omega)
    rwa [F64.value_zero] at this
  have nd := F64.isNaN_sub ht hc
  unfold tick
  split
  · unfold tickLinear
    rw [if_pos]
    rw [F64.le_iff (by simpa using nd) (F64.isNaN_of_isFinite hm), F64.value_abs, hd]
    simpa using hm0.le
  · unfold tickExp
    simp only
    rw [if_pos]
    rw [F64.le_iff (by simpa using nd) hsn, F64.value_abs, hd]
    simpa using hs0

end Machine

end Sys2Proof
end

