-- ==== Sys2Proof/Laws/Chain.lean ====
section
/-! SUPPORT. What the guards, the recurrence, the crossfader, the cascade and the output stage answer
(spec/40_biquad_filter.md R129-R133, spec/42_bypass_crossfader.md R170-R172, spec/44_eq_chain.md
R191-R194). -/

namespace Sys2Proof

namespace F64

/-- A finite value times a factor in [0, 1] is finite and no larger. -/
theorem mul_unit_factor {x g : B64} (hx : isFinite x = true) (hg : isFinite g = true)
    (h0 : 0 ≤ value g) (h1 : value g ≤ value one) :
    isFinite (mul x g) = true ∧ |value (mul x g)| ≤ |value x| := by
  have hU := unitsPerOne_pos
  rw [value_one] at h1
  have nx := isNaN_of_isFinite hx
  have key : |value (mul x g)| ≤ |value x| := by
    rcases le_total 0 (value x) with hx0 | hx0
    · have a := le_mul (c := zero) hx hg isNaN_zero (by rw [value_zero]; nlinarith)
      have b := mul_le (c := x) hx hg nx (by nlinarith)
      rw [value_zero] at a
      rw [abs_of_nonneg a, abs_of_nonneg hx0]
      exact b
    · have a := mul_le (c := zero) hx hg isNaN_zero (by rw [value_zero]; nlinarith)
      have b := le_mul (c := x) hx hg nx (by nlinarith)
      rw [value_zero] at a
      rw [abs_of_nonpos a, abs_of_nonpos hx0]
      omega
  exact ⟨isFinite_of_abs_lt (key.trans_lt (abs_value_lt hx)), key⟩

/-- A finite value times 1.0 keeps its value. -/
theorem value_mul_one {x : B64} (hx : isFinite x = true) : value (mul x one) = value x :=
  mul_exact hx isFinite_one (isNaN_of_isFinite hx) (by rw [value_one])

theorem value_one_mul {x : B64} (hx : isFinite x = true) : value (mul one x) = value x :=
  mul_exact isFinite_one hx (isNaN_of_isFinite hx) (by rw [value_one]; ring)

/-- A finite value times 1.0 is that value, bit for bit. -/
theorem mul_one_eq {x : B64} (hx : isFinite x = true) : mul x one = x := by
  by_cases h0 : value x = 0
  · have hm := value_eq_zero.1 h0
    have hv := value_eq_zero.1 ((value_mul_one hx).trans h0)
    refine ext_sign_mag ?_ (by rw [hv, hm])
    rw [mul_of_finite hx isFinite_one, signBit_round]
    have : signBit one = false := by decide
    rw [this, Bool.bne_false]
  · exact eq_of_value_eq (value_mul_one hx) (by rw [value_mul_one hx]; exact h0)

/-- A finite value times +0.0 is a zero. -/
theorem value_zero_mul {x : B64} (hx : isFinite x = true) : value (mul zero x) = 0 := by
  have := mul_exact (c := zero) isFinite_zero hx isNaN_zero (by rw [value_zero]; ring)
  rwa [value_zero] at this

/-- A pattern that is not a NaN and has the value of a finite one is finite. -/
theorem isFinite_of_value_eq {a b : B64} (hb : isFinite b = true) (h : value a = value b) :
    isFinite a = true := isFinite_of_between hb hb h.ge h.le

/-- Adding a zero keeps the value. -/
theorem value_add_of_zero {x z : B64} (hx : isFinite x = true) (hz : isFinite z = true)
    (h0 : value z = 0) : value (add x z) = value x :=
  add_exact hx hz (isNaN_of_isFinite hx) (by omega)

theorem value_sub_of_zero {x z : B64} (hx : isFinite x = true) (hz : isFinite z = true)
    (h0 : value z = 0) : value (sub x z) = value x :=
  sub_exact hx hz (isNaN_of_isFinite hx) (by omega)

/-- Patterns of one value are equal, or both are zeros. -/
theorem eq_or_zeros {a b : B64} (h : value a = value b) :
    a = b ∨ (isZero a = true ∧ isZero b = true) := by
  by_cases h0 : value a = 0
  · right
    exact ⟨isZero_iff.2 (value_eq_zero.1 h0), isZero_iff.2 (value_eq_zero.1 (h ▸ h0))⟩
  · exact .inl (eq_of_value_eq h h0)

end F64

namespace Machine

/-! ### Guards -/

theorem guardFinite_of_finite {v : B64} (h : F64.isFinite v = true) :
    guardFinite v = ⟨v, false⟩ := by simp [guardFinite, h]

theorem guardFinite_of_not_finite {v : B64} (h : F64.isFinite v = false) :
    guardFinite v = ⟨F64.zero, true⟩ := by simp [guardFinite, h]

/-- What leaves a guard is finite. -/
@[simp] theorem guardFinite_finite (v : B64) : F64.isFinite (guardFinite v).out = true := by
  unfold guardFinite
  split
  · assumption
  · exact F64.isFinite_zero

theorem guardFinite_fired (v : B64) : (guardFinite v).fired = !F64.isFinite v := by
  unfold guardFinite
  split <;> simp_all

theorem inGuard_finite (x : B64) : F64.isFinite (inGuard x).out = true := guardFinite_finite x

theorem bandOut_finite (cfg : Config) (pos : Nat) (b : Band) (u : B64) (r : BandRegs) :
    F64.isFinite (bandOut cfg pos b u r) = true := guardFinite_finite _

/-- Every band's input and the chain's output are finite (R191). -/
theorem cascadeAt_finite (cfg : Config) (pos : Nat) (bs : Bands BandRegs) {u : B64}
    (hu : F64.isFinite u = true) (n : Nat) : F64.isFinite (cascadeAt cfg pos bs u n) = true := by
  cases n with
  | zero => exact hu
  | succ n => exact bandOut_finite _ _ _ _ _

theorem clearedDelay_finite : DelayFinite clearedDelay := by
  refine ⟨?_, ?_, ?_, ?_⟩ <;> exact F64.isFinite_zero

/-- The delay state stays finite (R131, R132). -/
theorem nextDelay_finite {z : Delay} (hz : DelayFinite z) {u : B64} (hu : F64.isFinite u = true)
    (w : B64) : DelayFinite (nextDelay z u w) := by
  unfold nextDelay
  split
  · rename_i hw
    exact ⟨hu, hz.1, hw, hz.2.2.1⟩
  · exact clearedDelay_finite

/-! ### Identity filter -/

/-- The coefficients at zero boost (R129). -/
theorem coef_of_zero_boost {cfg : Config} {ty : FilterType} {f q g : B64}
    (hg : F64.eq g F64.zero = true) : coef cfg ty f q g = identityCoefs := by
  unfold coef
  rw [if_pos hg]

/-- With the identity coefficients the recurrence keeps its input's value (R133). -/
theorem recurrence_identity {z : Delay} (hz : DelayFinite z) {u : B64}
    (hu : F64.isFinite u = true) :
    F64.isFinite (recurrence identityCoefs z u) = true ∧
    F64.value (recurrence identityCoefs z u) = F64.value u := by
  obtain ⟨h1, h2, h3, h4⟩ := hz
  have zfin {x : B64} (hx : F64.isFinite x = true) : F64.isFinite (F64.mul F64.zero x) = true :=
    F64.isFinite_of_value_eq F64.isFinite_zero (by rw [F64.value_zero_mul hx, F64.value_zero])
  have e0 := F64.value_one_mul hu
  have f0 := F64.isFinite_of_value_eq hu e0
  have e1 := F64.value_add_of_zero f0 (zfin h1) (F64.value_zero_mul h1)
  have f1 := F64.isFinite_of_value_eq f0 e1
  have e2 := F64.value_add_of_zero f1 (zfin h2) (F64.value_zero_mul h2)
  have f2 := F64.isFinite_of_value_eq f1 e2
  have e3 := F64.value_sub_of_zero f2 (zfin h3) (F64.value_zero_mul h3)
  have f3 := F64.isFinite_of_value_eq f2 e3
  have e4 := F64.value_sub_of_zero f3 (zfin h4) (F64.value_zero_mul h4)
  have f4 := F64.isFinite_of_value_eq f3 e4
  exact ⟨f4, by unfold recurrence identityCoefs; simp only; omega⟩

/-- The sum of two zeros is +0 unless both are -0. -/
theorem add_zeros {op : FloatOp} {a b : B64} (ha : F64.mag a = 0) (hb : F64.mag b = 0) :
    F64.addAs op a b = F64.ofMag (F64.signBit a && F64.signBit b) 0 := by
  have fa : F64.isFinite a = true := F64.isFinite_iff.2 (by rw [ha]; decide)
  have fb : F64.isFinite b = true := F64.isFinite_iff.2 (by rw [hb]; decide)
  rw [F64.addAs_of_finite fa fb, if_pos]
  rw [F64.value_eq_zero.2 ha, F64.value_eq_zero.2 hb]
  rfl

/-- The recurrence with the identity coefficients returns +0 for +0: the -0 products of the delay
state do not change it. -/
theorem recurrence_identity_zero {z : Delay} (hz : DelayFinite z) :
    recurrence identityCoefs z F64.zero = F64.zero := by
  obtain ⟨h1, h2, h3, h4⟩ := hz
  have zm {x : B64} (hx : F64.isFinite x = true) : F64.mag (F64.mul F64.zero x) = 0 :=
    F64.value_eq_zero.1 (F64.value_zero_mul hx)
  have m0 : F64.mul F64.one F64.zero = F64.zero := by decide +kernel
  have step {op : FloatOp} {x : B64} (hx : F64.mag x = 0) : F64.addAs op F64.zero x = F64.zero := by
    rw [add_zeros (by decide) hx]
    rfl
  have add0 {x : B64} (hx : F64.mag x = 0) : F64.add F64.zero x = F64.zero := step hx
  have sub0 {x : B64} (hx : F64.mag x = 0) : F64.sub F64.zero x = F64.zero :=
    step (by rwa [F64.mag_neg])
  unfold recurrence identityCoefs
  simp only
  rw [m0, add0 (zm h1), add0 (zm h2), sub0 (zm h3), sub0 (zm h4)]

/-- A finite pattern of value zero is +0 or -0. -/
theorem zero_or_negZero {x : B64} (h : F64.mag x = 0) : x = F64.zero ∨ x = F64.neg F64.zero := by
  cases hs : F64.signBit x
  · exact .inl (F64.ext_sign_mag (by rw [hs]; decide) (by rw [h]; decide))
  · exact .inr (F64.ext_sign_mag (by rw [hs]; decide) (by rw [h]; decide))

/-- With the identity coefficients the recurrence returns its input bit for bit, except that -0 may
leave as +0 (R133). -/
theorem recurrence_identity_sameSample {z : Delay} (hz : DelayFinite z) {u : B64}
    (hu : F64.isFinite u = true) : SameSample (recurrence identityCoefs z u) u := by
  obtain ⟨-, hv⟩ := recurrence_identity hz hu
  rcases F64.eq_or_zeros hv with h | ⟨hw, h0⟩
  · exact .inl h
  · rcases zero_or_negZero (F64.isZero_iff.1 h0) with rfl | rfl
    · exact .inl (recurrence_identity_zero hz)
    · rcases zero_or_negZero (F64.isZero_iff.1 hw) with h | h
      · exact .inr ⟨rfl, h⟩
      · exact .inl h

/-! ### Crossfader -/

/-- At beta = 0 the blend is the wet signal, bit for bit (R171). -/
theorem blend_wet {u w beta : B64} (hw : F64.isFinite w = true)
    (hb : F64.eq beta F64.zero = true) : blend u w beta = ⟨w, false⟩ := by
  unfold blend mix
  rw [if_pos hb, guardFinite_of_finite hw]

/-- At beta = 1 the blend is the dry signal, bit for bit (R171). -/
theorem blend_dry {u w beta : B64} (hu : F64.isFinite u = true)
    (hb : F64.eq beta F64.one = true) : blend u w beta = ⟨u, false⟩ := by
  have h0 : F64.eq beta F64.zero = false := by
    obtain ⟨nb, -, hv⟩ := F64.eq_spec hb
    rw [Bool.eq_false_iff, ne_eq, F64.eq_iff nb F64.isNaN_zero, hv, F64.value_one, F64.value_zero]
    have := F64.unitsPerOne_pos
    omega
  unfold blend mix
  rw [h0, if_neg Bool.false_ne_true, if_pos hb, guardFinite_of_finite hu]

/-! ### Output stage -/

/-- `GL` and `GR` lie in [0, 1] (R7, R193). -/
theorem panGains {cfg : Config} (h : UsableConfig cfg) :
    (F64.isFinite cfg.gl = true ∧ 0 ≤ F64.value cfg.gl ∧ F64.value cfg.gl ≤ F64.value F64.one) ∧
    (F64.isFinite cfg.gr = true ∧ 0 ≤ F64.value cfg.gr ∧ F64.value cfg.gr ≤ F64.value F64.one) := by
  obtain ⟨hp, hp0, hp1⟩ := h.pan
  have hU := F64.unitsPerOne_pos
  have unit {x : B64} (hn : F64.isNaN x = false) (h0 : 0 ≤ F64.value x) :
      F64.isFinite (F64.min F64.one x) = true ∧ 0 ≤ F64.value (F64.min F64.one x) ∧
        F64.value (F64.min F64.one x) ≤ F64.value F64.one := by
    unfold F64.min
    split
    · rename_i hl
      rw [F64.lt_iff hn F64.isNaN_one] at hl
      exact ⟨F64.isFinite_of_between F64.isFinite_zero F64.isFinite_one
        (by rw [F64.value_zero]; omega) hl.le, h0, hl.le⟩
    · exact ⟨F64.isFinite_one, by rw [F64.value_one]; omega, le_rfl⟩
  have dbl {x : B64} (hx : F64.isFinite x = true) (h0 : 0 ≤ F64.value x) :
      F64.isNaN (F64.mul F64.two x) = false ∧ 0 ≤ F64.value (F64.mul F64.two x) := by
    refine ⟨F64.isNaN_mul F64.isFinite_two hx, ?_⟩
    have := F64.le_mul (c := F64.zero) F64.isFinite_two hx F64.isNaN_zero
      (by rw [F64.value_zero, F64.value_two]; nlinarith)
    rwa [F64.value_zero] at this
  have s0 := F64.le_sub (c := F64.zero) F64.isFinite_one hp F64.isNaN_zero
    (by rw [F64.value_zero]; omega)
  have s1 := F64.sub_le (c := F64.one) F64.isFinite_one hp F64.isNaN_one (by omega)
  have sf := F64.isFinite_of_between F64.isFinite_zero F64.isFinite_one s0 s1
  rw [F64.value_zero] at s0
  exact ⟨unit (dbl sf s0).1 (dbl sf s0).2, unit (dbl hp hp0).1 (dbl hp hp0).2⟩

/-- M, L and R are finite (R193, R237). -/
theorem outStage_finite {cfg : Config} (h : UsableConfig cfg) (mulr y : B64) :
    F64.isFinite (outStage cfg mulr y).m = true ∧ F64.isFinite (outStage cfg mulr y).l = true ∧
    F64.isFinite (outStage cfg mulr y).r = true := by
  obtain ⟨⟨l1, l2, l3⟩, ⟨r1, r2, r3⟩⟩ := panGains h
  have hm : F64.isFinite (outGain mulr y).out = true := guardFinite_finite _
  exact ⟨hm, (F64.mul_unit_factor hm l1 l2 l3).1, (F64.mul_unit_factor hm r1 r2 r3).1⟩

/-! ### The cascade reads the bands in order -/

/-- What enters band n depends on the bands before n alone (R185, R194). -/
theorem cascadeAt_congr {cfg : Config} {pos : Nat} {bs bs' : Bands BandRegs} {u : B64} {n : Nat}
    (h : ∀ k, k < n → bs.get (Band.ofIndex k) = bs'.get (Band.ofIndex k)) :
    cascadeAt cfg pos bs u n = cascadeAt cfg pos bs' u n := by
  induction n with
  | zero => rfl
  | succ n ih =>
    simp only [cascadeAt]
    rw [ih fun k hk => h k (by omega), h n (by omega)]

end Machine

end Sys2Proof
end

