-- ==== Sys2Proof/Laws/Decode.lean ====
section
/-! SUPPORT. The fields of a command word and the decoder (spec/30_encoding.md R90, R93, R94). -/

namespace Sys2Proof

/-- A word is its three fields. -/
theorem fields_eq (cw : CmdWord) :
    cw.toNat = opField cw * 2 ^ 28 + rsvField cw * 2 ^ 6 + addrField cw := by
  have := cw.isLt
  unfold opField rsvField addrField
  omega

theorem opField_lt (cw : CmdWord) : opField cw < 16 := by
  have := cw.isLt
  unfold opField
  omega

theorem addrField_lt (cw : CmdWord) : addrField cw < 64 := Nat.mod_lt _ (by norm_num)

/-- OP as the bit slice of R90. -/
theorem opField_eq_slice (cw : CmdWord) : opField cw = (cw.extractLsb' 28 4).toNat := by
  have := cw.isLt
  unfold opField
  rw [BitVec.extractLsb'_toNat, Nat.shiftRight_eq_div_pow]
  omega

theorem rsvField_eq_slice (cw : CmdWord) : rsvField cw = (cw.extractLsb' 6 22).toNat := by
  unfold rsvField
  rw [BitVec.extractLsb'_toNat, Nat.shiftRight_eq_div_pow]

theorem addrField_eq_slice (cw : CmdWord) : addrField cw = (cw.extractLsb' 0 6).toNat := by
  unfold addrField
  rw [BitVec.extractLsb'_toNat, Nat.shiftRight_eq_div_pow]
  simp

/-- Masking with FFFFFFC0 clears ADDR. -/
theorem toNat_and_mask (cw : CmdWord) :
    (cw &&& 0xFFFFFFC0#32).toNat = opField cw * 2 ^ 28 + rsvField cw * 2 ^ 6 := by
  have hlt := cw.isLt
  have h : (cw &&& 0xFFFFFFC0#32).toNat = cw.toNat / 2 ^ 6 * 2 ^ 6 := by
    rw [BitVec.toNat_and]
    apply Nat.eq_of_testBit_eq
    intro i
    rw [Nat.testBit_and, ← Nat.shiftLeft_eq, Nat.testBit_shiftLeft, Nat.testBit_div_two_pow]
    by_cases h6 : 6 ≤ i
    · rw [show i - 6 + 6 = i by omega]
      by_cases h32 : i < 32
      · have : ∀ j : Fin 32, 6 ≤ j.val → (0xFFFFFFC0#32).toNat.testBit j = true := by decide
        rw [this ⟨i, h32⟩ h6]
        simp [h6]
      · rw [Nat.testBit_lt_two_pow (hlt.trans_le (Nat.pow_le_pow_right (by norm_num) (by omega)))]
        simp
    · have : ∀ j : Fin 6, (0xFFFFFFC0#32).toNat.testBit j = false := by decide
      rw [this ⟨i, by omega⟩]
      simp [h6]
  rw [h, fields_eq cw]
  have := addrField_lt cw
  omega

theorem toNat_or_addr {base a : Nat} (hb : base < 2 ^ 26) (ha : a < 64) :
    (BitVec.ofNat 32 (base * 2 ^ 6) ||| BitVec.ofNat 32 a).toNat = base * 2 ^ 6 + a := by
  rw [BitVec.toNat_or, BitVec.toNat_ofNat, BitVec.toNat_ofNat, Nat.mod_eq_of_lt (by omega),
    Nat.mod_eq_of_lt (by omega), ← Nat.shiftLeft_eq]
  exact (Nat.shiftLeft_add_eq_or_of_lt (i := 6) (by omega) base).symm

theorem toNat_encodeWord_wr {a : Nat} (ha : a < 64) (d : DataWord) :
    (encodeWord (.wr a d)).toNat = 1 * 2 ^ 28 + a := toNat_or_addr (base := 0x400000) (by norm_num) ha

theorem toNat_encodeWord_rd {a : Nat} (ha : a < 64) :
    (encodeWord (.rd a)).toNat = 2 * 2 ^ 28 + a := toNat_or_addr (base := 0x800000) (by norm_num) ha

/-- Everything the decoder can answer (R94). -/
theorem decode_cases (cw : CmdWord) (d : DataWord) :
    (rsvField cw ≠ 0 ∧ decode cw d = .error .nonzeroRsv) ∨
    (rsvField cw = 0 ∧ opField cw = 1 ∧ decode cw d = .ok (.wr (addrField cw) d)) ∨
    (rsvField cw = 0 ∧ opField cw = 2 ∧ decode cw d = .ok (.rd (addrField cw))) ∨
    (rsvField cw = 0 ∧ opField cw = 3 ∧ addrField cw = 0 ∧ decode cw d = .ok (.smp d)) ∨
    (rsvField cw = 0 ∧ opField cw = 4 ∧ addrField cw = 0 ∧ decode cw d = .ok .srst) ∨
    (rsvField cw = 0 ∧ (opField cw = 3 ∨ opField cw = 4) ∧ addrField cw ≠ 0 ∧
      decode cw d = .error .nonzeroAddr) ∨
    (rsvField cw = 0 ∧ opField cw ≠ 1 ∧ opField cw ≠ 2 ∧ opField cw ≠ 3 ∧ opField cw ≠ 4 ∧
      decode cw d = .error .reservedOp) := by
  by_cases hr : rsvField cw = 0
  · by_cases h1 : opField cw = 1
    · simp [decode, hr, h1]
    · by_cases h2 : opField cw = 2
      · simp [decode, hr, h2]
      · by_cases h3 : opField cw = 3
        · by_cases ha : addrField cw = 0 <;> simp [decode, hr, h3, ha]
        · by_cases h4 : opField cw = 4
          · by_cases ha : addrField cw = 0 <;> simp [decode, hr, h4, ha]
          · simp [decode, hr, h1, h2, h3, h4]
  · simp [decode, hr]

end Sys2Proof
end

