-- ==== Sys2Proof/Laws/PerInstr.lean ====
section
/-! SUPPORT. The host's case split over the constructors of `Instr`: family EncodedFields (what fields
the encoder writes, spec/30_encoding.md R90, R93). -/

namespace Sys2Proof.Laws.EncodedFields

/-- The OP value of a command (R93). -/
def opcode : Instr → Nat
  | .wr _ _ => 1
  | .rd _ => 2
  | .smp _ => 3
  | .srst => 4

/-- The ADDR value of a command: its register address, 0 for SMP and SRST (R90). -/
def address : Instr → Nat
  | .wr a _ => a
  | .rd a => a
  | .smp _ => 0
  | .srst => 0

/-- A well-formed instruction is encoded with its opcode, RSV zero and its address. -/
def Statement (i : Instr) : Prop :=
  i.wellFormed = true →
    opField (encodeWord i) = opcode i ∧ rsvField (encodeWord i) = 0 ∧
      addrField (encodeWord i) = address i

theorem wr (a : Nat) (d : DataWord) : Statement (.wr a d) := by
  intro h
  have ha : a < 64 := by simpa [Instr.wellFormed, addrInRange] using h
  unfold opField rsvField addrField opcode address
  rw [toNat_encodeWord_wr ha]
  refine ⟨?_, ?_, ?_⟩ <;> (try dsimp only) <;> omega

theorem rd (a : Nat) : Statement (.rd a) := by
  intro h
  have ha : a < 64 := by simpa [Instr.wellFormed, addrInRange] using h
  unfold opField rsvField addrField opcode address
  rw [toNat_encodeWord_rd ha]
  refine ⟨?_, ?_, ?_⟩ <;> (try dsimp only) <;> omega

theorem smp (d : DataWord) : Statement (.smp d) := fun _ => by
  change opField 0x30000000#32 = 3 ∧ rsvField 0x30000000#32 = 0 ∧ addrField 0x30000000#32 = 0
  decide

theorem srst : Statement .srst := fun _ => by decide

end Sys2Proof.Laws.EncodedFields
end

