-- ==== Sys2Proof/Laws/Rounding.lean ====
section
/-! SUPPORT. Rounding is to the nearest representable value with ties to even (spec/00_scope.md R10),
and what the bit search of the square root keeps. -/

namespace Sys2Proof.F64

/-- `roundMag` picks the nearest representable magnitude, and on a tie the even pattern. -/
theorem roundMag_nearest {n d p : Nat} (hd : 0 < d) (hp : p ≤ infMag) :
    |(magValue (roundMag n d) * d : Int) - n| ≤ |(magValue p * d : Int) - n| ∧
    (|(magValue (roundMag n d) * d : Int) - n| = |(magValue p * d : Int) - n| →
      roundMag n d ≠ p → roundMag n d % 2 = 0) := by
  have hD : 0 < d * 2 ^ dropBits n d := Nat.mul_pos hd (Nat.two_pow_pos _)
  obtain ⟨hlo, hhi⟩ := significand_bounds (n := n) hd
  obtain ⟨hl, hu⟩ := roundQuot_spec (n := n) hD
  have hdrop := (dropBits_spec (n := n) hd).2
  have htie := fun m => roundQuot_tie (n := n) (m := m) hD
  unfold roundMag
  set k := dropBits n d
  set q := roundQuot n (d * 2 ^ k)
  set D := d * 2 ^ k with hDdef
  have hval : magValue (k * 2 ^ 52 + q) * d = q * D := by
    rw [magValue_pattern hlo hhi, hDdef]; ring
  by_cases hR : k * 2 ^ 52 + q ≤ infMag
  · rw [min_eq_right hR]
    have key : (magValue (k * 2 ^ 52 + q) * d : Int) = q * D := by exact_mod_cast hval
    rw [key]
    rcases lt_trichotomy p (k * 2 ^ 52 + q) with hlt | heq | hgt
    · have h1 : magValue p * d < q * D := by
        rw [← hval]; exact Nat.mul_lt_mul_of_pos_right (magValue_lt.2 hlt) hd
      by_cases hn : q * D ≤ n
      · have e1 : |((q : Int) * D) - n| = n - q * D := by
          rw [abs_of_nonpos] <;> zify at hn <;> linarith
        have e2 : |((magValue p : Int) * d) - n| = n - magValue p * d := by
          rw [abs_of_nonpos] <;> zify at hn h1 <;> linarith
        rw [e1, e2]
        zify at h1
        exact ⟨by linarith, fun h => by linarith⟩
      · have hq : k = 0 ∨ 2 ^ 52 < q := by
          rcases hdrop with h | h
          · exact .inl h
          · right
            by_contra hle
            have : q * D ≤ 2 ^ 52 * D := Nat.mul_le_mul_right _ (by omega)
            omega
        have hq1 : 1 ≤ q := by
          by_contra h0
          have : q = 0 := by omega
          rw [this] at hn; omega
        have h2 : magValue p * d ≤ (q - 1) * D := by
          have : magValue p ≤ magValue (k * 2 ^ 52 + (q - 1)) := magValue_le.2 (by omega)
          rw [magValue_pattern (by omega) (by omega)] at this
          calc magValue p * d ≤ (q - 1) * 2 ^ k * d := Nat.mul_le_mul_right _ this
            _ = _ := by rw [hDdef]; ring
        obtain ⟨m, hm⟩ : ∃ m, q = m + 1 := ⟨q - 1, by omega⟩
        rw [hm] at h2 hn hl hu ⊢
        simp only [Nat.add_sub_cancel] at h2
        have e3 : (m + 1) * D = m * D + D := by ring
        rw [e3] at hn hl hu
        have hnm : m * D ≤ n := by omega
        have e1 : |(((m + 1 : Nat) : Int) * D) - n| = m * D + D - n := by
          rw [abs_of_nonneg] <;> push_cast <;> zify at hn <;> linarith
        have e2 : |((magValue p : Int) * d) - n| = n - magValue p * d := by
          have h2' : (magValue p : Int) * d ≤ m * D := by exact_mod_cast h2
          have hnm' : (m : Int) * D ≤ n := by exact_mod_cast hnm
          rw [abs_of_nonpos] <;> linarith
        rw [e1, e2]
        zify at h2 hl hu
        refine ⟨by linarith, fun h _ => ?_⟩
        have : 2 * n = (2 * m + 1) * D := by zify; linarith
        have := htie m this
        rw [hm] at this
        omega
    · rw [heq, key]
      exact ⟨le_rfl, fun _ h => absurd rfl h⟩
    · have h2 : (q + 1) * D ≤ magValue p * d := by
        have h3 : magValue (k * 2 ^ 52 + q + 1) ≤ magValue p := magValue_le.2 hgt
        have h4 : (q + 1) * 2 ^ k ≤ magValue (k * 2 ^ 52 + q + 1) := by
          by_cases hq : q < 2 ^ 53
          · rw [show k * 2 ^ 52 + q + 1 = k * 2 ^ 52 + (q + 1) by ring, magValue_pattern (by omega) (by omega)]
          · rw [show k * 2 ^ 52 + q + 1 = (k + 1) * 2 ^ 52 + (2 ^ 52 + 1) by omega, magValue_pattern (by omega) (by norm_num), show q = 2 ^ 53 by omega, pow_succ]
            have := Nat.two_pow_pos k
            omega
        calc (q + 1) * D = (q + 1) * 2 ^ k * d := by rw [hDdef]; ring
          _ ≤ _ := Nat.mul_le_mul_right _ (h4.trans h3)
      have e3 : (q + 1) * D = q * D + D := by ring
      rw [e3] at h2
      have e2 : |((magValue p : Int) * d) - n| = magValue p * d - n := by
        rw [abs_of_nonneg]; zify at h2 hu; linarith
      rw [e2]
      zify at h2 hl hu
      refine ⟨abs_le.2 ⟨by linarith, by linarith⟩, fun h _ => ?_⟩
      by_cases hle : q * D ≤ n
      · rw [abs_of_nonpos (by zify at hle; linarith)] at h
        have : 2 * n = (2 * q + 1) * D := by zify; linarith
        have := htie q this
        omega
      · rw [abs_of_nonneg (by zify at hle; linarith)] at h
        zify at hle hD
        linarith
  · rw [min_eq_left (by omega)]
    obtain ⟨j, hj⟩ : ∃ j, j = 2046 := ⟨_, rfl⟩
    have hi : infMag = j * 2 ^ 52 + 2 ^ 52 := by rw [hj]; unfold infMag; norm_num
    have hk : j ≤ k := by omega
    have h1 : magValue infMag * d ≤ n := by
      rcases hdrop with h | h
      · omega
      · rw [hi, magValue_pattern (.inr le_rfl) (by norm_num)]
        calc 2 ^ 52 * 2 ^ j * d ≤ 2 ^ 52 * 2 ^ k * d := Nat.mul_le_mul_right _
              (Nat.mul_le_mul_left _ (Nat.pow_le_pow_right (by norm_num) hk))
          _ = 2 ^ 52 * D := by rw [hDdef]; ring
          _ ≤ n := h
    have h2 : magValue p * d ≤ magValue infMag * d := Nat.mul_le_mul_right _ (magValue_le.2 hp)
    zify at h1 h2
    rw [abs_of_nonpos (by linarith), abs_of_nonpos (by linarith)]
    refine ⟨by linarith, fun _ _ => by decide⟩

/-- A signed quotient rounds to the nearest representable value, and on a tie to the even pattern. -/
theorem round_nearest {s : Bool} {n d : Nat} {x : Int} (hd : 0 < d) {c : B64} (hc : isNaN c = false)
    (hx : (if s then -(n : Int) else n) = x) :
    |value (round s n d) * d - x| ≤ |value c * d - x| ∧
    (|value (round s n d) * d - x| = |value c * d - x| → value (round s n d) ≠ value c →
      mag (round s n d) % 2 = 0) := by
  have hd' : (0 : Int) < d := by exact_mod_cast hd
  suffices H : ∀ c : B64, isNaN c = false → |(magValue (roundMag n d) : Int) * d - n| ≤ |value c * d - n| ∧
     (|(magValue (roundMag n d) : Int) * d - n| = |value c * d - n| → (magValue (roundMag n d) : Int) ≠ value c → roundMag n d % 2 = 0) by
    rw [mag_round, value_round]
    cases s
    · subst hx; exact H c hc
    · subst hx
      have := H (neg c) (by simpa using hc)
      rw [value_neg] at this
      simp only [if_true]
      have e1 : ∀ v : Int, -v * d - -(n : Int) = -(v * d - n) := by intro v; ring
      have e2 : value c * d - -(n : Int) = -(-value c * d - n) := by ring
      rw [e1, e2, abs_neg, abs_neg]
      exact ⟨this.1, fun h h' => this.2 h (by intro h2; exact h' (by omega))⟩
  intro c hc
  by_cases h0 : 0 ≤ value c
  · rw [value_of_nonneg h0]
    obtain ⟨a, b⟩ := roundMag_nearest (n := n) hd (isNaN_false_iff.1 hc)
    exact ⟨a, fun h h' => b h (by rintro h2; rw [h2] at h'; exact h' rfl)⟩
  · obtain ⟨a, b⟩ := roundMag_nearest (n := n) (p := 0) hd (Nat.zero_le _)
    rw [magValue_zero] at a b
    have e1 : |value c * d - (n : Int)| = -(value c * d) + n := by
      rw [abs_of_nonpos] <;> nlinarith
    have e0 : |((0 : Nat) : Int) * d - n| = n := by simp
    rw [e0] at a b
    rw [e1]
    have : value c * d < 0 := by nlinarith
    exact ⟨by linarith, fun h _ => by linarith⟩

/-- The quotient of finite values with a non-zero divisor, in the form of its definition. -/
theorem div_of_nonzero {a b : B64} (ha : isFinite a = true) (hb : isFinite b = true)
    (h0 : value b ≠ 0) :
    div a b = round (signBit a != signBit b) (magValue (mag a) * unitsPerOne) (magValue (mag b)) := by
  have hz : isZero b = false := by
    rw [Bool.eq_false_iff, ne_eq, isZero_iff, ← value_eq_zero]; exact h0
  simp [div, isNaN_of_isFinite ha, isNaN_of_isFinite hb, isInf_of_isFinite ha, isInf_of_isFinite hb,
    hz]

/-! ### Square root -/

/-- The bit search keeps the root between its pattern and the next one at the bit in hand. -/
theorem sqrtFloor_spec {y : Nat} (hy : y < magValue (2 ^ 63) ^ 2) {j : Nat} (hj : j ≤ 63) :
    magValue (sqrtFloor y j) ^ 2 ≤ y ∧ y < magValue (sqrtFloor y j + 2 ^ (63 - j)) ^ 2 := by
  induction j with
  | zero => simpa [sqrtFloor] using hy
  | succ j ih =>
    obtain ⟨hl, hu⟩ := ih (by omega)
    have h2 : sqrtFloor y j + 2 ^ (62 - j) + 2 ^ (62 - j) = sqrtFloor y j + 2 ^ (63 - j) := by
      rw [show 63 - j = 62 - j + 1 by omega, pow_succ]; ring
    rw [sqrtFloor, show 63 - (j + 1) = 62 - j by omega]
    split
    · rename_i h
      rw [h2]
      exact ⟨h, hu⟩
    · rename_i h
      exact ⟨hl, by omega⟩

/-- The patterns with an empty fraction are the powers of two. -/
theorem magValue_pow {k : Nat} : magValue ((k + 1) * 2 ^ 52) = 2 ^ (52 + k) := by
  have := magValue_scaled (e := k) (f := 0) (by norm_num)
  rw [pow_add]; simpa using this

/-- The scaled operand of a square root lies below 2^4194 square units. -/
theorem sqrt_arg_lt {p : Nat} (hp : p < infMag) : magValue p * unitsPerOne < (2 ^ 2097) ^ 2 := by
  have h1 : magValue p < magValue infMag := magValue_lt.2 hp
  obtain ⟨j, hj⟩ : ∃ j, j = 2046 := ⟨_, rfl⟩
  have hi : infMag = (j + 1) * 2 ^ 52 := by rw [hj]; unfold infMag; norm_num
  obtain ⟨u, hu⟩ : ∃ u, u = 1074 := ⟨_, rfl⟩
  obtain ⟨w, hw⟩ : ∃ w, w = 2097 := ⟨_, rfl⟩
  have e : unitsPerOne = 2 ^ u := by rw [hu]; unfold unitsPerOne; rfl
  rw [hi, magValue_pow] at h1
  rw [e, ← hw]
  calc magValue p * 2 ^ u < 2 ^ (52 + j) * 2 ^ u := Nat.mul_lt_mul_of_pos_right h1 (Nat.two_pow_pos u)
    _ = 2 ^ (52 + j + u) := by rw [pow_add _ (52 + j)]
    _ ≤ 2 ^ (w * 2) := Nat.pow_le_pow_right (by norm_num) (by omega)
    _ = _ := by rw [pow_mul]

end Sys2Proof.F64
end

