-- ==== Sys2Proof/Tests/Slice0.lean ====
section
/-! SUPPORT. Tests of the model against the spec's own examples (spec/95_test_vectors.md, cited by row;
spec/30_encoding.md R99), and for every obligation with hypotheses a witness that meets them. The
coefficient tests run under configurations that give the values of `fsin`, `fcos`, `fpow` and
`fexp` which a glibc libm answers (spec R134 names that libm). -/

open Sys2Proof Sys2Proof.Machine

namespace Tests

set_option Elab.async false

/-! ### Helpers -/

/-- The state a command leaves when it is the next one performed; `s` itself if the step does not
answer a next state. -/
def after (s : State) (cw : CmdWord) (d : DataWord) : State :=
  match step (present s cw d) with
  | .next t => t
  | _ => s

/-- The response of that command. -/
def response (s : State) (cw : CmdWord) (d : DataWord) : Option Response := (after s cw d).resp

/-- The response code of that command. -/
def code (s : State) (cw : CmdWord) (d : DataWord) : Option (BitVec 4) :=
  (response s cw d).map Response.code

/-- The STATUS word after that command. -/
def status (s : State) (cw : CmdWord) (d : DataWord) : DataWord := (after s cw d).status.word

/-- `DEF(44100.0, 256)`. -/
def cfgDef : Config := Config.default 0x40E5888000000000#64 256

/-- `cfg` with a glibc libm's values at the arguments of these tests: sine and cosine of w0 for 100,
500, 1000, 10000 Hz and the clamped 1 and 22049 Hz at 44100 Hz, and of pi/2; powers of 10 for boosts
3, 6, 12, -6, -12, 13000 and -13000; the exponential of -1/2205. -/
def withGlibc (cfg : Config) : Config :=
  { cfg with
    fsin := ⟨0, [(0x3F8D2DD69613F104#64, 0x3F8D2D95E3E0B93E#64),
      (0x3FC23CA61DCC76A2#64, 0x3FC22CDEABEC443D#64), (0x3FF6CBCFA53F944B#64, 0x3FEFA8CCB597F15A#64),
      (0x3FF921FB54442D18#64, F64.one), (0x3F22ACB24B91E1EE#64, 0x3F22ACB24A828653#64),
      (0x400921B0A17AFED1#64, 0x3F22ACB24A82760B#64), (0x3FB23CA61DCC76A2#64, 0x3FB238B37C7406F3#64)]⟩
    fcos := ⟨0, [(0x3F8D2DD69613F104#64, 0x3FEFFF2B26372F96#64),
      (0x3FC23CA61DCC76A2#64, 0x3FEFACFE8CDED93F#64), (0x3FF6CBCFA53F944B#64, 0x3FC2A05FA70EC2E8#64),
      (0x3FF921FB54442D18#64, 0x3C91A62633145C07#64), (0x3F22ACB24B91E1EE#64, 0x3FEFFFFFFA8D09B5#64),
      (0x400921B0A17AFED1#64, 0xBFEFFFFFFA8D09B5#64), (0x3FB23CA61DCC76A2#64, 0x3FEFEB38E45AFF39#64)]⟩
    fpow := ⟨0, [((F64.ten, 0x3FB3333333333333#64), 0x3FF3041AE9610AD9#64),
      ((F64.ten, 0x3FC3333333333333#64), 0x3FF699C0F7E86E10#64),
      ((F64.ten, 0x3FD3333333333333#64), 0x3FFFEC982D5BB8AF#64),
      ((F64.ten, 0xBFC3333333333333#64), 0x3FE6A77DEAE8AB8A#64),
      ((F64.ten, 0xBFD3333333333333#64), 0x3FE009B9CF334252#64),
      ((F64.ten, 0x4074500000000000#64), 0x7FF0000000000000#64),
      ((F64.ten, 0xC074500000000000#64), 0#64)]⟩
    fexp := ⟨0, [(0xBF3DB8B6F9266DD5#64, 0x3FEFFC492054A407#64)]⟩ }

/-- `TC-PB` of spec/95_test_vectors.md. -/
def cfgTcPb : Config :=
  { Config.default 0x40E5888000000000#64 4 with
    coefUpdate := .perBlock
    maxStep := ⟨some 0x412E848000000000#64, some 0x4059000000000000#64,
      some 0x4018000000000000#64, some 0x3FD0000000000000#64⟩ }

/-- A legal configuration whose legality does not need `fexp`: `EXP_K[p]` given as 0.5, Q
exponential. -/
def cfgExp : Config :=
  { cfgDef with
    mode := ⟨.linear, .exponential, .linear, .linear⟩
    expK := .all (some 0x3FE0000000000000#64) }

/-- An illegal configuration: BLOCK_SIZE 0. -/
def cfgIllegal : Config := { cfgExp with blockSize := 0 }

/-- The power-on state of `DEF(44100.0, 256)`. -/
def flat : State := State.powerOn cfgDef

/-- A state that no command sequence leaves unnoticed: MUL 0.5, STATUS 0x33, BOOST2 ramping. -/
def busy : State :=
  { flat with
    mulr := 0x3FE0000000000000#64
    status := ⟨true, true, 3#4⟩
    pos := 7
    bands := flat.bands.set .peak1 { flat.bands.get .peak1 with
      tgt := (flat.bands.get .peak1).tgt.set .boost 0x4018000000000000#64 } }

/-- A state of `TC-PB` at position 1 whose band 0 holds the coefficients `c` and delay state `z`. -/
def heldCoefs (c : Coefs) (z : Delay) : State :=
  { State.powerOn cfgTcPb with
    pos := 1
    bands := (State.powerOn cfgTcPb).bands.set .lowshelf
      { (State.powerOn cfgTcPb).bands.get .lowshelf with coefs := c, delay := z } }

/-- V-CO-1. -/
def coefsCo1 : Coefs :=
  ⟨0x3FF014C3D6A54D24#64, 0xBFFFD5DC524B0819#64, 0x3FEF857E1C7D69F4#64, 0xBFFFD67A88F96C06#64,
   0x3FEFADC95C6B3C5C#64⟩

/-! ### WellFormed, decoding, the table interface -/

theorem test_wellFormed_refuses_address_64 :
    (Instr.wr 64 0#64).wellFormed = false ∧ (Instr.rd 64).wellFormed = false := by decide

/-- Also the witness of DecodeOfEncodeGivesTheInstruction. -/
theorem test_wellFormed_accepts_address_63 :
    (Instr.wr 63 0#64).wellFormed = true ∧ (Instr.rd 63).wellFormed = true ∧
    (Instr.smp 0#64).wellFormed = true ∧ Instr.srst.wellFormed = true := by decide

/-- R99 `wr BOOST1, 12.0`: OP 0001, RSV 0, ADDR 001010. -/
theorem test_decode_wr :
    decode 0b00010000000000000000000000001010#32 0x4028000000000000#64 =
      .ok (.wr 0x0A 0x4028000000000000#64) := by decide

/-- R99 `rd BYPASS2_C`: OP 0010, ADDR 110000. -/
theorem test_decode_rd :
    decode 0b00100000000000000000000000110000#32 0#64 = .ok (.rd 0x30) := by decide

/-- R99 `smp -0.5`: OP 0011. -/
theorem test_decode_smp :
    decode 0b00110000000000000000000000000000#32 0xBFE0000000000000#64 =
      .ok (.smp 0xBFE0000000000000#64) := by decide

/-- R99 `srst`: OP 0100. -/
theorem test_decode_srst :
    decode 0b01000000000000000000000000000000#32 0#64 = .ok .srst := by decide

/-- V-DEC: every row is illegal. -/
theorem test_decode_illegal :
    ([0x10000055#32, 0x30000001#32, 0x40000040#32, 0x40000001#32, 0x50000000#32, 0xF0000000#32,
      0x00000000#32, 0x20000040#32, 0x38000000#32].all fun cw => (decode cw 0#64).toOption.isNone) =
      true := by decide

/-- The table's row SMP with 32 bits has the data operand 0; with the operand above it, that operand. -/
theorem test_tableWord :
    decodeTableWord 32 0x30000000 = some (.smp 0#64) ∧
    decodeTableWord 96 (0x3FF0000000000000 * 2 ^ 32 + 0x1000000A) =
      some (.wr 0x0A 0x3FF0000000000000#64) ∧
    decodeTableWord 32 0x50000000 = none := by decide

/-- The command placed for the host is the one the next step performs. -/
theorem test_withFetchWord :
    step (State.reset.withFetchWord 32 0x40000000) = exec .srst State.reset := rfl

/-! ### Text (R97-R99) -/

theorem test_asm_numeric_and_names :
    Asm.assemble "WR 0x15, 1.0".toList = some [(0x10000015#32, 0x3FF0000000000000#64)] ∧
    Asm.assemble "rd MUL_C ; a comment".toList = some [(0x20000034#32, 0#64)] ∧
    Asm.assemble "wr Q1, nan".toList = some [(0x10000005#32, 0x7FF8000000000000#64)] ∧
    Asm.assemble "smp #0000000000000001".toList = some [(0x30000000#32, 1#64)] ∧
    Asm.assemble "rd 0x40".toList = none := by decide +kernel

theorem test_asm_pseudo :
    Asm.assemble "clrerr".toList = some [(0x1000003F#32, 1#64)] ∧
    Asm.assemble "bypass 2".toList = some [(0x10000010#32, 0x3FF0000000000000#64)] ∧
    Asm.assemble "block 0.5, -1e300".toList =
      some [(0x30000000#32, 0x3FE0000000000000#64), (0x30000000#32, 0xFE37E43C8800759C#64)] ∧
    (Asm.assemble "describe".toList).map List.length = some 21 := by decide +kernel

/-! ### Arithmetic and literals (R10) -/

/-- The spec's literals are the binary64 values nearest to them. -/
theorem test_literals :
    F64.one = F64.ofRatio false 1 1 ∧ F64.two = F64.ofRatio false 2 1 ∧
    F64.ten = F64.ofRatio false 10 1 ∧ F64.forty = F64.ofRatio false 40 1 ∧
    F64.fortyEight = F64.ofRatio false 48 1 ∧ F64.twoPowNeg20 = F64.ofRatio false 1 (2 ^ 20) ∧
    F64.pi = F64.ofRatio false 3141592653589793238462643383279 (10 ^ 30) ∧
    cfgDef.qMin = F64.ofRatio false 1 100 ∧ cfgDef.tSmooth = F64.ofRatio false 5 100 ∧
    cfgDef.pan = F64.ofRatio false 1 2 ∧ cfgDef.fs = F64.ofRatio false 44100 1 := by decide +kernel

/-- 0.1 + 0.2, 1/3, 2 - 1e-300, subnormals kept, overflow, +0 from a cancelling sum: IEEE 754, by
hand. -/
theorem test_rounding :
    F64.add 0x3FB999999999999A#64 0x3FC999999999999A#64 = 0x3FD3333333333334#64 ∧
    F64.div F64.one 0x4008000000000000#64 = 0x3FD5555555555555#64 ∧
    F64.sub F64.two 0x01A56E1FC2F8F359#64 = F64.two ∧
    F64.mul 0x0010000000000000#64 0x3FE0000000000000#64 = 0x0008000000000000#64 ∧
    F64.add 0x7FEFFFFFFFFFFFFF#64 0x7FEFFFFFFFFFFFFF#64 = 0x7FF0000000000000#64 ∧
    F64.sub F64.one F64.one = 0#64 ∧
    F64.add 0x8000000000000000#64 0x8000000000000000#64 = 0x8000000000000000#64 := by decide +kernel

/-- Ties go to the even pattern: 2^53 + 1 down, 2^53 + 3 up; a half of the least subnormal to zero. -/
theorem test_ties_to_even :
    F64.add 0x4340000000000000#64 F64.one = 0x4340000000000000#64 ∧
    F64.add 0x4340000000000001#64 F64.one = 0x4340000000000002#64 ∧
    F64.mul 1#64 0x3FE0000000000000#64 = 0#64 := by decide +kernel

/-- sqrt 2 is 3FF6A09E667F3BCD, sqrt 9 is exact, sqrt(-0) is -0. -/
theorem test_sqrt :
    F64.sqrt F64.two = 0x3FF6A09E667F3BCD#64 ∧
    F64.sqrt 0x4022000000000000#64 = 0x4008000000000000#64 ∧
    F64.sqrt 0x8000000000000000#64 = 0x8000000000000000#64 := by decide +kernel

/-- R11: +0 equals -0; a NaN compares with nothing. -/
theorem test_comparisons :
    F64.eq F64.zero 0x8000000000000000#64 = true ∧ F64.lt 0x8000000000000000#64 F64.zero = false ∧
    F64.le 0x7FF8000000000000#64 0x7FF8000000000000#64 = false ∧
    F64.lt 0xFFF0000000000000#64 F64.zero = true := by decide +kernel

/-- inf * 0 and inf - inf are NaNs, whatever their free bits are (log 3). -/
theorem test_nan_results :
    F64.isNaN (F64.mul 0x7FF0000000000000#64 F64.zero) = true ∧
    F64.isNaN (F64.sub 0x7FF0000000000000#64 0x7FF0000000000000#64) = true := by
  have h1 : F64.mul 0x7FF0000000000000#64 F64.zero =
      F64.nanOf .mul 0x7FF0000000000000#64 F64.zero := by unfold F64.mul; rfl
  have h2 : F64.sub 0x7FF0000000000000#64 0x7FF0000000000000#64 =
      F64.nanOf .sub 0x7FF0000000000000#64 (F64.neg 0x7FF0000000000000#64) := by
    unfold F64.sub F64.addAs; rfl
  rw [h1, h2]
  exact ⟨F64.isNaN_nanOf _ _ _, F64.isNaN_nanOf _ _ _⟩

/-! ### Coefficients (V-CO) -/

/-- V-CO-1. -/
theorem test_coef_lowshelf :
    coef (withGlibc cfgDef) .lowshelf 0x4059000000000000#64 F64.one 0x4028000000000000#64 =
      coefsCo1 := by decide +kernel

/-- V-CO-2. -/
theorem test_coef_peak :
    coef (withGlibc cfgDef) .peak 0x408F400000000000#64 F64.one 0x4018000000000000#64 =
      ⟨0x3FF0C317B3CD668D#64, 0xBFFE28EC9668C46F#64, 0x3FEB69BACF722A0A#64,
       0xBFFE28EC9668C46F#64, 0x3FECEFEA370CF723#64⟩ := by decide +kernel

/-- V-CO-3. -/
theorem test_coef_highshelf :
    coef (withGlibc cfgDef) .highshelf 0x40C3880000000000#64 0x3FE6A0902DE00D1B#64
      0xC018000000000000#64 =
      ⟨0x3FE5FF1E006C7426#64, 0x3F958CC4B7C1784E#64, 0x3FBE386E420E6112#64,
       0xBFD7A287DC665CD3#64, 0x3FC90F57727DE9CD#64⟩ := by decide +kernel

/-- V-CO-4, at FS = 48000.0. -/
theorem test_coef_peak_at_half_pi :
    coef (withGlibc (Config.default 0x40E7700000000000#64 256)) .peak 0x40C7700000000000#64 F64.two
      0xC028000000000000#64 =
      ⟨0x3FE8067A3BB97578#64, 0xBC978CF5A24CCBA9#64, 0x3FE2ACD2197294F6#64,
       0xBC978CF5A24CCBA9#64, 0x3FD56698AA5814DC#64⟩ := by decide +kernel

/-- V-CO-8 (A = +inf) and V-CO-11 (A = 0). -/
theorem test_coef_pathological :
    coef (withGlibc cfgDef) .peak 0x408F400000000000#64 F64.one 0x40C9640000000000#64 =
      ⟨0x7FF0000000000000#64, 0xBFFFACFE8CDED93F#64, 0xFFF0000000000000#64,
       0xBFFFACFE8CDED93F#64, F64.one⟩ ∧
    coef (withGlibc cfgDef) .lowshelf 0x4059000000000000#64 F64.one 0xC0C9640000000000#64 =
      ⟨F64.zero, 0x8000000000000000#64, F64.zero, F64.two, F64.one⟩ := by decide +kernel

/-- V-CO-5, V-CO-6, V-CO-7: zero boost, and the clamps in front of the formulas. -/
theorem test_coef_identity_and_clamps :
    coef cfgDef .lowshelf 0x4059000000000000#64 F64.one 0x8000000000000000#64 = identityCoefs ∧
    coef (withGlibc cfgDef) .peak 0#64 0#64 0x4008000000000000#64 =
      ⟨0x3FF00A1162970E57#64, 0xBFFFCF30B4146C5A#64, 0x3FEF8A3EADD00923#64,
       0xBFFFCF30B4146C5A#64, 0x3FEF9E6172FE25D1#64⟩ ∧
    coef (withGlibc cfgDef) .peak 0x41CDCD6500000000#64 F64.one 0x4008000000000000#64 =
      ⟨0x3FF00019ED41B1BD#64, 0x3FFFFF8248D7826B#64, 0x3FEFFED0C2116326#64,
       0x3FFFFF8248D7826B#64, 0x3FEFFF049C94C69E#64⟩ := by decide +kernel

/-- V-SM-6: EXP_K, and the default configuration is legal with this `fexp` (R6). -/
theorem test_default_is_legal_with_glibc :
    (withGlibc cfgDef).expKOf .boost = 0x3F3DB6FD5ADFC800#64 ∧ (withGlibc cfgDef).legal = true := by
  decide +kernel

/-- R260, R5: a configuration with another function; the value it gives for w0 of 1000 Hz is the one
its coefficients use. -/
theorem test_functions_are_configuration :
    Config.sin { withGlibc cfgDef with fsin := ⟨1, [(0x3FC23CA61DCC76A2#64, 0xBFF0000000000000#64)]⟩ }
      0x3FC23CA61DCC76A2#64 = 0xBFF0000000000000#64 ∧
    coef { withGlibc cfgDef with fsin := ⟨1, [(0x3FC23CA61DCC76A2#64, 0xBFF0000000000000#64)]⟩ }
      .peak 0x408F400000000000#64 F64.one 0x4018000000000000#64 ≠
      coef (withGlibc cfgDef) .peak 0x408F400000000000#64 F64.one 0x4018000000000000#64 := by
  decide +kernel

/-! ### Recurrence (V-BQ) -/

/-- V-BQ-1: the first three outputs, each from the state the last one left. -/
theorem test_recurrence_steps :
    recurrence ⟨0x3FE0000000000000#64, 0x3FD0000000000000#64, 0x3FC0000000000000#64,
      0xBFE0000000000000#64, 0x3FD0000000000000#64⟩ ⟨F64.one, F64.zero, 0x3FE0000000000000#64,
      F64.zero⟩ F64.zero = 0x3FE0000000000000#64 ∧
    recurrence ⟨0x3FE0000000000000#64, 0x3FD0000000000000#64, 0x3FC0000000000000#64,
      0xBFE0000000000000#64, 0x3FD0000000000000#64⟩ ⟨F64.zero, F64.zero, 0#64,
      0x3FD0000000000000#64⟩ F64.zero = 0xBFB0000000000000#64 := by decide +kernel

/-- V-BQ-2: the second output of the impulse response. -/
theorem test_recurrence_impulse :
    recurrence coefsCo1 ⟨F64.one, F64.zero, 0x3FF014C3D6A54D24#64, F64.zero⟩ F64.zero =
      0x3F84F800764AA580#64 := by decide +kernel

/-- V-BQ-3: -0.0 leaves as +0.0, the least subnormal passes. -/
theorem test_recurrence_identity :
    recurrence identityCoefs clearedDelay 0x8000000000000000#64 = F64.zero ∧
    recurrence identityCoefs clearedDelay 1#64 = 1#64 := by decide +kernel

/-- V-BQ-4 and V-BQ-6: an infinite coefficient, and a sum that overflows, fire the guard and clear
the delay line. -/
theorem test_recurrence_guard :
    (guardFinite (recurrence ⟨0x7FF0000000000000#64, 0#64, 0#64, 0#64, 0#64⟩
      ⟨0x3FD3333333333333#64, 0x3FC999999999999A#64, 0x3FB999999999999A#64, 0x3FA999999999999A#64⟩
      F64.one)) = ⟨F64.zero, true⟩ ∧
    nextDelay ⟨0x7FEAB36D48E1ACF0#64, 0#64, 0#64, 0#64⟩ 0x7FEAB36D48E1ACF0#64
      (recurrence ⟨F64.one, F64.one, 0#64, 0#64, 0#64⟩ ⟨0x7FEAB36D48E1ACF0#64, 0#64, 0#64, 0#64⟩
        0x7FEAB36D48E1ACF0#64) = clearedDelay := by decide +kernel

/-! ### Smoothers (V-SM) -/

/-- V-SM-1, V-SM-3: step, and land exactly. -/
theorem test_tickLinear :
    tickLinear F64.zero F64.one 0x3FD0000000000000#64 = 0x3FD0000000000000#64 ∧
    tickLinear 0x3FE0000000000000#64 0x3FE3333333333333#64 0x3FD0000000000000#64 =
      0x3FE3333333333333#64 ∧
    tickLinear F64.one 0xBFF0000000000000#64 0x3FD0000000000000#64 = 0x3FE8000000000000#64 := by
  decide +kernel

/-- V-SM-8, V-SM-9: the stalls. -/
theorem test_tickLinear_stalls :
    tickLinear 0x430C6BF526340000#64 F64.zero 0x3F964A893ADCD25F#64 = 0x430C6BF526340000#64 ∧
    tickLinear 0x7FE1CCF385EBC8A0#64 0xFFE1CCF385EBC8A0#64 0x3FD0000000000000#64 =
      0x7FE1CCF385EBC8A0#64 := by decide +kernel

/-- V-SM-4: the clamped first step, an unclamped one, and the snap. -/
theorem test_tickExp_up :
    tickExp F64.zero F64.one 0x3FD3333333333333#64 0x3FE0000000000000#64 0x3F847AE147AE147B#64 =
      0x3FD3333333333333#64 ∧
    tickExp 0x3FE3333333333333#64 F64.one 0x3FD3333333333333#64 0x3FE0000000000000#64
      0x3F847AE147AE147B#64 = 0x3FE999999999999A#64 ∧
    tickExp 0x3FEFCCCCCCCCCCCD#64 F64.one 0x3FD3333333333333#64 0x3FE0000000000000#64
      0x3F847AE147AE147B#64 = F64.one := by decide +kernel

/-- V-SM-5: downwards. -/
theorem test_tickExp_down :
    tickExp F64.one F64.zero 0x3FD3333333333333#64 0x3FE0000000000000#64 0x3F847AE147AE147B#64 =
      0x3FE6666666666666#64 ∧
    tickExp 0x3FE6666666666666#64 F64.zero 0x3FD3333333333333#64 0x3FE0000000000000#64
      0x3F847AE147AE147B#64 = 0x3FD9999999999999#64 := by decide +kernel

/-! ### Crossfader (V-XF) -/

/-- V-XF-1, 2, 3, 4, 9, 10: the interior. -/
theorem test_blend_interior :
    (blend F64.one 0x3FE0000000000000#64 0x3FD0000000000000#64).out = 0x3FE4000000000000#64 ∧
    (blend 0x3FB999999999999A#64 0x3FB999999999999A#64 0x3FD3333333333333#64).out =
      0x3FB9999999999999#64 ∧
    (blend F64.one 0xBFF0000000000000#64 0x3FE0000000000000#64).out = F64.zero ∧
    (blend 0x3FD3333333333333#64 0x3FE6666666666666#64 0x3FB999999999999A#64).out =
      0x3FE51EB851EB851F#64 ∧
    (blend F64.one F64.zero 0x01A56E1FC2F8F359#64).out = 0x01A56E1FC2F8F359#64 ∧
    (blend 1#64 F64.one 0x3FE0000000000000#64).out = 0x3FE0000000000000#64 := by decide +kernel

/-- V-XF-5, V-XF-6: the selects keep the sign of zero. -/
theorem test_blend_endpoints :
    blend 0x8000000000000000#64 0x3FE0000000000000#64 F64.one = ⟨0x8000000000000000#64, false⟩ ∧
    blend 0x3FE0000000000000#64 0x8000000000000000#64 F64.zero =
      ⟨0x8000000000000000#64, false⟩ := by decide +kernel

/-! ### Bands and chain (V-EB, V-CH, P1-P6) -/

/-- V-EB-1, V-EB-2. -/
theorem test_band_step :
    bandOut cfgDef 0 .lowshelf 0x3FE6666666666666#64 (flat.bands.get .lowshelf) =
      0x3FE6666666666666#64 ∧
    (bandRegs cfgDef 0 .lowshelf 0x3FE6666666666666#64 (flat.bands.get .lowshelf)).delay =
      ⟨0x3FE6666666666666#64, 0#64, 0x3FE6666666666666#64, 0#64⟩ ∧
    (bandRegs cfgDef 0 .lowshelf 0x8000000000000000#64 (flat.bands.get .lowshelf)).delay =
      ⟨0x8000000000000000#64, 0#64, 0#64, 0#64⟩ := by decide +kernel

/-- P5 line 3: band 1 with the coefficients of BOOST2 = 6 and bypass ticking to 0.25. -/
theorem test_band_blends_while_fading :
    bandOut cfgTcPb 1 .peak1 F64.one
      { resetBand cfgTcPb .peak1 with
        tgt := (resetTargets cfgTcPb .peak1).set .bypass F64.one
        coefs := ⟨0x3FF0642F7DEDAFB5#64, 0xBFFF22687401D5C0#64, 0x3FEDA4FAB228E9F5#64,
          0xBFFF22687401D5C0#64, 0x3FEE6D59AE04495F#64⟩ } = 0x3FF04B239E7243C8#64 := by
  decide +kernel

/-- P1 line 4: `smp -0.5` from the flat state. -/
theorem test_smp_flat :
    response flat 0x30000000#32 0xBFE0000000000000#64 =
      some ⟨0#4, 0#64,
        some ⟨0xBFE0000000000000#64, 0xBFE0000000000000#64, 0xBFE0000000000000#64⟩⟩ := by
  decide +kernel

/-- P2 line 4: band 0 with V-CO-1 in its registers and line 3's state, input 0.0. -/
theorem test_smp_filters :
    (response (heldCoefs coefsCo1 ⟨F64.one, F64.zero, 0x3FF00A369B572CED#64, F64.zero⟩) 0x30000000#32
      F64.zero).bind Response.out =
      some ⟨0x3F74F0EC3CC8C900#64, 0x3F74F0EC3CC8C900#64, 0x3F74F0EC3CC8C900#64⟩ := by
  decide +kernel

/-- P2 line 3: BOOST1 ticks from 0.0 to 6.0, its coefficients follow, the sample is filtered. -/
theorem test_smp_ramps_and_recomputes :
    (response { State.powerOn (withGlibc { cfgTcPb with coefUpdate := .perSample }) with
        bands := flat.bands.set .lowshelf { flat.bands.get .lowshelf with
          tgt := (flat.bands.get .lowshelf).tgt.set .boost 0x4028000000000000#64 } }
      0x30000000#32 F64.one).bind Response.out =
      some ⟨0x3FF00A369B572CED#64, 0x3FF00A369B572CED#64, 0x3FF00A369B572CED#64⟩ := by
  decide +kernel

/-- V-CH-9: the coefficients that a boost of 13000 dB leaves in its band, and band 0's delay state. -/
theorem test_smp_pathological_boost :
    (fun t : State => ((t.bands.get .peak1).coefs, (t.bands.get .lowshelf).delay))
      (after { State.powerOn (withGlibc { cfgTcPb with
            coefUpdate := .perSample
            maxStep := .all (some 0x40D3880000000000#64) }) with
          bands := flat.bands.set .peak1 { flat.bands.get .peak1 with
            tgt := (flat.bands.get .peak1).tgt.set .boost 0x40C9640000000000#64 } }
        0x30000000#32 F64.one) =
      (⟨0x7FF0000000000000#64, 0xBFFFEB38E45AFF39#64, 0xFFF0000000000000#64, 0xBFFFEB38E45AFF39#64,
        F64.one⟩, ⟨F64.one, F64.zero, F64.one, F64.zero⟩) := by
  decide +kernel

/-- V-CH-5: an output that overflows is silence, with NANF. -/
theorem test_smp_output_guard :
    response { flat with mulr := 0x7FE1CCF385EBC8A0#64 } 0x30000000#32 F64.ten =
      some ⟨0#4, 0#64, some ⟨F64.zero, F64.zero, F64.zero⟩⟩ ∧
    status { flat with mulr := 0x7FE1CCF385EBC8A0#64 } 0x30000000#32 F64.ten = 2#64 := by
  decide +kernel

/-- V-CH-6: an infinite sample is silence, with NANF; `pos` advances. -/
theorem test_smp_input_guard :
    response flat 0x30000000#32 0x7FF0000000000000#64 =
      some ⟨0#4, 0#64, some ⟨F64.zero, F64.zero, F64.zero⟩⟩ ∧
    status flat 0x30000000#32 0x7FF0000000000000#64 = 2#64 ∧
    (after flat 0x30000000#32 0x7FF0000000000000#64).pos = 1 := by decide +kernel

/-- V-CH-3, V-CH-4: the pan gains, and M and R at PAN = 0.25. -/
theorem test_pan :
    ([0#64, 0x3FD0000000000000#64, 0x3FE0000000000000#64, 0x3FE8000000000000#64, F64.one].map
      fun p => ((Config.gl { cfgDef with pan := p }), (Config.gr { cfgDef with pan := p }))) =
      [(F64.one, F64.zero), (F64.one, 0x3FE0000000000000#64), (F64.one, F64.one),
       (0x3FE0000000000000#64, F64.one), (F64.zero, F64.one)] ∧
    outStage { cfgDef with pan := 0x3FD0000000000000#64 } F64.one 0x3FE999999999999A#64 =
      ⟨0x3FE999999999999A#64, 0x3FE999999999999A#64, 0x3FD999999999999A#64⟩ := by decide +kernel

/-- V-CH-7: MUL = -0.0. -/
theorem test_negative_zero_gain :
    (outStage cfgDef 0x8000000000000000#64 0x3FE0000000000000#64).m = 0x8000000000000000#64 ∧
    (outStage cfgDef 0x8000000000000000#64 0xBFE0000000000000#64).m = F64.zero := by decide +kernel

/-- P4 line 6, V-CH-10. -/
theorem test_srst :
    ((after (heldCoefs coefsCo1 ⟨F64.one, F64.one, F64.one, F64.one⟩) 0x40000000#32 0#64).bands.get
      .lowshelf).delay = clearedDelay ∧
    ((after (heldCoefs coefsCo1 ⟨F64.one, F64.one, F64.one, F64.one⟩) 0x40000000#32 0#64).bands.get
      .lowshelf).coefs = coefsCo1 ∧
    (after (heldCoefs coefsCo1 clearedDelay) 0x40000000#32 0#64).pos = 0 := by decide +kernel

/-- P6 line 3 under PER_BLOCK: the coefficients of the block stay although BOOST1 has been written. -/
theorem test_per_block_keeps_coefficients :
    ((after { heldCoefs identityCoefs clearedDelay with
      bands := (heldCoefs identityCoefs clearedDelay).bands.set .lowshelf
        { (heldCoefs identityCoefs clearedDelay).bands.get .lowshelf with
          tgt := (resetTargets cfgTcPb .lowshelf).set .boost 0x4028000000000000#64 } }
      0x30000000#32 F64.one).bands.get .lowshelf).coefs = identityCoefs := by decide +kernel

/-! ### Register access (V-WR, V-RD, P3, V-CH-2) -/

/-- V-WR-1 to V-WR-4: the clamps. -/
theorem test_wr_clamps :
    ((after flat 0x10000000#32 0xC014000000000000#64).bands.get .lowshelf).tgt.freq = F64.one ∧
    ((after flat 0x10000000#32 0x40D5886000000000#64).bands.get .lowshelf).tgt.freq =
      0x40D5884000000000#64 ∧
    ((after flat 0x10000006#32 0#64).bands.get .peak1).tgt.q = 0x3F847AE147AE147B#64 ∧
    ((after flat 0x10000005#32 0x7E37E43C8800759C#64).bands.get .lowshelf).tgt.q =
      0x7E37E43C8800759C#64 ∧
    ((after flat 0x10000011#32 0x4000000000000000#64).bands.get .peak2).tgt.bypass = F64.one ∧
    ((after flat 0x1000000F#32 0x8000000000000000#64).bands.get .lowshelf).tgt.bypass =
      0x8000000000000000#64 := by decide +kernel

/-- V-WR-8, V-WR-13: MUL takes -0.0; a full mask clears STATUS. -/
theorem test_wr_mul_and_status :
    (after flat 0x10000014#32 0x8000000000000000#64).mulr = 0x8000000000000000#64 ∧
    status busy 0x1000003F#32 0xFFFFFFFFFFFFFFFF#64 = 0#64 ∧
    status busy 0x1000003F#32 2#64 = 0x31#64 := by decide +kernel

/-- V-WR-9, 11, 12, 15, V-RD-7: STATUS after each rejection from 0. -/
theorem test_rejections_record_their_code :
    status flat 0x10000000#32 0x7FF0000000000000#64 = 0x31#64 ∧
    status flat 0x10000015#32 0x7FF8000000000000#64 = 0x11#64 ∧
    status flat 0x10000020#32 0x7FF8000000000000#64 = 0x21#64 ∧
    status flat 0x1000003C#32 0#64 = 0x21#64 ∧ status flat 0x2000003D#32 0#64 = 0x11#64 ∧
    status flat 0x50000000#32 0#64 = 0x41#64 := by decide +kernel

/-- V-RD-4, V-RD-5, V-RD-6, V-CH-2, P3 line 5. -/
theorem test_rd :
    ([0x20000035#32, 0x20000036#32, 0x20000037#32, 0x20000038#32, 0x20000039#32, 0x2000003C#32,
      0x20000027#32].map fun cw => response flat cw 0#64) =
      ([0x3FE0000000000000#64, 0x40E5888000000000#64, 0x4070000000000000#64, 0#64,
        0x3FF0000000000000#64, 0x4000000000000000#64, 0x3FF0000000000000#64].map
        fun v => some ⟨0#4, v, none⟩) ∧
    response (State.powerOn (Config.default 0x40BF400000000000#64 256)) 0x20000003#32 0#64 =
      some ⟨0#4, 0x40AF3E0000000000#64, none⟩ ∧
    response busy 0x2000003F#32 0#64 = some ⟨0#4, 0x33#64, none⟩ := by decide +kernel

/-! ### Witnesses: concrete inputs that meet the hypotheses of the obligations -/

/-- The hypotheses on the port: StepRunsTheDecodedCommand, EveryCommandCompletesInOneStep,
IllegalWordsChangeOnlyStatus, ErrorCodesFollowThePriority, RejectionsChangeOnlyStatus;
IdleCoreHoldsItsState; PowerOnEventSamplesItsConfiguration. -/
theorem witness_port :
    (present busy 0x30000000#32 F64.one).port =
      .command .control 0x30000000#32 F64.one :: busy.port ∧ State.reset.port = [] ∧
    ({ busy with port := [.powerOn cfgExp] } : State).port = .powerOn cfgExp :: [] := ⟨rfl, rfl, rfl⟩

theorem witness_PowerOnEventSamplesItsConfiguration :
    cfgExp.legal = true ∧ cfgIllegal.legal = false := by decide +kernel

/-- StepConstantsAreGivenOrDefault: a constant given, one left to its formula, and a platform whose
`fexp` has the value named. -/
theorem witness_StepConstantsAreGivenOrDefault :
    (cfgTcPb.maxStep.get .boost = some 0x4018000000000000#64 ∧
      cfgExp.expK.get .q = some 0x3FE0000000000000#64 ∧
      ({ cfgDef with snap := .all (some F64.zero) } : Config).snap.get .q = some F64.zero) ∧
    (cfgDef.maxStep.get .boost = none ∧ cfgDef.expK.get .q = none ∧ cfgDef.snap.get .q = none) ∧
    ∃ cfg : Config, cfg = { cfgDef with fexp := (withGlibc cfgDef).fexp } ∧
      cfg.exp 0xBF3DB8B6F9266DD5#64 = 0x3FEFFC492054A407#64 :=
  ⟨by decide, by decide, _, rfl, by decide +kernel⟩

theorem witness_StepRunsTheDecodedCommand :
    decode 0x1000000A#32 F64.one = .ok (.wr 0x0A F64.one) ∧
    decode 0x30000000#32 F64.one = .ok (.smp F64.one) := by decide

theorem witness_EncodeOfDecodeGivesTheWord :
    decode 0x2000003F#32 F64.one = .ok (.rd 0x3F) ∧ encodeData (.rd 0x3F) ≠ F64.one := by decide

theorem witness_AssembledCommandsAreLegal :
    Asm.assemble "silence 2".toList = some [(0x30000000#32, 0#64), (0x30000000#32, 0#64)] := by
  decide +kernel

/-- Each clause of R95 alone: RSV's lowest and highest bit, OP 0, 5 and 15, ADDR under SMP and SRST. -/
theorem witness_IllegalWordsChangeOnlyStatus :
    ((0x10000040#32).extractLsb' 6 22).toNat ≠ 0 ∧ ((0x28000000#32).extractLsb' 6 22).toNat ≠ 0 ∧
    ((0x0000000A#32).extractLsb' 28 4).toNat = 0 ∧ ((0x50000000#32).extractLsb' 28 4).toNat = 5 ∧
    ((0xF0000000#32).extractLsb' 28 4).toNat = 15 ∧
    (((0x3000003F#32).extractLsb' 28 4).toNat = 3 ∧ ((0x3000003F#32).extractLsb' 0 6).toNat ≠ 0) ∧
    (((0x40000001#32).extractLsb' 28 4).toNat = 4 ∧ ((0x40000001#32).extractLsb' 0 6).toNat ≠ 0) := by
  decide

theorem witness_EventsIgnoreIssuerAndLaterEvents :
    (∃ t, step { busy with port := .command .audio 0x40000000#32 0#64 :: [] } = .next t) ∧
    (∃ t, step { busy with port := .powerOn cfgExp :: [] } = .next t) := by
  refine ⟨⟨_, rfl⟩, ⟨{ State.powerOn cfgExp with port := [] }, ?_⟩⟩
  have h : cfgExp.legal = true := by decide +kernel
  show performPowerOn cfgExp _ = _
  unfold performPowerOn
  rw [if_pos h]
  rfl

/-- The codes at the boundaries of every clause, the earlier cause winning where two apply. -/
theorem witness_ErrorCodesFollowThePriority :
    ([(0x10000055#32, 0x7FF8000000000000#64), (0x00000000#32, 0#64), (0x50000000#32, 0#64),
      (0x3000003F#32, 0#64), (0x40000001#32, 0#64)].map fun c => code busy c.1 c.2) =
      List.replicate 5 (some 4#4) ∧
    ([(0x10000015#32, 0x7FF8000000000000#64), (0x1000001F#32, 0#64), (0x1000003D#32, 0#64),
      (0x2000003E#32, 0#64)].map fun c => code busy c.1 c.2) = List.replicate 4 (some 1#4) ∧
    ([(0x10000020#32, 0x7FF8000000000000#64), (0x1000003C#32, 0#64)].map fun c => code busy c.1 c.2) =
      List.replicate 2 (some 2#4) ∧
    ([(0x10000000#32, 0x7FF0000000000000#64), (0x10000013#32, 0x7FF8000000000000#64),
      (0x10000014#32, 0xFFF0000000000000#64), (0x10000014#32, 0xBFF0000000000000#64)].map
      fun c => code busy c.1 c.2) = List.replicate 4 (some 3#4) ∧
    ([(0x10000000#32, 0xBFF0000000000000#64), (0x10000014#32, 0x8000000000000000#64),
      (0x1000003F#32, 0x7FF8000000000000#64), (0x20000020#32, 0#64), (0x2000003C#32, 0#64),
      (0x40000000#32, 0#64)].map fun c => code busy c.1 c.2) = List.replicate 6 (some 0#4) := by
  decide +kernel

theorem witness_RejectionsChangeOnlyStatus :
    (response busy 0x20000015#32 0#64).map Response.code = some 1#4 ∧ (1#4 : BitVec 4) ≠ 0#4 := by
  decide

/-- NANF set by an SMP and cleared by a mask, ERR set by a rejection and cleared by a mask. -/
theorem witness_FlagsChangeOnlyAsNamed :
    (flat.status.nanf = false ∧
      (after flat 0x30000000#32 0x7FF8000000000000#64).status.nanf = true) ∧
    (busy.status.nanf = true ∧ (after busy 0x1000003F#32 2#64).status.nanf = false) ∧
    (flat.status.err = false ∧ (after flat 0x20000015#32 0#64).status.err = true) ∧
    (busy.status.err = true ∧ (after busy 0x1000003F#32 1#64).status.err = false) := by
  decide +kernel

theorem witness_ConfigurationChangesOnlyAtReset :
    step (present busy 0x40000000#32 0#64) = .next (after busy 0x40000000#32 0#64) := rfl

/-- Finite data below, inside and above the clamp ranges; also for ReadAfterWriteReturnsTheStoredValue
and WriteIsSeenByTheNextSample. -/
theorem witness_WrStoresTheClampedTarget :
    F64.isFinite 0xC014000000000000#64 = true ∧ F64.isFinite 0x40D5886000000000#64 = true ∧
    5 * Param.index .bypass + Band.index .highshelf = 0x13 := by decide

theorem witness_WrRejectsNonFiniteValues :
    (0x14 ≤ 0x14 ∧ F64.isFinite 0x7FF0000000000000#64 = false) ∧
    F64.isFinite 0xFFF8000000000001#64 = false := by decide

theorem witness_WrMulStoresUnclamped :
    (F64.isFinite 0x8000000000000000#64 = true ∧ F64.lt 0x8000000000000000#64 F64.zero = false) ∧
    (F64.isFinite 0xBFF0000000000000#64 = true ∧ F64.lt 0xBFF0000000000000#64 F64.zero = true) := by
  decide +kernel

theorem witness_WrRejectsProtectedAddresses :
    (0x15 ≤ 0x1F ∧ 0x1F ≤ 0x1F) ∧ (0x20 ≤ 0x20 ∧ 0x20 ≤ 0x3C) ∧ (0x20 ≤ 0x3C ∧ 0x3C ≤ 0x3C) := by
  decide

/-- An accepted target write, an accepted STATUS write, a rejected write. -/
theorem witness_WrChangesOnlyItsRegister :
    exec (.wr 0x3F 1#64) busy =
      .next { busy with status := ⟨false, true, 0#4⟩, resp := some ⟨0#4, 0#64, none⟩ } ∧
    (0x14 ≠ 5 * Param.index .bypass + Band.index .highshelf) ∧
    exec (.wr 0x15 1#64) busy =
      .next { busy with status := ⟨true, true, 1#4⟩, resp := some ⟨1#4, 0#64, none⟩ } :=
  ⟨rfl, by decide, rfl⟩

theorem witness_WritingTwiceIsWritingOnce :
    exec (.wr 0x3F 3#64) busy =
      .next { busy with status := ⟨false, false, 0#4⟩, resp := some ⟨0#4, 0#64, none⟩ } := rfl

/-- Two accepted writes of MUL, and of MUL and a boost target. -/
theorem witness_LaterWriteWins :
    code busy 0x10000014#32 F64.one = some 0#4 ∧ code busy 0x10000014#32 F64.two = some 0#4 ∧
    code busy 0x1000000B#32 F64.two = some 0#4 ∧ (0x14 : Nat) ≠ 0x0B := by decide +kernel

/-- The reads at the ends of every range of the map, in a state that tells them apart. -/
theorem witness_RdReturnsTheMappedRegister :
    response busy 0x2000000B#32 0#64 = some ⟨0#4, 0x4018000000000000#64, none⟩ ∧
    response busy 0x2000002B#32 0#64 = some ⟨0#4, 0#64, none⟩ ∧
    response busy 0x20000014#32 0#64 = some ⟨0#4, 0x3FE0000000000000#64, none⟩ ∧
    response busy 0x20000034#32 0#64 = some ⟨0#4, 0x3FE0000000000000#64, none⟩ ∧
    response busy 0x20000013#32 0#64 = some ⟨0#4, 0#64, none⟩ ∧
    response busy 0x20000020#32 0#64 = some ⟨0#4, 0x4059000000000000#64, none⟩ ∧
    response busy 0x20000033#32 0#64 = some ⟨0#4, 0#64, none⟩ ∧
    response busy 0x20000015#32 0#64 = some ⟨1#4, 0#64, none⟩ ∧
    response busy 0x2000001F#32 0#64 = some ⟨1#4, 0#64, none⟩ := by decide +kernel

theorem witness_SmpTicksEverySmootherOnce :
    (∀ d, Instr.srst ≠ .smp d) ∧ ∃ t, exec .srst busy = .next t := ⟨fun _ h => (by cases h), ⟨_, rfl⟩⟩

/-- The configurations of these tests are usable; the second has an EXPONENTIAL parameter. -/
theorem usable_cfgDef : UsableConfig cfgDef :=
  ⟨by decide +kernel, fun p h => by cases p <;> cases h⟩

theorem usable_cfgExp : UsableConfig cfgExp :=
  ⟨by decide +kernel, fun p _ => by cases p <;> decide +kernel⟩

/-- SmootherStaysBetweenCurrentAndTarget, SmootherStepIsBounded, SmootherLandsAndStays: a LINEAR and an
EXPONENTIAL parameter, a finite current below its target, equal to it, and within one step or
the snap distance. -/
theorem witness_smoothers :
    UsableConfig cfgExp ∧ F64.isFinite F64.zero = true ∧ F64.isFinite F64.one = true ∧
    F64.le F64.zero F64.one = true ∧ F64.eq F64.zero 0x8000000000000000#64 = true ∧
    cfgExp.mode.get .freq = .linear ∧ cfgExp.mode.get .q = .exponential ∧
    |F64.value F64.one - F64.value F64.zero| ≤ F64.value (cfgExp.maxStepOf .freq) ∧
    |F64.value 1#64 - F64.value F64.zero| ≤ F64.value (cfgExp.snapOf .q) :=
  ⟨usable_cfgExp, by decide, by decide, by decide +kernel, by decide +kernel, rfl, rfl,
    by decide +kernel, by decide +kernel⟩

/-- The step branch of SmootherLandsAndStays in both modes, and the values of a step beyond the snap. -/
theorem witness_SmootherLandsAndStays_step :
    (cfgDef.mode.get .bypass = .linear ∧
      F64.le (F64.abs (F64.sub F64.one F64.zero)) (cfgDef.maxStepOf .bypass) = false) ∧
    (cfgExp.mode.get .q = .exponential ∧
      F64.le (F64.abs (F64.sub F64.one F64.zero)) (cfgExp.snapOf .q) = false ∧
      tick cfgExp .q F64.zero F64.one = 0x3F7293725BB804A5#64) := by decide +kernel

/-- V-SM-1: 0.0 to 1.0 in steps of 0.25, n = 4. -/
theorem witness_LinearRampSettles :
    F64.isFinite 0x3FD0000000000000#64 = true ∧ 0 < F64.value 0x3FD0000000000000#64 ∧
    |F64.value F64.one - F64.value F64.zero| ≤ (4 : Nat) * F64.value 0x3FD0000000000000#64 ∧
    (4 : Nat) * max |F64.value F64.zero| |F64.value F64.one| ≤
      2 ^ 53 * F64.value 0x3FD0000000000000#64 := by decide +kernel

/-- V-SM-8 (LINEAR), and an EXPONENTIAL current of 2^60 whose step of at most 1.0 is lost. -/
theorem witness_StalledCurrentsNeverMove :
    (F64.le (F64.abs (F64.sub F64.zero 0x430C6BF526340000#64)) 0x3F964A893ADCD25F#64 = false ∧
      F64.lt F64.zero (F64.sub F64.zero 0x430C6BF526340000#64) = false ∧
      F64.sub 0x430C6BF526340000#64 0x3F964A893ADCD25F#64 = 0x430C6BF526340000#64) ∧
    (F64.le (F64.abs (F64.sub F64.zero 0x43B0000000000000#64)) F64.one = false ∧
      F64.add 0x43B0000000000000#64
        (expStep (F64.sub F64.zero 0x43B0000000000000#64) F64.one 0x3FE0000000000000#64) =
        0x43B0000000000000#64) := by decide +kernel

theorem witness_SamplesTickOneByOne : busy.pos < busy.cfg.blockSize := by decide

/-- CoefIsIdentityAtZeroBoost: the other zero. CoefFollowsTheFormulas: a boost that is no zero. -/
theorem witness_coefs :
    (F64.eq 0x8000000000000000#64 F64.zero = true ∧ DelayFinite clearedDelay ∧
      F64.isFinite F64.one = true) ∧ F64.eq F64.one F64.zero = false :=
  ⟨⟨by decide +kernel, clearedDelay_finite, by decide⟩, by decide +kernel⟩

theorem witness_CoefClampsFrequencyAndQ :
    UsableConfig cfgDef ∧ ParamOk cfgDef .freq 0x4059000000000000#64 ∧ ParamOk cfgDef .q F64.one := by
  refine ⟨usable_cfgDef, ?_, ?_⟩ <;> unfold ParamOk <;> simp only <;> decide +kernel

theorem witness_CoefficientLagIsWithinTheBlock :
    (State.powerOn cfgTcPb).cfg.coefUpdate = .perBlock ∧ (State.powerOn cfgTcPb).pos = 0 ∧
    [F64.one, F64.one, F64.one].length < (State.powerOn cfgTcPb).cfg.blockSize := by decide

/-- A recurrence that stays finite (flat bands) and one that does not (V-BQ-4). -/
theorem witness_RecurrenceAdvancesOrClearsTheDelayLine :
    F64.isFinite (recurrence identityCoefs clearedDelay F64.one) = true ∧
    F64.isFinite (recurrence ((after (heldCoefs ⟨0x7FF0000000000000#64, 0#64, 0#64, 0#64, 0#64⟩
      clearedDelay) 0x30000000#32 F64.one).bands.get .lowshelf).coefs clearedDelay F64.one) =
      false := by decide +kernel

/-- PER_SAMPLE with the boost settled at 0.0, and PER_BLOCK inside a block with identity
coefficients. -/
theorem witness_ZeroBoostBandIsTransparent :
    (cfgDef.coefUpdate = .perSample ∧ F64.eq (tick cfgDef .boost F64.zero F64.zero) F64.zero = true ∧
      F64.eq (tick cfgDef .bypass F64.zero F64.zero) F64.zero = true) ∧
    (¬(cfgTcPb.coefUpdate = .perSample ∨ (1 : Nat) = 0) ∧
      (resetBand cfgTcPb .peak2).coefs = identityCoefs) ∧ DelayFinite clearedDelay :=
  ⟨by decide +kernel, by decide +kernel, clearedDelay_finite⟩

theorem witness_BlendEndpointsAreExact :
    F64.isFinite F64.one = true ∧ F64.eq 0x8000000000000000#64 F64.zero = true ∧
    F64.eq F64.one F64.one = true := by decide +kernel

/-- A band settled at 0.0, and one settled at 1.0. -/
theorem witness_SettledBypassIsExact :
    UsableConfig cfgDef ∧ F64.isFinite F64.one = true ∧
    (F64.isFinite (resetBand cfgDef .peak3).tgt.bypass = true ∧
      F64.eq (resetBand cfgDef .peak3).tgt.bypass F64.zero = true ∧
      F64.eq (resetBand cfgDef .peak3).cur.bypass F64.zero = true) ∧
    (F64.isFinite ((resetTargets cfgDef .peak3).set .bypass F64.one).bypass = true ∧
      F64.eq ((resetTargets cfgDef .peak3).set .bypass F64.one).bypass F64.one = true) :=
  ⟨usable_cfgDef, by decide, by decide +kernel, by decide +kernel⟩

theorem witness_NonFiniteSampleIsSilence : F64.isFinite 0x7FF8000000000000#64 = false := by decide

theorem witness_SmpOutputsAreFinite : UsableConfig busy.cfg := usable_cfgDef

/-- Two states that differ in a later band. -/
theorem witness_EarlierBandsIgnoreLaterBands :
    flat.cfg = busy.cfg ∧ flat.pos = ({ busy with pos := 0 } : State).pos ∧
    flat.bands.get .lowshelf = busy.bands.get .lowshelf ∧
    (flat.bands.get .peak1).tgt.boost ≠ (busy.bands.get .peak1).tgt.boost := by
  refine ⟨rfl, rfl, rfl, ?_⟩
  decide

theorem witness_FlatChainIsTransparent :
    UsableConfig cfgDef ∧ cfgDef.pan = F64.ofRatio false 1 2 ∧
    F64.isFinite 0x8000000000000000#64 = true ∧
    ∀ e ∈ [HostEvent.command .audio 0x40000000#32 0#64, .command .control 0#32 0#64], NotAWrite e := by
  refine ⟨usable_cfgDef, by decide +kernel, by decide, fun e he => ?_⟩
  rw [List.mem_cons, List.mem_singleton] at he
  rcases he with rfl | rfl
  · exact ⟨_, _, _, rfl, fun a d' h => by cases h⟩
  · exact ⟨_, _, _, rfl, fun a d' h => by cases h⟩

theorem witness_LegalResetMeetsTheInvariants :
    cfgExp.legal = true ∧ F64.le cfgExp.qMin F64.one = true := by decide +kernel

/-- A state that meets the invariants, for the statements that keep them. -/
theorem busy_inv : StateInv busy where
  config := usable_cfgDef
  bands := fun b => by
    refine ⟨fun p => ?_, fun p => ?_, ?_⟩
    · cases b <;> cases p <;> unfold ParamOk <;> simp only <;> decide +kernel
    · cases b <;> cases p <;> unfold ParamOk <;> simp only <;> decide +kernel
    · cases b <;> exact clearedDelay_finite
  mul := by decide +kernel
  pos := by decide
  status := by
    show 1 ≤ (3#4).toNat ∧ (3#4).toNat ≤ 4
    decide

/-- CommandsKeepTheInvariants and StepsKeepTheInvariants. -/
theorem witness_StepsKeepTheInvariants :
    StateInv busy ∧ PendingResetsOk busy ∧ (∃ t, exec .srst busy = .next t) ∧
    (∃ t, step busy = .next t) ∧
    StateInv (present busy 0x40000000#32 0#64) ∧
    ∃ t, step (present busy 0x40000000#32 0#64) = .next t :=
  ⟨busy_inv, fun _ h => (by cases h), ⟨_, rfl⟩, ⟨_, rfl⟩,
    ⟨busy_inv.config, busy_inv.bands, busy_inv.mul, busy_inv.pos, busy_inv.status⟩, ⟨_, rfl⟩⟩

/-- ArithmeticIsCorrectlyRounded and SquareRootIsCorrectlyRounded. -/
theorem witness_ArithmeticIsCorrectlyRounded :
    F64.isFinite F64.one = true ∧ F64.isFinite F64.two = true ∧
    F64.isNaN 0x7FF0000000000000#64 = false ∧ F64.value F64.two ≠ 0 ∧ 0 ≤ F64.value F64.two := by
  decide +kernel

end Tests
end

section
/-! The state family (spec/10_state.md R38, R43): one lemma per state update that keeps the
invariants, and the statements they settle. -/

namespace Sys2Proof

open scoped Interval

namespace F64

/-- A lower bound of two values bounds every value between them. -/
theorem le_of_mem_uIcc {lo a b x : B64} (ha : le lo a = true) (hb : le lo b = true)
    (nx : isNaN x = false) (hx : value x ∈ [[value a, value b]]) : le lo x = true := by
  obtain ⟨nlo, -, ha⟩ := le_spec ha
  exact le_of_value_le nlo nx ((le_inf ha (le_spec hb).2.2).trans hx.1)

/-- An upper bound of two values bounds every value between them. -/
theorem ge_of_mem_uIcc {hi a b x : B64} (ha : le a hi = true) (hb : le b hi = true)
    (nx : isNaN x = false) (hx : value x ∈ [[value a, value b]]) : le x hi = true := by
  obtain ⟨-, nhi, ha⟩ := le_spec ha
  exact le_of_value_le nx nhi (hx.2.trans (sup_le ha (le_spec hb).2.2))

theorem isFinite_of_mem_uIcc {a b x : B64} (ha : isFinite a = true) (hb : isFinite b = true)
    (hx : value x ∈ [[value a, value b]]) : isFinite x = true := by
  rcases Set.mem_uIcc.1 hx with ⟨h₁, h₂⟩ | ⟨h₁, h₂⟩
  · exact isFinite_of_between ha hb h₁ h₂
  · exact isFinite_of_between hb ha h₁ h₂

end F64

namespace Machine

/-! ### A current stays in range -/

/-- R38's range of a parameter is convex. -/
theorem ParamOk.of_mem_uIcc {cfg : Config} {p : Param} {a b x : B64} (ha : ParamOk cfg p a)
    (hb : ParamOk cfg p b) (hx : F64.value x ∈ [[F64.value a, F64.value b]]) :
    ParamOk cfg p x := by
  obtain ⟨fa, ra⟩ := ha
  obtain ⟨fb, rb⟩ := hb
  have fx := F64.isFinite_of_mem_uIcc fa fb hx
  have nx := F64.isNaN_of_isFinite fx
  refine ⟨fx, ?_⟩
  cases p with
  | freq => exact ⟨F64.le_of_mem_uIcc ra.1 rb.1 nx hx, F64.ge_of_mem_uIcc ra.2 rb.2 nx hx⟩
  | q => exact F64.le_of_mem_uIcc ra rb nx hx
  | boost => trivial
  | bypass => exact ⟨F64.le_of_mem_uIcc ra.1 rb.1 nx hx, F64.ge_of_mem_uIcc ra.2 rb.2 nx hx⟩

/-- A tick never leaves the interval between the current and its target: a step does not pass the
target, and the rounded sum is on the step's side of the current. -/
theorem tick_mem_uIcc {cfg : Config} (h : UsableConfig cfg) (p : Param) {c t : B64}
    (hc : F64.isFinite c = true) (ht : F64.isFinite t = true) :
    F64.value (tick cfg p c t) ∈ [[F64.value c, F64.value t]] := by
  have nc := F64.isNaN_of_isFinite hc
  rcases tick_cases h p hc ht with ⟨e, -⟩ | ⟨s, fs, -, e, ⟨hs, hle⟩ | ⟨hs, hle⟩⟩
  · rw [e]
    exact Set.right_mem_uIcc
  · refine Set.mem_uIcc.2 (.inl ⟨?_, hle⟩)
    rcases e with e | e <;> rw [e]
    · exact F64.le_add hc fs nc (by omega)
    · exact F64.le_sub hc (by simpa using fs) nc (by rw [F64.value_neg]; omega)
  · refine Set.mem_uIcc.2 (.inr ⟨hle, ?_⟩)
    rcases e with e | e <;> rw [e]
    · exact F64.add_le hc fs nc (by omega)
    · exact F64.sub_le hc (by simpa using fs) nc (by rw [F64.value_neg]; omega)

theorem ParamOk.tick {cfg : Config} (h : UsableConfig cfg) {p : Param} {c t : B64}
    (hc : ParamOk cfg p c) (ht : ParamOk cfg p t) : ParamOk cfg p (tick cfg p c t) :=
  hc.of_mem_uIcc ht (tick_mem_uIcc h p hc.1 ht.1)

/-! ### The updates of a band keep its invariants -/

theorem BandOk.setTarget {cfg : Config} {r : BandRegs} (h : BandOk cfg r) {p : Param} {v : B64}
    (hv : ParamOk cfg p v) : BandOk cfg { r with tgt := r.tgt.set p v } where
  targets p' := by
    by_cases hp : p' = p
    · subst hp
      simpa using hv
    · simpa [ByParam.get_set_of_ne _ _ hp] using h.targets p'
  currents := h.currents
  delay := h.delay

theorem BandOk.bandRegs {cfg : Config} (hcfg : UsableConfig cfg) {r : BandRegs} (h : BandOk cfg r)
    (pos : Nat) (b : Band) {u : B64} (hu : F64.isFinite u = true) :
    BandOk cfg (bandRegs cfg pos b u r) where
  targets p := by simpa using h.targets p
  currents p := by simpa using (h.currents p).tick hcfg (h.targets p)
  delay := by simpa using nextDelay_finite h.delay hu _

theorem BandOk.clearDelay {cfg : Config} {r : BandRegs} (h : BandOk cfg r) :
    BandOk cfg (clearDelay r) where
  targets := h.targets
  currents := h.currents
  delay := clearedDelay_finite

/-! ### The updates of STATUS keep its invariant -/

theorem StatusOk.recordReject (st : Status) {c : Code} (hc : c ≠ .ok) :
    StatusOk (st.recordReject c) := by
  cases c
  case ok => exact absurd rfl hc
  all_goals simp [StatusOk, Code.bits]

theorem StatusOk.recordGuard {st : Status} (h : StatusOk st) (fired : Bool) :
    StatusOk (st.recordGuard fired) := h

/-- ERR and LASTERR clear together (R214). -/
theorem StatusOk.write {st : Status} (h : StatusOk st) (d : DataWord) : StatusOk (st.write d) := by
  unfold StatusOk at h ⊢
  rw [write_err, write_lastErr]
  cases d.getLsbD 0 with
  | true => simp
  | false => simpa using h

/-! ### The updates of the state keep R38 -/

section
variable {s : State} (h : StateInv s)
include h

theorem StateInv.takeEvent (rest : List HostEvent) : StateInv (takeEvent s rest) :=
  ⟨h.config, h.bands, h.mul, h.pos, h.status⟩

theorem StateInv.of_reject {c : Code} (hc : c ≠ .ok) {t : State} (ht : reject c s = .next t) :
    StateInv t := by
  rw [reject_next ht]
  exact ⟨h.config, h.bands, h.mul, h.pos, .recordReject _ hc⟩

theorem StateInv.of_respondOk {v : DataWord} {o : Option SampleOut} {t : State}
    (ht : respondOk v o s = .next t) : StateInv t := by
  rw [respondOk_next ht]
  exact ⟨h.config, h.bands, h.mul, h.pos, h.status⟩

theorem StateInv.writeStatus (d : DataWord) : StateInv { s with status := s.status.write d } :=
  ⟨h.config, h.bands, h.mul, h.pos, h.status.write d⟩

/-- R218: what WR stores in MUL is finite and not below zero. -/
theorem StateInv.writeMul {v : B64} (hv : F64.isFinite v = true)
    (h0 : F64.lt v F64.zero = false) : StateInv { s with mulr := v } where
  config := h.config
  bands := h.bands
  mul := by
    have nv := F64.isNaN_of_isFinite hv
    rw [← Bool.not_eq_true, F64.lt_iff nv F64.isNaN_zero, not_lt] at h0
    exact ⟨hv, F64.le_of_value_le F64.isNaN_zero nv h0⟩
  pos := h.pos
  status := h.status

theorem StateInv.writeTarget {p : Param} {v : B64} (b : Band) (hv : ParamOk s.cfg p v) :
    StateInv (writeTarget s p b v) where
  config := h.config
  bands b' := by
    by_cases hb : b' = b
    · subst hb
      simpa using (h.bands b').setTarget hv
    · simpa [writeTarget_bands_of_ne _ _ _ _ hb] using h.bands b'
  mul := h.mul
  pos := h.pos
  status := h.status

theorem StateInv.afterSample (x : B64) : StateInv (afterSample s x) where
  config := h.config
  bands b := by
    simpa using (h.bands b).bandRegs h.config s.pos b
      (cascadeAt_finite s.cfg s.pos s.bands (inGuard_finite x) b.index)
  mul := h.mul
  pos := Nat.mod_lt _ h.config.blockSize
  status := h.status.recordGuard _

theorem StateInv.clearFilters :
    StateInv { s with bands := Bands.ofFn fun b => clearDelay (s.bands.get b), pos := 0 } where
  config := h.config
  bands b := by simpa using (h.bands b).clearDelay
  mul := h.mul
  pos := h.config.blockSize
  status := h.status

/-! ### Every instruction and every command keeps R38 -/

theorem StateInv.execWr {a : Nat} {d : DataWord} {t : State} (ht : execWr a d s = .next t) :
    StateInv t := by
  obtain ⟨c, hc, e⟩ | ⟨-, e⟩ | ⟨-, hd, h0, e⟩ | ⟨p, b, -, hd, e⟩ := execWr_cases a d s <;>
    rw [e] at ht
  · exact h.of_reject hc ht
  · exact (h.writeStatus d).of_respondOk ht
  · exact (h.writeMul hd h0).of_respondOk ht
  · exact (h.writeTarget b (clampParam_ok h.config p hd)).of_respondOk ht

theorem StateInv.execRd {a : Nat} {t : State} (ht : execRd a s = .next t) : StateInv t := by
  rcases execRd_cases a s with ⟨-, e⟩ | ⟨-, e⟩ <;> rw [e] at ht
  · exact h.of_reject (by decide) ht
  · exact h.of_respondOk ht

theorem StateInv.exec {i : Instr} {t : State} (ht : exec i s = .next t) : StateInv t := by
  cases i with
  | wr a d => exact h.execWr ht
  | rd a => exact h.execRd ht
  | smp d => exact (h.afterSample (sampleOf d)).of_respondOk ht
  | srst => exact h.clearFilters.of_respondOk ht

/-- An illegal word is rejected (R95), a legal one runs its instruction. -/
theorem StateInv.performCommand {cw : CmdWord} {d : DataWord} {t : State}
    (ht : performCommand cw d s = .next t) : StateInv t := by
  unfold Machine.performCommand at ht
  split at ht
  · exact h.exec ht
  · exact h.of_reject (by decide) ht

end

theorem step_of_command {s : State} {g : Agent} {cw : CmdWord} {d : DataWord}
    {rest : List HostEvent} (hp : s.port = .command g cw d :: rest) :
    step s = performCommand cw d (takeEvent s rest) := by
  simp [step, stepCore, hp, perform]

/-- Settles O56: every update of the state that an instruction makes keeps R38; a tick because it
stays between a current and a target that are both in range. -/
theorem commandsKeepTheInvariants : Obligations.CommandsKeepTheInvariants := by
  refine ⟨fun i s t h ht => h.exec ht, fun s t g cw d rest h hp ht => ?_⟩
  rw [step_of_command hp] at ht
  exact (h.takeEvent rest).performCommand ht

/-! ### Power-on reset -/

@[simp] theorem powerOn_bands (cfg : Config) (b : Band) :
    (State.powerOn cfg).bands.get b = resetBand cfg b := by simp [State.powerOn]

/-- The boost after power-on reset is 0.0, so the filters are the identity (R43, R129). -/
theorem resetBand_coefs (cfg : Config) (b : Band) : (resetBand cfg b).coefs = identityCoefs :=
  coef_of_zero_boost ((F64.eq_iff F64.isNaN_zero F64.isNaN_zero).2 rfl)

/-- The default centre frequencies of R5 are the patterns of whole numbers of Hz. -/
theorem default_freqDefault (fs : B64) (n : Nat) : (Config.default fs n).freqDefault =
    ⟨F64.ofRatio false 100 1, F64.ofRatio false 500 1, F64.ofRatio false 1000 1,
      F64.ofRatio false 5000 1, F64.ofRatio false 10000 1⟩ := by
  show Bands.mk _ _ _ _ _ = _
  decide +kernel

/-- Settles O1: the reset values of R43 as `resetBand` gives them, with the identity filter that
zero boost yields. -/
theorem powerOnSetsResetValues : Obligations.PowerOnSetsResetValues := by
  refine ⟨fun cfg b => ?_, fun cfg => ⟨rfl, rfl, rfl⟩, default_freqDefault⟩
  rw [powerOn_bands]
  exact ⟨rfl, rfl, rfl, rfl, resetBand_coefs cfg b⟩

end Machine

end Sys2Proof
end

section
/-! The memory family (spec/20_memory.md R82): a command is rejected or accepted, and both complete in
one step with a response. -/

namespace Sys2Proof

namespace Machine

/-- The codes of R231 end at 4, ERR_OPCODE. -/
theorem Code.bits_toNat_le (c : Code) : c.bits.toNat ≤ 4 := by cases c <;> decide

/-- Every instruction is rejected or accepted; an accepted one responds from a state whose port it
left alone. -/
theorem exec_rejects_or_accepts (i : Instr) (s : State) :
    (∃ c, c ≠ Code.ok ∧ exec i s = reject c s) ∨
    (∃ v o u, exec i s = respondOk v o u ∧ u.port = s.port) := by
  cases i with
  | wr a d =>
    obtain ⟨c, hc, h⟩ | ⟨-, h⟩ | ⟨-, -, -, h⟩ | ⟨p, b, -, -, h⟩ := execWr_cases a d s
    · exact .inl ⟨c, hc, h⟩
    · exact .inr ⟨_, _, _, h, rfl⟩
    · exact .inr ⟨_, _, _, h, rfl⟩
    · exact .inr ⟨_, _, _, h, writeTarget_port ..⟩
  | rd a =>
    obtain ⟨-, h⟩ | ⟨-, h⟩ := execRd_cases a s
    · exact .inl ⟨.errAddr, by decide, h⟩
    · exact .inr ⟨_, _, _, h, rfl⟩
  | smp d => exact .inr ⟨_, _, _, rfl, afterSample_port ..⟩
  | srst => exact .inr ⟨_, _, _, rfl, rfl⟩

/-- A command word is rejected or accepted as its instruction is; an illegal one is rejected (R95). -/
theorem performCommand_rejects_or_accepts (cw : CmdWord) (d : DataWord) (s : State) :
    (∃ c, c ≠ Code.ok ∧ performCommand cw d s = reject c s) ∨
    (∃ v o u, performCommand cw d s = respondOk v o u ∧ u.port = s.port) := by
  unfold performCommand
  split
  · exact exec_rejects_or_accepts _ s
  · exact .inl ⟨.errOpcode, by decide, rfl⟩

/-- Settles O13: a rejection and an acceptance both answer a next state with a response of R231, and
neither puts the command back into the port it was taken from. -/
theorem everyCommandCompletesInOneStep : Obligations.EveryCommandCompletesInOneStep := by
  intro s g cw d rest hp
  rw [step_of_command hp]
  obtain ⟨c, -, h⟩ | ⟨v, o, u, h, hu⟩ := performCommand_rejects_or_accepts cw d (takeEvent s rest)
  · exact ⟨_, _, h, takeEvent_port s rest, rfl, c.bits_toNat_le⟩
  · exact ⟨_, _, h, hu, rfl, Code.ok.bits_toNat_le⟩

end Machine

end Sys2Proof
end

section
/-! The encoding family (spec/30_encoding.md R93, R95, R99): which words the decoder accepts and which
it refuses, by their fields; its match and mask rows, the illegal words and the spec's examples. -/

namespace Sys2Proof

/-! ### The decoder by the fields of the word -/

/-- The words that decode, and what to (R93, R94). -/
theorem decode_eq_ok_iff {cw : CmdWord} {d : DataWord} {i : Instr} :
    decode cw d = .ok i ↔ rsvField cw = 0 ∧
      ((opField cw = 1 ∧ i = .wr (addrField cw) d) ∨ (opField cw = 2 ∧ i = .rd (addrField cw)) ∨
        (opField cw = 3 ∧ addrField cw = 0 ∧ i = .smp d) ∨
        (opField cw = 4 ∧ addrField cw = 0 ∧ i = .srst)) := by
  obtain ⟨hr, h⟩ | ⟨hr, h1, h⟩ | ⟨hr, h2, h⟩ | ⟨hr, h3, ha, h⟩ | ⟨hr, h4, ha, h⟩ |
      ⟨hr, h34, ha, h⟩ | ⟨hr, h1, h2, h3, h4, h⟩ := decode_cases cw d
  · simp [h, hr]
  · simp [h, hr, h1, eq_comm]
  · simp [h, hr, h2, eq_comm]
  · simp [h, hr, h3, ha, eq_comm]
  · simp [h, hr, h4, ha, eq_comm]
  · obtain h3 | h4 := h34
    · simp [h, hr, h3, ha]
    · simp [h, hr, h4, ha]
  · simp [h, hr, h1, h2, h3, h4]

/-- R95's illegal words are words the decoder refuses. -/
theorem decode_error_of_illegal {cw : CmdWord} (d : DataWord)
    (hill : rsvField cw ≠ 0 ∨ opField cw = 0 ∨ 5 ≤ opField cw ∨
      ((opField cw = 3 ∨ opField cw = 4) ∧ addrField cw ≠ 0)) :
    ∃ e, decode cw d = .error e := by
  cases h : decode cw d with
  | error e => exact ⟨e, rfl⟩
  | ok i =>
    have := decode_eq_ok_iff.1 h
    omega

/-! ### The match and mask rows -/

/-- The mask of WR and RD leaves OP and RSV, and the match asks RSV to be 0. -/
theorem and_mask_eq_iff (cw w : CmdWord) {op : Nat} (hw : w.toNat = op * 2 ^ 28) :
    cw &&& 0xFFFFFFC0#32 = w ↔ opField cw = op ∧ rsvField cw = 0 := by
  have hr : rsvField cw < 2 ^ 22 := Nat.mod_lt _ (by norm_num)
  rw [← BitVec.toNat_inj, toNat_and_mask, hw]
  omega

/-- The mask of SMP and SRST leaves the whole word, and the match asks RSV and ADDR to be 0. -/
theorem and_fullMask_eq_iff (cw w : CmdWord) {op : Nat} (hw : w.toNat = op * 2 ^ 28) :
    cw &&& 0xFFFFFFFF#32 = w ↔ opField cw = op ∧ rsvField cw = 0 ∧ addrField cw = 0 := by
  have hr : rsvField cw < 2 ^ 22 := Nat.mod_lt _ (by norm_num)
  have ha := addrField_lt cw
  have hmask : cw &&& 0xFFFFFFFF#32 = cw := BitVec.and_allOnes
  rw [hmask, ← BitVec.toNat_inj, fields_eq, hw]
  omega

namespace Machine

/-- Settles O7: a row's match and mask fix OP and the fields it asks to be 0, and by these fields the
decoder selects the command. -/
theorem decoderFollowsTheOpcodeMap : Obligations.DecoderFollowsTheOpcodeMap := by
  intro cw d
  refine ⟨fun a d' => ?wr, fun a => ?rd, fun d' => ?smp, ?srst⟩
  case wr =>
    rw [decode_eq_ok_iff, ← addrField_eq_slice, and_mask_eq_iff cw 0x10000000#32 (op := 1) rfl]
    simp [and_assoc, and_left_comm]
  case rd =>
    rw [decode_eq_ok_iff, ← addrField_eq_slice, and_mask_eq_iff cw 0x20000000#32 (op := 2) rfl]
    simp [and_assoc, and_left_comm]
  case smp =>
    rw [decode_eq_ok_iff, and_fullMask_eq_iff cw 0x30000000#32 (op := 3) rfl]
    simp [and_assoc, and_left_comm]
  case srst =>
    rw [decode_eq_ok_iff, and_fullMask_eq_iff cw 0x40000000#32 (op := 4) rfl]
    simp [and_left_comm]

/-! ### Illegal words -/

theorem performCommand_of_error {cw : CmdWord} {d : DataWord} {e : DecodeError}
    (h : decode cw d = .error e) (s : State) : performCommand cw d s = reject .errOpcode s := by
  simp [performCommand, h]

/-- Settles O12: the decoder refuses each of these words, and the step is the rejection with
ERR_OPCODE. -/
theorem illegalWordsChangeOnlyStatus : Obligations.IllegalWordsChangeOnlyStatus := by
  intro s g cw d rest hp hill
  rw [← opField_eq_slice, ← rsvField_eq_slice, ← addrField_eq_slice] at hill
  obtain ⟨e, he⟩ := decode_error_of_illegal d hill
  rw [step_of_command hp, performCommand_of_error he, reject_eq]
  rfl

/-! ### The examples of R99 -/

/-- Settles O8: the decoder and the assembler evaluate to the table's words; an illegal word is refused
before the data operand is looked at. -/
theorem exampleWordsDecode : Obligations.ExampleWordsDecode := by
  refine ⟨by decide, by decide, by decide, by decide, by decide, by decide, by decide, by decide,
    by decide, fun _ => rfl, fun _ => rfl, ?_⟩
  decide +kernel

end Machine

end Sys2Proof
end

section
/-! The biquad_filter family (spec/40_biquad_filter.md R123-R133): the coefficients at zero boost and at
any other, and what a band's recurrence does to its delay line, to STATUS and to the blend. -/

namespace Sys2Proof

namespace Machine

/-! ### Coefficients -/

/-- Settles O40: at zero boost `Coef` is the identity filter, and that filter adds to the input only
zeros. -/
theorem coefIsIdentityAtZeroBoost : Obligations.CoefIsIdentityAtZeroBoost :=
  ⟨fun _ _ _ _ _ hg => coef_of_zero_boost hg, fun _ _ hz hu => recurrence_identity_sameSample hz hu⟩

/-- The coefficients at a boost other than zero (R121, R123, R127). -/
theorem coef_of_boost_ne_zero {g : B64} (hg : F64.eq g F64.zero = false) (cfg : Config)
    (ty : FilterType) (f q : B64) :
    coef cfg ty f q g = normalise (raw cfg ty (cfg.clampFreq f) (cfg.clampQ q) g) := by
  simp [coef, hg]

/-- Settles O41: at such a boost `Coef` normalises `Raw` of the clamped values, which is the formula of
the filter's type. -/
theorem coefFollowsTheFormulas : Obligations.CoefFollowsTheFormulas := by
  rintro cfg f q g hg A w0 cw sw alpha t Ap1 Am1 rfl rfl rfl rfl rfl rfl rfl rfl
  refine ⟨?peak, ?lowshelf, ?highshelf, fun _ => rfl⟩
  case peak => exact coef_of_boost_ne_zero hg cfg .peak f q
  case lowshelf => exact coef_of_boost_ne_zero hg cfg .lowshelf f q
  case highshelf => exact coef_of_boost_ne_zero hg cfg .highshelf f q

/-! ### The recurrence and its guard -/

/-- A finite result advances the delay line (R132). -/
theorem nextDelay_of_finite {w : B64} (h : F64.isFinite w = true) (z : Delay) (u : B64) :
    nextDelay z u w = ⟨u, z.x1, w, z.y1⟩ := by simp [nextDelay, h]

/-- Any other result clears it (R131). -/
theorem nextDelay_of_not_finite {w : B64} (h : F64.isFinite w = false) (z : Delay) (u : B64) :
    nextDelay z u w = clearedDelay := by simp [nextDelay, h]

/-- The wet output is the recurrence with the coefficients that the band step leaves (R180). -/
theorem bandWet_eq_recurrence (cfg : Config) (pos : Nat) (b : Band) (u : B64) (r : BandRegs) :
    bandWet cfg pos b u r = recurrence (bandRegs cfg pos b u r).coefs r.delay u := by
  rw [bandRegs_coefs, bandWet]

/-- The band puts out the blend of its input and the guarded wet output, by the bypass just ticked
(R180). -/
theorem bandOut_eq_blend (cfg : Config) (pos : Nat) (b : Band) (u : B64) (r : BandRegs) :
    bandOut cfg pos b u r =
      (blend u (guardFinite (bandWet cfg pos b u r)).out (bandRegs cfg pos b u r).cur.bypass).out := by
  rw [bandRegs_cur, bandOut, bandBlend]

/-- What leaves a band is that band's output for what entered it (R194). -/
theorem cascadeAt_index_succ (cfg : Config) (pos : Nat) (bs : Bands BandRegs) (u : B64) (b : Band) :
    cascadeAt cfg pos bs u (b.index + 1) =
      bandOut cfg pos b (cascadeAt cfg pos bs u b.index) (bs.get b) := by
  rw [cascadeAt, Band.ofIndex_index]

theorem bandFired_of_not_finite {cfg : Config} {pos : Nat} {b : Band} {u : B64} {r : BandRegs}
    (h : F64.isFinite (bandWet cfg pos b u r) = false) : bandFired cfg pos b u r = true := by
  simp [bandFired, guardFinite_of_not_finite h]

/-- A guard of any one band is a guard of the SMP (R236). -/
theorem chainFired_of_cascadeFiredAt {s : State} {x : B64} {b : Band}
    (h : cascadeFiredAt s.cfg s.pos s.bands (inGuard x).out b = true) : chainFired s x = true := by
  have : cascadeFired s.cfg s.pos s.bands (inGuard x).out = true := by
    cases b <;> simp [cascadeFired, h]
  simp [chainFired, this]

/-- SMP always completes, in the state after the sample with its response (R190). -/
theorem exec_smp_eq (d : DataWord) (s : State) :
    exec (.smp d) s = .next { afterSample s d with
      resp := some ⟨Code.ok.bits, 0#64, some (outStage s.cfg s.mulr (chainOut s d))⟩ } := rfl

/-- Settles O45: w is the band's wet output; the delay line, the blend and the guard each look at
whether it is finite. -/
theorem recurrenceAdvancesOrClearsTheDelayLine :
    Obligations.RecurrenceAdvancesOrClearsTheDelayLine := by
  rintro s d b u w rfl
  refine ⟨_, exec_smp_eq d s, fun hw => ?_⟩
  simp only [afterSample_bands, afterSample_status, recordGuard_nanf] at hw ⊢
  replace hw : bandWet s.cfg s.pos b (cascadeAt s.cfg s.pos s.bands (inGuard d).out b.index)
      (s.bands.get b) = w := by rw [bandWet_eq_recurrence, hw, recurrence]
  rw [cascadeAt_index_succ, bandOut_eq_blend, bandRegs_delay, hw]
  refine ⟨fun hfin => ?finite, fun hfin => ?notFinite⟩
  case finite =>
    rw [guardFinite_of_finite hfin]
    exact ⟨nextDelay_of_finite hfin _ _, rfl⟩
  case notFinite =>
    have hfired : chainFired s d = true :=
      chainFired_of_cascadeFiredAt (bandFired_of_not_finite (hw ▸ hfin))
    rw [guardFinite_of_not_finite hfin]
    exact ⟨nextDelay_of_not_finite hfin _ _, by rw [hfired, Bool.or_true], rfl⟩

end Machine

end Sys2Proof
end

section
/-! The parameter_smoother family (spec/41_parameter_smoother.md R151, R152, R155-R158): where the step
constants come from, and between which values, by how much and onto what a tick moves a current. -/

namespace Sys2Proof

namespace F64

/-- An exact distance within a representable bound is within it as the smoother computes it. -/
theorem abs_sub_le_of_abs_value_sub_le {a b m : B64} (ha : isFinite a = true) (hb : isFinite b = true)
    (hm : isNaN m = false) (h : |value a - value b| ≤ value m) : le (abs (sub a b)) m = true := by
  obtain ⟨hlo, hhi⟩ := abs_le.1 h
  refine le_of_value_le (by simpa using isNaN_sub ha hb) hm ?_
  rw [value_abs]
  refine abs_le.2 ⟨?lower, sub_le ha hb hm hhi⟩
  have := le_sub (c := neg m) ha hb (by simpa using hm) (by rwa [value_neg])
  rwa [value_neg] at this

/-- A computed distance within a finite bound is the exact one to within a rounding of that bound. -/
theorem abs_value_sub_le_of_abs_sub_le {a b m : B64} (ha : isFinite a = true) (hb : isFinite b = true)
    (hm : isFinite m = true) (h : |value (sub a b)| ≤ value m) :
    2 ^ 53 * |value a - value b| ≤ (2 ^ 53 + 1) * value m := by
  have hfin : isFinite (sub a b) = true :=
    isFinite_of_abs_lt (h.trans_lt ((le_abs_self _).trans_lt (abs_value_lt hm)))
  have herr := sub_error ha hb hfin
  have htri := abs_sub_abs_le_abs_sub (value a - value b) (value (sub a b))
  rw [abs_sub_comm (value a - value b)] at htri
  omega

/-- A rounded sum moves from `c` by at most the addend and one rounding of the result. -/
theorem abs_sub_le_of_error {c s r : Int} (h : 2 ^ 53 * |r - (c + s)| ≤ |r|) :
    2 ^ 53 * |r - c| ≤ 2 ^ 53 * |s| + |r| := by
  have htri := abs_add_le (r - (c + s)) s
  rw [show r - (c + s) + s = r - c by ring] at htri
  omega

end F64

/-! ### The step constants -/

/-- The spans and the snap factor are the literals of R155 and R156. -/
theorem Config.span_eq (c : Config) (p : Param) : c.span p = match p with
    | .freq => F64.div c.fs F64.two
    | .q => F64.ofRatio false 10 1
    | .boost => F64.ofRatio false 48 1
    | .bypass => F64.ofRatio false 1 1 := by
  cases p with
  | freq => rfl
  | q => exact (by decide +kernel : F64.ten = F64.ofRatio false 10 1)
  | boost => exact (by decide +kernel : F64.fortyEight = F64.ofRatio false 48 1)
  | bypass => exact (by decide +kernel : F64.one = F64.ofRatio false 1 1)

theorem F64.twoPowNeg20_eq : F64.twoPowNeg20 = F64.ofRatio false 1 (2 ^ 20) := by decide +kernel

/-- At 44100 Hz and the default `T_SMOOTH` the rounded product is exactly 2205.0 (R155). -/
theorem Config.smoothSamples_default (n : Nat) :
    (Config.default 0x40E5888000000000#64 n).smoothSamples = 0x40A13A0000000000#64 :=
  (by decide +kernel : F64.mul 0x3FA999999999999A#64 0x40E5888000000000#64 = 0x40A13A0000000000#64)

/-- A default configuration leaves `MAXSTEP[p]` and `EXP_K[p]` to their formulas (R5). -/
theorem Config.default_steps_get (fs : B64) (n : Nat) (p : Param) :
    (Config.default fs n).maxStep.get p = none ∧ (Config.default fs n).expK.get p = none := by
  cases p <;> exact ⟨rfl, rfl⟩

/-- The default `MAXSTEP[p]` at 44100 Hz. -/
theorem Config.maxStepOf_default (n : Nat) (p : Param) :
    (Config.default 0x40E5888000000000#64 n).maxStepOf p = match p with
      | .freq => 0x4024000000000000#64
      | .q => 0x3F7293725BB804A5#64
      | .boost => 0x3F964A893ADCD25F#64
      | .bypass => 0x3F3DB8B6F9266DD5#64 := by
  rw [maxStepOf_of_none (default_steps_get _ n p).1, smoothSamples_default]
  cases p with
  | freq => exact (by decide +kernel : F64.div (F64.div 0x40E5888000000000#64 F64.two)
      0x40A13A0000000000#64 = 0x4024000000000000#64)
  | q => exact (by decide +kernel : F64.div F64.ten 0x40A13A0000000000#64 = 0x3F7293725BB804A5#64)
  | boost => exact (by decide +kernel :
      F64.div F64.fortyEight 0x40A13A0000000000#64 = 0x3F964A893ADCD25F#64)
  | bypass => exact (by decide +kernel :
      F64.div F64.one 0x40A13A0000000000#64 = 0x3F3DB8B6F9266DD5#64)

/-- The default `EXP_K[p]` at 44100 Hz, on a platform with this value of `fexp` at -1/2205. -/
theorem Config.expKOf_default {n : Nat} (h : (Config.default 0x40E5888000000000#64 n).exp
    0xBF3DB8B6F9266DD5#64 = 0x3FEFFC492054A407#64) (p : Param) :
    (Config.default 0x40E5888000000000#64 n).expKOf p = 0x3F3DB6FD5ADFC800#64 := by
  have harg : F64.div (F64.neg F64.one) 0x40A13A0000000000#64 = 0xBF3DB8B6F9266DD5#64 := by
    decide +kernel
  rw [expKOf_of_none (default_steps_get _ n p).2, smoothSamples_default, harg, h]
  decide +kernel

namespace Machine

/-- Settles O60: the constants are read off the configuration or their formulas, and at 44100 Hz the
formulas divide by 2205.0. -/
theorem stepConstantsAreGivenOrDefault : Obligations.StepConstantsAreGivenOrDefault := by
  refine ⟨fun cfg p v => ?given, ?formula, ?printed⟩
  case given =>
    exact ⟨Config.maxStepOf_of_some, Config.expKOf_of_some, Config.snapOf_of_some⟩
  case formula =>
    intro cfg p span hspan
    replace hspan : span = cfg.span p := hspan.trans (cfg.span_eq p).symm
    subst hspan
    rw [← F64.twoPowNeg20_eq]
    exact ⟨Config.maxStepOf_of_none, Config.expKOf_of_none, Config.snapOf_of_none⟩
  case printed =>
    rintro n cfg rfl
    exact ⟨Config.maxStepOf_default n .freq, Config.maxStepOf_default n .q,
      Config.maxStepOf_default n .boost, Config.maxStepOf_default n .bypass, Config.expKOf_default⟩

/-! ### A tick stays in range and moves by at most one step -/

/-- Settles O34: the tick's value lies in the interval of the two ends, whichever is the lower. -/
theorem smootherStaysBetweenCurrentAndTarget :
    Obligations.SmootherStaysBetweenCurrentAndTarget := by
  intro cfg p c t h hc ht
  have nc := F64.isNaN_of_isFinite hc
  have nt := F64.isNaN_of_isFinite ht
  have ntick := tick_isNaN h p hc ht
  have hmem := tick_mem_uIcc h p hc ht
  simp only [F64.le_iff nc nt, F64.le_iff nt nc, F64.le_iff nc ntick, F64.le_iff ntick nt,
    F64.le_iff nt ntick, F64.le_iff ntick nc]
  refine ⟨fun hle => ?upward, fun hle => ?downward⟩
  case upward => rwa [Set.uIcc_of_le hle] at hmem
  case downward => rwa [Set.uIcc_of_ge hle] at hmem

/-- Settles O35: a tick that lands was within one step, exactly or as computed; any other adds one
step at most and rounds the sum once. -/
theorem smootherStepIsBounded : Obligations.SmootherStepIsBounded := by
  intro cfg p c t h hc ht
  obtain ⟨hm, hm0, -⟩ := h.maxStep p
  have hfin := F64.isFinite_of_mem_uIcc hc ht (tick_mem_uIcc h p hc ht)
  have hres := abs_nonneg (F64.value (tick cfg p c t))
  obtain ⟨e, hd | hd⟩ | ⟨s, fs, hs, e, -⟩ := tick_cases h p hc ht
  · have := F64.abs_value_sub_le_of_abs_sub_le ht hc hm hd
    rw [e] at hres ⊢
    omega
  · rw [e] at hres ⊢
    omega
  · have herr : 2 ^ 53 * |F64.value (tick cfg p c t) - (F64.value c + F64.value s)| ≤
        |F64.value (tick cfg p c t)| := by
      obtain e | e := e
      · rw [e] at hfin ⊢
        exact F64.add_error hc fs hfin
      · rw [e] at hfin ⊢
        simpa using F64.sub_error hc (by simpa using fs) hfin
    have := F64.abs_sub_le_of_error herr
    omega

/-! ### A tick is its mode's pseudocode -/

theorem tick_of_linear {cfg : Config} {p : Param} (h : cfg.mode.get p = .linear) (c t : B64) :
    tick cfg p c t = tickLinear c t (cfg.maxStepOf p) := by simp [tick, h]

theorem tick_of_exponential {cfg : Config} {p : Param} (h : cfg.mode.get p = .exponential)
    (c t : B64) :
    tick cfg p c t = tickExp c t (cfg.maxStepOf p) (cfg.expKOf p) (cfg.snapOf p) := by
  simp [tick, h]

/-- A LINEAR tick lands on a target whose computed distance is within the step (R151). -/
theorem tickLinear_of_le {c t m : B64} (h : F64.le (F64.abs (F64.sub t c)) m = true) :
    tickLinear c t m = t := by simp [tickLinear, h]

/-- An EXPONENTIAL tick snaps to a target whose computed distance is within the snap (R152). -/
theorem tickExp_of_le {c t m k snap : B64} (h : F64.le (F64.abs (F64.sub t c)) snap = true) :
    tickExp c t m k snap = t := by simp [tickExp, h]

/-- Settles O36: the mode selects its pseudocode, and the first test of either lands on a target that
is exactly within the step or the snap. -/
theorem smootherLandsAndStays : Obligations.SmootherLandsAndStays := by
  refine ⟨fun cfg p c t h hc ht => ⟨fun heq => ?stays, fun hmode hd => ?step, fun hmode hd => ?snap⟩,
    ?linear, ?exponential⟩
  case stays => exact tick_settled h p hc ht (F64.eq_spec heq).2.2
  case step =>
    obtain ⟨hm, -⟩ := h.maxStep p
    rw [tick_of_linear hmode]
    exact tickLinear_of_le
      (F64.abs_sub_le_of_abs_value_sub_le ht hc (F64.isNaN_of_isFinite hm) hd)
  case snap =>
    obtain ⟨-, -, hsnap, -⟩ := h.maxStep p
    rw [tick_of_exponential hmode]
    exact tickExp_of_le (F64.abs_sub_le_of_abs_value_sub_le ht hc hsnap hd)
  case linear =>
    rintro cfg p c t d m hmode rfl rfl
    rw [tick_of_linear hmode, tickLinear]
  case exponential =>
    rintro cfg p c t d m s₀ s₁ s₂ n hmode rfl rfl rfl rfl rfl rfl
    rw [tick_of_exponential hmode]
    simp only [tickExp, expStep, Bool.and_eq_true]

end Machine

end Sys2Proof
end

section
/-! The bypass_crossfader family (spec/42_bypass_crossfader.md R171): the two ends of the bypass range. -/

namespace Sys2Proof

namespace Machine

/-- Settles O47: each endpoint selects one of the two finite signals unrounded, and the guard passes a
finite value. -/
theorem blendEndpointsAreExact : Obligations.BlendEndpointsAreExact := by
  intro u w beta hu hw
  refine ⟨fun hbeta => ?wet, fun hbeta => ?dry⟩
  case wet => exact blend_wet hw hbeta
  case dry => exact blend_dry hu hbeta

end Machine

end Sys2Proof
end

section
/-! The eq_band family (spec/43_eq_band.md R181, R183, R184): the cadence of the coefficients, and the
band's output at zero boost and at either end of the bypass range. -/

namespace Sys2Proof

namespace Machine

/-! ### Coefficients -/

/-- Settles O43: the band step ticks every current and hands the ticked ones to `updatedCoefs`, which
tests the cadence. -/
theorem coefficientsFollowTheUpdateCadence : Obligations.CoefficientsFollowTheUpdateCadence := by
  refine fun s d => ⟨_, exec_smp_eq d s, fun b => ⟨fun p => ?currents, ?coefs⟩⟩
  case currents => simp only [afterSample_bands, bandRegs_cur, tickAll_get]
  case coefs => simp only [afterSample_bands, bandRegs_cur, bandRegs_coefs, updatedCoefs]

/-- A sample that recomputes the coefficients at zero boost leaves the identity filter (R129, R181). -/
theorem updatedCoefs_of_zero_boost {cfg : Config} {pos : Nat} {cur : ByParam B64}
    (hupdate : cfg.coefUpdate = .perSample ∨ pos = 0) (hboost : F64.eq cur.boost F64.zero = true)
    (ty : FilterType) (old : Coefs) : updatedCoefs cfg pos ty cur old = identityCoefs := by
  rw [updatedCoefs, if_pos hupdate, coef_of_zero_boost hboost]

/-- Any other sample keeps them (R181). -/
theorem updatedCoefs_of_not_update {cfg : Config} {pos : Nat}
    (hkeep : ¬(cfg.coefUpdate = .perSample ∨ pos = 0)) (ty : FilterType) (cur : ByParam B64)
    (old : Coefs) : updatedCoefs cfg pos ty cur old = old := by
  rw [updatedCoefs, if_neg hkeep]

/-- The coefficients look at the currents of FREQ, Q and BOOST alone (R121). -/
theorem updatedCoefs_congr {cur cur' : ByParam B64} (hfreq : cur.freq = cur'.freq)
    (hq : cur.q = cur'.q) (hboost : cur.boost = cur'.boost) (cfg : Config) (pos : Nat)
    (ty : FilterType) (old : Coefs) :
    updatedCoefs cfg pos ty cur old = updatedCoefs cfg pos ty cur' old := by
  rw [updatedCoefs, updatedCoefs, hfreq, hq, hboost]

/-! ### The ends of the bypass range -/

section
variable {cfg : Config} {r : BandRegs}

/-- With the bypass at 1.0 a band puts out its finite input (R184). -/
theorem bandOut_of_bypass_one
    (hbypass : F64.eq (tick cfg .bypass r.cur.bypass r.tgt.bypass) F64.one = true) {u : B64}
    (hu : F64.isFinite u = true) (pos : Nat) (b : Band) : bandOut cfg pos b u r = u := by
  rw [bandOut_eq_blend, bandRegs_cur, tickAll, blend_dry hu hbypass]

/-- With the bypass at 0.0 it puts out the guarded wet output (R184). -/
theorem bandOut_of_bypass_zero
    (hbypass : F64.eq (tick cfg .bypass r.cur.bypass r.tgt.bypass) F64.zero = true) (pos : Nat)
    (b : Band) (u : B64) : bandOut cfg pos b u r = (guardFinite (bandWet cfg pos b u r)).out := by
  rw [bandOut_eq_blend, bandRegs_cur, tickAll, blend_wet (guardFinite_finite _) hbypass]

end

/-- A current that has reached its target's value `v` stays at it. -/
theorem tick_eq_of_reached {cfg : Config} (h : UsableConfig cfg) (p : Param) {c t v : B64}
    (hc : F64.isFinite c = true) (ht : F64.isFinite t = true) (htarget : F64.eq t v = true)
    (hreached : F64.eq c v = true) : F64.eq (tick cfg p c t) v = true := by
  have hvalue : F64.value c = F64.value t :=
    (F64.eq_spec hreached).2.2.trans (F64.eq_spec htarget).2.2.symm
  rwa [tick_settled h p hc ht hvalue]

/-- The filter runs the same whatever the bypass is (R174). -/
theorem bandWet_set_bypass (cfg : Config) (pos : Nat) (b : Band) (u v w : B64) (r : BandRegs) :
    bandWet cfg pos b u
      { r with tgt := { r.tgt with bypass := v }, cur := { r.cur with bypass := w } } =
    bandWet cfg pos b u r := by
  have hcoefs := updatedCoefs_congr
    (cur := tickAll cfg { r.cur with bypass := w } { r.tgt with bypass := v })
    (cur' := tickAll cfg r.cur r.tgt) rfl rfl rfl cfg pos b.filterType r.coefs
  rw [bandWet, bandWet]
  exact congrArg (recurrence · r.delay u) hcoefs

/-- Settles O48: a current that has reached an end stays there, the blend selects one signal at either
end, and the delay line sees the input and the wet output alone. -/
theorem settledBypassIsExact : Obligations.SettledBypassIsExact := by
  rintro cfg pos b u c r h hu htgt hcur rfl
  refine ⟨fun htarget => ?dry, fun htarget => ?wet, fun v w => ?delay⟩
  case dry =>
    exact ⟨tick_eq_of_reached h .bypass hcur htgt htarget,
      fun hbypass => bandOut_of_bypass_one hbypass hu pos b⟩
  case wet =>
    exact ⟨tick_eq_of_reached h .bypass hcur htgt htarget,
      fun hbypass => bandOut_of_bypass_zero hbypass pos b u⟩
  case delay => rw [bandRegs_delay, bandRegs_delay, bandWet_set_bypass]

/-! ### Zero boost -/

/-- With the identity filter and the bypass at 0.0 a band passes its finite input through (R183). -/
theorem bandOut_of_identity_filter {cfg : Config} {pos : Nat} {b : Band} {u : B64} {r : BandRegs}
    (hu : F64.isFinite u = true) (hdelay : DelayFinite r.delay)
    (hcoefs : (bandRegs cfg pos b u r).coefs = identityCoefs)
    (hbypass : F64.eq (tick cfg .bypass r.cur.bypass r.tgt.bypass) F64.zero = true) :
    SameSample (bandOut cfg pos b u r) u := by
  rw [bandOut_of_bypass_zero hbypass, bandWet_eq_recurrence, hcoefs,
    guardFinite_of_finite (recurrence_identity hdelay hu).1]
  exact recurrence_identity_sameSample hdelay hu

/-- Settles O46: whether this sample recomputes the coefficients or keeps them, the band filters by the
identity. -/
theorem zeroBoostBandIsTransparent : Obligations.ZeroBoostBandIsTransparent := by
  intro cfg pos b u r hu hdelay hzero hbypass
  refine bandOut_of_identity_filter hu hdelay ?_ hbypass
  rw [bandRegs_coefs]
  obtain ⟨hupdate, hboost⟩ | ⟨hkeep, hold⟩ := hzero
  · exact updatedCoefs_of_zero_boost hupdate hboost _ _
  · exact (updatedCoefs_of_not_update hkeep _ _ _).trans hold

end Machine

end Sys2Proof
end

section
/-! The eq_chain family (spec/44_eq_chain.md R190-R195): the words of SMP and SRST, SRST, and the
pseudocode of SMP. -/

namespace Sys2Proof

/-! ### The words of SMP and SRST -/

/-- A word whose RSV and ADDR are 0 is known by its OP. -/
theorem eq_word_iff (cw w : CmdWord) {op : Nat} (hw : w.toNat = op * 2 ^ 28) :
    cw = w ↔ opField cw = op ∧ rsvField cw = 0 ∧ addrField cw = 0 := by
  have hmask : cw &&& 0xFFFFFFFF#32 = cw := BitVec.and_allOnes
  rw [← and_fullMask_eq_iff cw w hw, hmask]

/-- Of the words with OP 3 or 4 one decodes, the one with RSV and ADDR 0 (R93, R95). -/
theorem decode_of_op {cw w : CmdWord} {op : Nat} {d : DataWord} {i : Instr}
    (hw : w.toNat = op * 2 ^ 28) (hi : decode w d = .ok i) (h34 : op = 3 ∨ op = 4)
    (hop : (cw.extractLsb' 28 4).toNat = op) :
    if cw = w then decode cw d = .ok i else ∃ e, decode cw d = .error e := by
  rw [← opField_eq_slice] at hop
  split
  case isTrue heq => rwa [heq]
  case isFalse hne =>
    rw [eq_word_iff cw w hw] at hne
    exact decode_error_of_illegal d (by omega)

namespace Machine

/-- Settles O53: SRST's word by its fields; its arm clears each delay line and `pos`. -/
theorem srstClearsFilterState : Obligations.SrstClearsFilterState :=
  ⟨fun _ _ => decode_of_op (w := 0x40000000#32) rfl rfl (.inr rfl), fun _ => rfl⟩

/-! ### The statements of the pseudocode, as one update of a band and one note of a guard -/

/-- The registers of band `b` become `r`. -/
def setBand (b : Band) (r : BandRegs) (s : State) : State := { s with bands := s.bands.set b r }

/-- A guard has been evaluated; NANF is set if it fired (R238). -/
def noteGuard (fired : Bool) (s : State) : State :=
  { s with status := s.status.recordGuard fired }

section
variable (b : Band) (r : BandRegs) (fired : Bool) (s : State)

@[simp] theorem setBand_cfg : (setBand b r s).cfg = s.cfg := rfl
@[simp] theorem setBand_pos : (setBand b r s).pos = s.pos := rfl
@[simp] theorem setBand_mulr : (setBand b r s).mulr = s.mulr := rfl
@[simp] theorem setBand_bands_self : (setBand b r s).bands.get b = r := by simp [setBand]
theorem setBand_bands_of_ne {b' : Band} (h : b' ≠ b) :
    (setBand b r s).bands.get b' = s.bands.get b' := by simp [setBand, Bands.get_set_of_ne _ _ h]
@[simp] theorem setBand_setBand (r' : BandRegs) : setBand b r' (setBand b r s) = setBand b r' s := by
  simp [setBand]

theorem setBand_get : setBand b (s.bands.get b) s = s := by simp [setBand]

@[simp] theorem noteGuard_cfg : (noteGuard fired s).cfg = s.cfg := rfl
@[simp] theorem noteGuard_pos : (noteGuard fired s).pos = s.pos := rfl
@[simp] theorem noteGuard_mulr : (noteGuard fired s).mulr = s.mulr := rfl
@[simp] theorem noteGuard_bands : (noteGuard fired s).bands = s.bands := rfl
@[simp] theorem noteGuard_false : noteGuard false s = s := by
  simp [noteGuard, Status.recordGuard]
theorem noteGuard_true : noteGuard true s = Pseudo.setNanf s := by
  simp [noteGuard, Status.recordGuard, Pseudo.setNanf]
@[simp] theorem noteGuard_noteGuard (fired' : Bool) :
    noteGuard fired' (noteGuard fired s) = noteGuard (fired || fired') s := by
  simp [noteGuard, Status.recordGuard, Bool.or_assoc]
/-- Notes of guards move behind the updates of the bands. -/
@[simp] theorem setBand_noteGuard :
    setBand b r (noteGuard fired s) = noteGuard fired (setBand b r s) := rfl

end

namespace Pseudo

section
variable (b : Band) (u : B64) (s : State)

/-- The guard of a value: its replacement, and the note in STATUS (R236). -/
theorem inGuardStmt_eq (v : B64) :
    inGuardStmt v s = ((guardFinite v).out, noteGuard (guardFinite v).fired s) := by
  unfold inGuardStmt guardFinite
  split
  · rw [noteGuard_false]
  · rw [noteGuard_true]

theorem tickStmt_eq (p : Param) :
    tickStmt p b s = setBand b { s.bands.get b with
      cur := (s.bands.get b).cur.set p
        (tick s.cfg p ((s.bands.get b).cur.get p) ((s.bands.get b).tgt.get p)) } s := rfl

/-- Four ticks, each of a parameter of its own, are step (a) of R180. -/
theorem tickStmts_eq :
    tickStmt .bypass b (tickStmt .boost b (tickStmt .q b (tickStmt .freq b s))) =
      setBand b { s.bands.get b with
        cur := tickAll s.cfg (s.bands.get b).cur (s.bands.get b).tgt } s := by
  simp only [tickStmt_eq, setBand_bands_self, setBand_setBand, setBand_cfg]
  rfl

theorem coefStmt_eq :
    coefStmt b s = setBand b { s.bands.get b with
      coefs := updatedCoefs s.cfg s.pos b.filterType (s.bands.get b).cur
        (s.bands.get b).coefs } s := by
  unfold coefStmt updatedCoefs
  split
  · rfl
  · exact (setBand_get b s).symm

/-- R130: the guard clears the delay line where it replaces the output. -/
theorem biquadStmt_eq {w : B64}
    (hw : recurrence (s.bands.get b).coefs (s.bands.get b).delay u = w) :
    biquadStmt b u s = ((guardFinite w).out, noteGuard (guardFinite w).fired
      (setBand b { s.bands.get b with delay := nextDelay (s.bands.get b).delay u w } s)) := by
  simp only [biquadStmt, hw]
  cases hfin : F64.isFinite w with
  | true =>
    rw [guardFinite_of_finite hfin, nextDelay_of_finite hfin, noteGuard_false]
    rfl
  | false =>
    rw [guardFinite_of_not_finite hfin, nextDelay_of_not_finite hfin, noteGuard_true]
    rfl

theorem blendStmt_eq (w beta : B64) :
    blendStmt u w beta s = ((blend u w beta).out, noteGuard (blend u w beta).fired s) :=
  inGuardStmt_eq s (mix u w beta)

/-- The statements of `BandStep` leave what the data-flow form of R180 gives. -/
theorem bandStepStmt_eq :
    bandStepStmt b u s = (bandOut s.cfg s.pos b u (s.bands.get b),
      noteGuard (bandFired s.cfg s.pos b u (s.bands.get b))
        (setBand b (bandRegs s.cfg s.pos b u (s.bands.get b)) s)) := by
  unfold bandStepStmt
  simp only [tickStmts_eq, coefStmt_eq, biquadStmt_eq _ _ _ rfl, blendStmt_eq, setBand_bands_self,
    setBand_setBand, setBand_cfg, setBand_pos, noteGuard_noteGuard, noteGuard_bands]
  rfl

/-- `OutStage` notes the guard of the gain and nothing else (R193). -/
theorem outStageStmt_eq (y : B64) :
    outStageStmt y s = (outStage s.cfg s.mulr y, noteGuard (outGain s.mulr y).fired s) := by
  simp only [outStageStmt, outStage, outGain]
  cases hfin : F64.isFinite (F64.mul y s.mulr) with
  | true =>
    rw [guardFinite_of_finite hfin, noteGuard_false]
    rfl
  | false =>
    rw [guardFinite_of_not_finite hfin, noteGuard_true]
    rfl

end

/-- The statements of SMP leave the state after the sample, and its output triple: a band step reads
its own band alone, which the steps before it left as it was (R190). -/
theorem smpStmt_eq (x : B64) (s : State) :
    smpStmt x s = (outStage s.cfg s.mulr (chainOut s x), afterSample s x) := by
  unfold smpStmt
  simp (disch := decide) only [inGuardStmt_eq, bandStepStmt_eq, outStageStmt_eq, noteGuard_cfg,
    noteGuard_pos, noteGuard_mulr, noteGuard_bands, setBand_cfg, setBand_pos, setBand_mulr,
    setBand_bands_of_ne, setBand_noteGuard, noteGuard_noteGuard]
  simp only [chainOut, afterSample, chainFired, cascadeFired, cascadeFiredAt, ← Bool.or_assoc]
  rfl

end Pseudo

/-- Settles O30: SMP's word by its fields; the statements and the data-flow form leave one state. -/
theorem smpMeetsItsPseudocode : Obligations.SmpMeetsItsPseudocode := by
  refine ⟨fun _ _ => decode_of_op (w := 0x30000000#32) rfl rfl (.inl rfl), fun s d => ?_⟩
  rw [exec_smp_eq, Pseudo.smpStmt_eq]
  rfl

end Machine

end Sys2Proof
end

section
/-! The eq_chain family (spec/44_eq_chain.md R196): the chain as power-on reset leaves it, and that only
WR moves it from there. -/

namespace Sys2Proof

theorem F64.eq_zero_zero : F64.eq F64.zero F64.zero = true :=
  (F64.eq_iff F64.isNaN_zero F64.isNaN_zero).2 rfl

namespace Machine

/-! ### Flat bands -/

theorem SameSample.trans {z y x : B64} (hzy : SameSample z y) (hyx : SameSample y x) :
    SameSample z x := by
  obtain rfl | ⟨rfl, rfl⟩ := hzy
  · exact hyx
  · obtain rfl | ⟨rfl, -⟩ := hyx <;> exact .inr ⟨rfl, rfl⟩

/-- A band that no WR has moved since power-on reset: zero boost, engaged, the identity filter (R43). -/
structure FlatBand (r : BandRegs) : Prop where
  tgtBoost : r.tgt.boost = F64.zero
  curBoost : r.cur.boost = F64.zero
  tgtBypass : r.tgt.bypass = F64.zero
  curBypass : r.cur.bypass = F64.zero
  delay : DelayFinite r.delay
  coefs : r.coefs = identityCoefs

theorem resetBand_flat (cfg : Config) (b : Band) : FlatBand (resetBand cfg b) where
  tgtBoost := rfl
  curBoost := rfl
  tgtBypass := rfl
  curBypass := rfl
  delay := clearedDelay_finite
  coefs := resetBand_coefs cfg b

theorem FlatBand.clearDelay {r : BandRegs} (h : FlatBand r) : FlatBand (clearDelay r) :=
  { h with delay := clearedDelay_finite }

section
variable {cfg : Config} (hcfg : UsableConfig cfg)
include hcfg

/-- A smoother at +0.0 with target +0.0 stays there. -/
theorem tick_zero (p : Param) : tick cfg p F64.zero F64.zero = F64.zero :=
  tick_settled hcfg p F64.isFinite_zero F64.isFinite_zero rfl

section
variable {r : BandRegs} (h : FlatBand r) (pos : Nat) (b : Band) {u : B64}
include h

/-- Whatever the cadence, a flat band keeps the identity filter (R129, R181). -/
theorem FlatBand.bandRegs_coefs (u : B64) : (bandRegs cfg pos b u r).coefs = identityCoefs := by
  have hboost : (tickAll cfg r.cur r.tgt).boost = F64.zero := by
    rw [tickAll, h.curBoost, h.tgtBoost, tick_zero hcfg]
  rw [Machine.bandRegs_coefs]
  by_cases hupdate : cfg.coefUpdate = .perSample ∨ pos = 0
  · exact updatedCoefs_of_zero_boost hupdate (hboost ▸ F64.eq_zero_zero) _ _
  · exact (updatedCoefs_of_not_update hupdate _ _ _).trans h.coefs

theorem FlatBand.bandRegs (hu : F64.isFinite u = true) : FlatBand (bandRegs cfg pos b u r) where
  tgtBoost := by rw [bandRegs_tgt, h.tgtBoost]
  curBoost := by rw [bandRegs_cur, tickAll, h.curBoost, h.tgtBoost, tick_zero hcfg]
  tgtBypass := by rw [bandRegs_tgt, h.tgtBypass]
  curBypass := by rw [bandRegs_cur, tickAll, h.curBypass, h.tgtBypass, tick_zero hcfg]
  delay := by simpa using nextDelay_finite h.delay hu _
  coefs := h.bandRegs_coefs hcfg pos b u

/-- A flat band passes its finite input through (R183). -/
theorem FlatBand.bandOut (hu : F64.isFinite u = true) : SameSample (bandOut cfg pos b u r) u := by
  refine bandOut_of_identity_filter hu h.delay (h.bandRegs_coefs hcfg pos b u) ?_
  rw [h.curBypass, h.tgtBypass, tick_zero hcfg, F64.eq_zero_zero]

end

/-- Five flat bands in a row pass a finite sample through (R194). -/
theorem cascadeAt_of_flat {bs : Bands BandRegs} (h : ∀ b, FlatBand (bs.get b)) (pos : Nat) {u : B64}
    (hu : F64.isFinite u = true) (n : Nat) : SameSample (cascadeAt cfg pos bs u n) u := by
  induction n with
  | zero => exact .inl rfl
  | succ n ih =>
    exact ((h _).bandOut hcfg pos _ (cascadeAt_finite cfg pos bs hu n)).trans ih

end

/-! ### The output stage in the middle -/

/-- The two channel gains are 1.0 in the middle (R7). -/
theorem panGains_of_half {cfg : Config} (hpan : cfg.pan = F64.ofRatio false 1 2) :
    cfg.gl = F64.one ∧ cfg.gr = F64.one := by
  unfold Config.gl Config.gr
  rw [hpan]
  decide +kernel

/-- With MUL at 1.0 and PAN in the middle a finite sample leaves three times unchanged (R193). -/
theorem outStage_of_unity {cfg : Config} (hpan : cfg.pan = F64.ofRatio false 1 2) {y : B64}
    (hy : F64.isFinite y = true) : outStage cfg F64.one y = ⟨y, y, y⟩ := by
  obtain ⟨hgl, hgr⟩ := panGains_of_half hpan
  have hout : (outGain F64.one y).out = y := by
    rw [outGain, F64.mul_one_eq hy, guardFinite_of_finite hy]
  rw [outStage, hgl, hgr, hout, F64.mul_one_eq hy]

/-! ### Flat states -/

/-- What power-on reset with `cfg` sets and only WR can move: flat bands and MUL at 1.0. -/
structure FlatState (cfg : Config) (s : State) : Prop where
  config : s.cfg = cfg
  bands : ∀ b, FlatBand (s.bands.get b)
  mul : s.mulr = F64.one

section
variable {cfg : Config} {s : State} (h : FlatState cfg s)
include h

theorem FlatState.takeEvent (rest : List HostEvent) : FlatState cfg (takeEvent s rest) :=
  ⟨h.config, h.bands, h.mul⟩

theorem FlatState.of_reject {c : Code} {t : State} (ht : reject c s = .next t) :
    FlatState cfg t := by
  rw [reject_next ht]
  exact ⟨h.config, h.bands, h.mul⟩

theorem FlatState.of_respondOk {v : DataWord} {o : Option SampleOut} {t : State}
    (ht : respondOk v o s = .next t) : FlatState cfg t := by
  rw [respondOk_next ht]
  exact ⟨h.config, h.bands, h.mul⟩

theorem FlatState.clearFilters :
    FlatState cfg { s with bands := Bands.ofFn fun b => clearDelay (s.bands.get b), pos := 0 } where
  config := h.config
  bands b := by simpa using (h.bands b).clearDelay
  mul := h.mul

section
variable (hcfg : UsableConfig cfg)
include hcfg

theorem FlatState.afterSample (x : B64) : FlatState cfg (afterSample s x) where
  config := h.config
  bands b := by
    rw [afterSample_bands, h.config]
    exact (h.bands b).bandRegs hcfg s.pos b
      (cascadeAt_finite cfg s.pos s.bands (inGuard_finite x) b.index)
  mul := h.mul

/-- Every instruction but WR keeps the chain flat. -/
theorem FlatState.exec {i : Instr} (hi : ∀ a d, i ≠ .wr a d) {t : State}
    (ht : exec i s = .next t) : FlatState cfg t := by
  cases i with
  | wr a d => exact absurd rfl (hi a d)
  | rd a =>
    obtain ⟨-, e⟩ | ⟨-, e⟩ := execRd_cases a s
    · exact h.of_reject (e.symm.trans ht)
    · exact h.of_respondOk (e.symm.trans ht)
  | smp d => exact (h.afterSample hcfg (sampleOf d)).of_respondOk ht
  | srst => exact h.clearFilters.of_respondOk ht

theorem FlatState.performCommand {cw : CmdWord} {d : DataWord}
    (hnot : ∀ a d', decode cw d ≠ .ok (.wr a d')) {t : State}
    (ht : performCommand cw d s = .next t) : FlatState cfg t := by
  unfold Machine.performCommand at ht
  split at ht
  next i hi => exact h.exec hcfg (fun a d' hwr => hnot a d' (hwr ▸ hi)) ht
  next => exact h.of_reject ht

/-- The step of a command that is no WR completes, keeps the chain flat and takes the command from the
port. -/
theorem FlatState.step {e : HostEvent} (he : NotAWrite e) {rest : List HostEvent}
    (hp : s.port = e :: rest) : ∃ t, step s = .next t ∧ t.port = rest ∧ FlatState cfg t := by
  obtain ⟨g, cw, d, rfl, hnot⟩ := he
  obtain ⟨t, -, ht, hport, -⟩ := everyCommandCompletesInOneStep s g cw d rest hp
  rw [step_of_command hp] at ht ⊢
  exact ⟨t, ht, hport, (h.takeEvent rest).performCommand hcfg hnot ht⟩

/-- In a flat chain with PAN in the middle a finite sample comes out unchanged (R196). -/
theorem exec_smp_of_flat (hpan : cfg.pan = F64.ofRatio false 1 2) {x : B64}
    (hx : F64.isFinite x = true) : ∃ t y, exec (.smp x) s = .next t ∧
      t.resp = some ⟨0#4, 0#64, some ⟨y, y, y⟩⟩ ∧ SameSample y x := by
  have hin : (inGuard x).out = x := by rw [inGuard, guardFinite_of_finite hx]
  have hy : F64.isFinite (chainOut s x) = true := cascadeAt_finite _ _ _ (inGuard_finite x) 5
  have hout : SameSample (chainOut s x) x := by
    rw [chainOut, hin, h.config]
    exact cascadeAt_of_flat hcfg h.bands s.pos hx 5
  refine ⟨_, chainOut s x, exec_smp_eq x s, ?_, hout⟩
  rw [h.config, h.mul, outStage_of_unity hpan hy]
  rfl

end

end

theorem powerOn_flat (cfg : Config) (port : List HostEvent) :
    FlatState cfg { State.powerOn cfg with port := port } where
  config := rfl
  bands b := by simpa using resetBand_flat cfg b
  mul := rfl

theorem runSteps_succ_of_next {s t : State} (ht : step s = .next t) (n : Nat) :
    runSteps (n + 1) s = runSteps n t := by
  rw [runSteps, ht]

/-- A run of commands without WR keeps the chain flat and comes to what is pending behind it. -/
theorem FlatState.runSteps {cfg : Config} (hcfg : UsableConfig cfg) {before : List HostEvent}
    (hbefore : ∀ e ∈ before, NotAWrite e) (rest : List HostEvent) {s : State}
    (h : FlatState cfg s) (hp : s.port = before ++ rest) :
    FlatState cfg (runSteps before.length s) ∧ (runSteps before.length s).port = rest := by
  induction before generalizing s with
  | nil => exact ⟨h, hp⟩
  | cons e before ih =>
    rw [List.forall_mem_cons] at hbefore
    obtain ⟨t, hstep, hport, hflat⟩ := h.step hcfg hbefore.1 hp
    rw [List.length_cons, runSteps_succ_of_next hstep]
    exact ih hbefore.2 hflat hport

/-- Settles O52: the commands before the sample keep the chain as reset left it, and a flat chain is
transparent. -/
theorem flatChainIsTransparent : Obligations.FlatChainIsTransparent := by
  intro cfg before rest g x hcfg hpan hx hbefore
  obtain ⟨hflat, hport⟩ := (powerOn_flat cfg _).runSteps hcfg hbefore
    (.command g 0x30000000#32 x :: rest) rfl
  obtain ⟨t, y, ht, hresp, hy⟩ := exec_smp_of_flat (hflat.takeEvent rest) hcfg hpan hx
  exact ⟨t, _, (step_of_command hport).trans ht, hresp, hy, hy, hy⟩

end Machine

end Sys2Proof
end

section
/-! The control_access family (spec/45_control_access.md R212-R218): what WR does to each kind of
register it accepts, and what RD answers at each address of the map. -/

namespace Sys2Proof

/-- The word of RD decodes to RD, whatever D is (R93). -/
theorem decode_encodeWord_rd {a : Nat} (ha : a < 64) (d : DataWord) :
    decode (encodeWord (.rd a)) d = .ok (.rd a) := by
  obtain ⟨hop, hrsv, haddr⟩ := Laws.EncodedFields.rd a (by simpa [Instr.wellFormed, addrInRange])
  exact decode_eq_ok_iff.2 ⟨hrsv, .inr (.inl ⟨hop, congrArg Instr.rd haddr.symm⟩)⟩

namespace Machine

/-! ### The register map by ranges of addresses -/

section
variable {a : Nat}

theorem regAt_of_lt_mul (h : a < 0x14) :
    regAt a = .target (Param.ofIndex (a / 5)) (Band.ofIndex (a % 5)) := if_pos h

theorem regAt_of_current (h : 0x20 ≤ a) (h' : a < 0x34) :
    regAt a =
      .current (Param.ofIndex ((a - 0x20) / 5)) (Band.ofIndex ((a - 0x20) % 5)) := by
  unfold regAt
  rw [if_neg (by omega), if_neg (by omega), if_neg (by omega), if_pos h']

/-- The reserved addresses of R42. -/
theorem regAt_of_reserved (h : (0x15 ≤ a ∧ a ≤ 0x1F) ∨ a = 0x3D ∨ a = 0x3E) :
    regAt a = .reserved := by
  obtain ⟨hlo, hhi⟩ | rfl | rfl := h
  · unfold regAt
    rw [if_neg (by omega), if_neg (by omega), if_pos (by omega)]
  · rfl
  · rfl

end

/-! ### Writes -/

section
variable {v : B64} (p : Param) (b : Band) (s : State)

theorem writeParam_of_finite (h : F64.isFinite v = true) :
    writeParam p b v s = respondOk 0#64 none (writeTarget s p b (clampParam s.cfg p v)) := if_pos h

theorem writeParam_of_not_finite (h : F64.isFinite v = false) :
    writeParam p b v s = reject .errValue s := by
  simp [writeParam, h]

theorem writeMul_of_nonneg (h : F64.isFinite v = true) (h0 : F64.lt v F64.zero = false) :
    writeMul v s = respondOk 0#64 none { s with mulr := v } := by
  simp [writeMul, h, h0]

theorem writeMul_of_neg (h0 : F64.lt v F64.zero = true) : writeMul v s = reject .errValue s := by
  simp [writeMul, h0]

theorem writeMul_of_not_finite (h : F64.isFinite v = false) :
    writeMul v s = reject .errValue s := by
  simp [writeMul, h]

end

theorem exec_wr_of_target {a : Nat} {p : Param} {b : Band} (h : regAt a = .target p b)
    (d : DataWord) (s : State) : exec (.wr a d) s = writeParam p b d s := by
  simp [exec, execWr, h]

theorem exec_wr_mul (d : DataWord) (s : State) : exec (.wr 0x14 d) s = writeMul d s := rfl

theorem exec_wr_status (d : DataWord) (s : State) :
    exec (.wr 0x3F d) s = respondOk 0#64 none { s with status := s.status.write d } := rfl

/-- Write-1-to-clear, field by field (R214). -/
theorem Status.write_eq_clear (st : Status) (d : DataWord) :
    st.write d =
      ⟨if d.getLsbD 0 then false else st.err, if d.getLsbD 1 then false else st.nanf,
        if d.getLsbD 0 then 0#4 else st.lastErr⟩ := by
  unfold Status.write
  congr 1
  · cases d.getLsbD 0 <;> simp
  · cases d.getLsbD 1 <;> simp

/-- Settles O19: address 5p + b is that target's, and the clamps are R213's. -/
theorem wrStoresTheClampedTarget : Obligations.WrStoresTheClampedTarget := by
  intro s p b d hd
  rw [exec_wr_of_target (regAt_target p b), writeParam_of_finite p b s hd]
  cases p <;> rfl

/-- Settles O20: up to 0x13 the address is a target's, at 0x14 it is MUL's, and both refuse the
value. -/
theorem wrRejectsNonFiniteValues : Obligations.WrRejectsNonFiniteValues := by
  intro s a d ha hd
  have hrej : exec (.wr a d) s = reject .errValue s := by
    obtain hlt | rfl : a < 0x14 ∨ a = 0x14 := by omega
    · rw [exec_wr_of_target (regAt_of_lt_mul hlt), writeParam_of_not_finite _ _ s hd]
    · rw [exec_wr_mul, writeMul_of_not_finite s hd]
  rw [hrej, reject_eq]
  rfl

/-- Settles O21: MUL is written unclamped, and only the comparison with 0.0 decides. -/
theorem wrMulStoresUnclamped : Obligations.WrMulStoresUnclamped := by
  intro s d hd
  refine ⟨fun h0 => ?_, fun h0 => ?_⟩
  · rw [exec_wr_mul, writeMul_of_nonneg s hd h0, respondOk_eq]
    rfl
  · rw [exec_wr_mul, writeMul_of_neg s h0, reject_eq]
    rfl

/-- Settles O22: the write to STATUS is accepted whatever the mask. -/
theorem wrStatusClearsWrittenBits : Obligations.WrStatusClearsWrittenBits := by
  intro s d
  rw [exec_wr_status, Status.write_eq_clear, respondOk_eq]
  rfl

/-! ### Reads -/

section
variable {a : Nat}

theorem exec_rd_of_reserved (h : regAt a = .reserved) (s : State) :
    exec (.rd a) s = reject .errAddr s := by
  simp [exec, execRd, h, Reg.access]

theorem exec_rd_of_mapped {r : Reg} (h : regAt a = r) (hr : r ≠ .reserved) (s : State) :
    exec (.rd a) s = respondOk (readReg s r) none s := by
  subst h
  obtain ⟨hres, -⟩ | ⟨-, e⟩ := execRd_cases a s
  · exact absurd hres hr
  · exact e

end

/-- Settles O28: a range of targets, a range of currents, and at every other mapped address one
register of its own. -/
theorem rdReturnsTheMappedRegister : Obligations.RdReturnsTheMappedRegister := by
  intro s a ha
  refine ⟨decode_encodeWord_rd ha, ?_⟩
  split
  case isTrue hres =>
    rw [exec_rd_of_reserved (regAt_of_reserved hres), reject_eq]
    rfl
  case isFalse hmapped =>
    obtain htgt | ⟨hlo, hcur⟩ | hone : a < 0x14 ∨ (0x20 ≤ a ∧ a < 0x34) ∨
        (a = 0x14 ∨ a = 0x34 ∨ a = 0x35 ∨ a = 0x36 ∨ a = 0x37 ∨ a = 0x38 ∨ a = 0x39 ∨ a = 0x3A ∨
          a = 0x3B ∨ a = 0x3C ∨ a = 0x3F) := by omega
    · rw [exec_rd_of_mapped (regAt_of_lt_mul htgt) nofun, respondOk_eq, if_pos htgt]
      rfl
    · rw [exec_rd_of_mapped (regAt_of_current hlo hcur) nofun, respondOk_eq, if_neg (by omega),
        if_neg (by omega), if_pos hcur]
      rfl
    · obtain rfl | rfl | rfl | rfl | rfl | rfl | rfl | rfl | rfl | rfl | rfl := hone <;> rfl

end Machine

end Sys2Proof
end

section
/-! The exceptions family (spec/60_exceptions.md R231-R238): which code each command answers, and what
a command does to STATUS. -/

namespace Sys2Proof

namespace Machine

/-! ### The address ranges of the causes -/

section
variable {a : Nat}

/-- The addresses from 0x20 to 0x3C are read-only (R40, R210). -/
theorem regAt_access_of_readOnly (h : 0x20 ≤ a ∧ a ≤ 0x3C) : (regAt a).access = .ro := by
  obtain hcur | hone : a < 0x34 ∨ (a = 0x34 ∨ a = 0x35 ∨ a = 0x36 ∨ a = 0x37 ∨ a = 0x38 ∨ a = 0x39 ∨
      a = 0x3A ∨ a = 0x3B ∨ a = 0x3C) := by omega
  · rw [regAt_of_current h.1 hcur]
    rfl
  · obtain rfl | rfl | rfl | rfl | rfl | rfl | rfl | rfl | rfl := hone <;> rfl

/-- No other 6-bit address is reserved (R42). -/
theorem regAt_ne_reserved (ha : a < 64)
    (h : ¬((0x15 ≤ a ∧ a ≤ 0x1F) ∨ a = 0x3D ∨ a = 0x3E)) : regAt a ≠ .reserved := by
  intro hres
  unfold regAt at hres
  split_ifs at hres <;> omega

/-- STATUS stands at 0x3F alone. -/
theorem eq_of_regAt_status (h : regAt a = .status) : a = 0x3F := by
  unfold regAt at h
  split_ifs at h
  assumption

theorem exec_wr_of_reserved (h : regAt a = .reserved) (d : DataWord) (s : State) :
    exec (.wr a d) s = reject .errAddr s := by
  simp [exec, execWr, h]

theorem exec_wr_of_readOnly (h : (regAt a).access = .ro) (d : DataWord) (s : State) :
    exec (.wr a d) s = reject .errRo s := by
  unfold exec execWr
  cases hreg : regAt a <;> simp [hreg, Reg.access] at h ⊢

end

/-! ### The code a command answers -/

/-- The command completes, and its response has this code. -/
def Answers (res : Result) (code : BitVec 4) : Prop :=
  ∃ t r, res = .next t ∧ t.resp = some r ∧ r.code = code

theorem answers_reject (c : Code) (s : State) : Answers (reject c s) c.bits :=
  ⟨_, _, reject_eq c s, rfl, rfl⟩

theorem answers_respondOk (v : DataWord) (o : Option SampleOut) (s : State) :
    Answers (respondOk v o s) Code.ok.bits :=
  ⟨_, _, respondOk_eq v o s, rfl, rfl⟩

/-- WR looks at the address first, and at the value only where the register can be written (R235). -/
theorem exec_wr_answers {a : Nat} (ha : a < 64) (s : State) (d : DataWord) :
    Answers (exec (.wr a d) s)
    (if (0x15 ≤ a ∧ a ≤ 0x1F) ∨ a = 0x3D ∨ a = 0x3E then 1#4
      else if 0x20 ≤ a ∧ a ≤ 0x3C then 2#4
      else if a ≤ 0x14 ∧ (F64.isFinite d = false ∨ (a = 0x14 ∧ F64.lt d F64.zero = true)) then 3#4
      else 0#4) := by
  split_ifs with hres hro hval
  · rw [exec_wr_of_reserved (regAt_of_reserved hres)]
    exact answers_reject .errAddr s
  · rw [exec_wr_of_readOnly (regAt_access_of_readOnly hro)]
    exact answers_reject .errRo s
  · obtain ⟨hparam, hinf | ⟨rfl, hneg⟩⟩ := hval
    · rw [wrRejectsNonFiniteValues s a d hparam hinf]
      exact answers_reject .errValue s
    · rw [exec_wr_mul, writeMul_of_neg s hneg]
      exact answers_reject .errValue s
  · obtain htgt | rfl | rfl : a < 0x14 ∨ a = 0x14 ∨ a = 0x3F := by omega
    · have hfin : F64.isFinite d = true := by
        by_contra hinf
        exact hval ⟨htgt.le, .inl (by simpa using hinf)⟩
      rw [exec_wr_of_target (regAt_of_lt_mul htgt), writeParam_of_finite _ _ s hfin]
      exact answers_respondOk ..
    · have hok : F64.isFinite d = true ∧ F64.lt d F64.zero = false := by simpa using hval
      rw [exec_wr_mul, writeMul_of_nonneg s hok.1 hok.2]
      exact answers_respondOk ..
    · rw [exec_wr_status]
      exact answers_respondOk ..

/-- RD refuses the reserved addresses alone. -/
theorem exec_rd_answers {a : Nat} (ha : a < 64) (s : State) : Answers (exec (.rd a) s)
    (if (0x15 ≤ a ∧ a ≤ 0x1F) ∨ a = 0x3D ∨ a = 0x3E then 1#4 else 0#4) := by
  split_ifs with hres
  · rw [exec_rd_of_reserved (regAt_of_reserved hres)]
    exact answers_reject .errAddr s
  · rw [exec_rd_of_mapped rfl (regAt_ne_reserved ha hres)]
    exact answers_respondOk ..

theorem exec_smp_answers (s : State) (d : DataWord) : Answers (exec (.smp d) s) 0#4 :=
  answers_respondOk ..

theorem exec_srst_answers (s : State) : Answers (exec .srst s) 0#4 := answers_respondOk ..

theorem performCommand_of_ok {cw : CmdWord} {d : DataWord} {i : Instr} (h : decode cw d = .ok i)
    (s : State) : performCommand cw d s = exec i s := by
  simp [performCommand, h]

/-- Settles O15: an illegal word is refused before its instruction is known; of the legal ones WR and
RD have causes of their own, SMP and SRST none. -/
theorem errorCodesFollowThePriority : Obligations.ErrorCodesFollowThePriority := by
  rintro s g cw d rest _ _ _ hp rfl rfl rfl
  rw [← opField_eq_slice, ← rsvField_eq_slice, ← addrField_eq_slice, step_of_command hp]
  have ha := addrField_lt cw
  have illegal {e : DecodeError} (h : decode cw d = .error e) :
      Answers (performCommand cw d (takeEvent s rest)) 4#4 := by
    rw [performCommand_of_error h]
    exact answers_reject .errOpcode _
  change Answers _ _
  obtain ⟨hr, h⟩ | ⟨hr, hop, h⟩ | ⟨hr, hop, h⟩ | ⟨hr, hop, haddr, h⟩ | ⟨hr, hop, haddr, h⟩ |
      ⟨hr, hop, haddr, h⟩ | ⟨hr, h1, h2, h3, h4, h⟩ := decode_cases cw d
  · rw [if_pos (by omega)]
    exact illegal h
  · rw [performCommand_of_ok h]
    simpa [hr, hop] using exec_wr_answers ha (takeEvent s rest) d
  · rw [performCommand_of_ok h]
    simpa [hr, hop] using exec_rd_answers ha (takeEvent s rest)
  · rw [performCommand_of_ok h]
    simpa [hr, hop, haddr] using exec_smp_answers (takeEvent s rest) d
  · rw [performCommand_of_ok h]
    simpa [hr, hop, haddr] using exec_srst_answers (takeEvent s rest)
  · rw [if_pos (by omega)]
    exact illegal h
  · rw [if_pos (by omega)]
    exact illegal h

/-! ### STATUS -/

/-- Settles O16: a code other than 0 is a rejection's, and a rejection writes STATUS and the response. -/
theorem rejectionsChangeOnlyStatus : Obligations.RejectionsChangeOnlyStatus := by
  intro s t g cw d rest r hp ht hresp hcode
  rw [step_of_command hp] at ht
  obtain ⟨c, -, h⟩ | ⟨v, o, u, h, -⟩ := performCommand_rejects_or_accepts cw d (takeEvent s rest)
  · obtain rfl := reject_next (h.symm.trans ht)
    obtain rfl := Option.some.inj hresp
    rfl
  · obtain rfl := respondOk_next (h.symm.trans ht)
    obtain rfl := Option.some.inj hresp
    exact absurd rfl hcode

/-- What an instruction does to STATUS: it is rejected, or it is accepted and an SMP, a write of STATUS
or one that leaves STATUS alone. -/
theorem exec_status_cases {i : Instr} {s t : State} (ht : exec i s = .next t) :
    (∃ c, c ≠ Code.ok ∧ (∀ d, i ≠ .smp d) ∧ t.resp = some (rejection c) ∧
      t.status = s.status.recordReject c) ∨
    ((∃ v o, t.resp = some ⟨Code.ok.bits, v, o⟩) ∧
      ((∃ d, i = .smp d ∧ t.status = s.status.recordGuard (chainFired s d)) ∨
        (∃ d, i = .wr 0x3F d ∧ t.status = s.status.write d) ∨
        ((∀ d, i ≠ .smp d) ∧ t.status = s.status))) := by
  cases i with
  | wr a d =>
    obtain ⟨c, hc, h⟩ | ⟨hreg, h⟩ | ⟨-, -, -, h⟩ | ⟨p, b, -, -, h⟩ := execWr_cases a d s
    · obtain rfl := reject_next (h.symm.trans ht)
      exact .inl ⟨c, hc, nofun, rfl, rfl⟩
    · obtain rfl := respondOk_next (h.symm.trans ht)
      obtain rfl := eq_of_regAt_status hreg
      exact .inr ⟨⟨_, _, rfl⟩, .inr (.inl ⟨d, rfl, rfl⟩)⟩
    · obtain rfl := respondOk_next (h.symm.trans ht)
      exact .inr ⟨⟨_, _, rfl⟩, .inr (.inr ⟨nofun, rfl⟩)⟩
    · obtain rfl := respondOk_next (h.symm.trans ht)
      exact .inr ⟨⟨_, _, rfl⟩, .inr (.inr ⟨nofun, rfl⟩)⟩
  | rd a =>
    obtain ⟨-, h⟩ | ⟨-, h⟩ := execRd_cases a s
    · obtain rfl := reject_next (h.symm.trans ht)
      exact .inl ⟨.errAddr, by decide, nofun, rfl, rfl⟩
    · obtain rfl := respondOk_next (h.symm.trans ht)
      exact .inr ⟨⟨_, _, rfl⟩, .inr (.inr ⟨nofun, rfl⟩)⟩
  | smp d =>
    obtain rfl := respondOk_next ht
    exact .inr ⟨⟨_, _, rfl⟩, .inl ⟨d, rfl, rfl⟩⟩
  | srst =>
    obtain rfl := respondOk_next ht
    exact .inr ⟨⟨_, _, rfl⟩, .inr (.inr ⟨nofun, rfl⟩)⟩

theorem Code.bits_ne_zero {c : Code} (h : c ≠ .ok) : c.bits ≠ 0#4 := by
  cases c
  case ok => exact absurd rfl h
  all_goals decide

/-- Settles O17: a rejection sets ERR and keeps NANF, an SMP can only set NANF, the mask clears the bits
it has, and every other acceptance keeps STATUS. -/
theorem flagsChangeOnlyAsNamed : Obligations.FlagsChangeOnlyAsNamed := by
  intro i s t ht
  obtain ⟨c, hc, hsmp, hresp, hst⟩ |
      ⟨⟨v, o, hresp⟩, ⟨d, rfl, hst⟩ | ⟨d, rfl, hst⟩ | ⟨hsmp, hst⟩⟩ := exec_status_cases ht
  case inl =>
    have hcode := Code.bits_ne_zero hc
    simp +contextual [hsmp, hresp, hst, rejection, hcode]
  case inr.inl => simp +contextual [hresp, hst, Code.bits]
  case inr.inr.inl => simp +contextual [hresp, hst, Code.bits]
  case inr.inr.inr => simp +contextual [hsmp, hresp, hst, Code.bits]

/-- Settles O51: what leaves the output guard is finite, the channel gains keep it so, and an SMP can
set NANF alone. -/
theorem smpOutputsAreFinite : Obligations.SmpOutputsAreFinite := by
  intro s d hcfg
  obtain ⟨hm, hl, hr⟩ := outStage_finite hcfg s.mulr (chainOut s d)
  exact ⟨_, _, exec_smp_eq d s, rfl, hm, hl, hr, rfl, rfl⟩

end Machine

end Sys2Proof
end

section
/-! Encoding (spec/30_encoding.md R90-R98): the decoder and the encoder undo each other, and every
line of text stands for encodings of well-formed instructions. -/

namespace Sys2Proof

/-! ### The fields of an encoding -/

/-- A well-formed instruction is encoded with its opcode, RSV zero and its address (R93). -/
theorem encodeWord_fields (i : Instr) : Laws.EncodedFields.Statement i := by
  cases i with
  | wr a d => exact Laws.EncodedFields.wr a d
  | rd a => exact Laws.EncodedFields.rd a
  | smp d => exact Laws.EncodedFields.smp d
  | srst => exact Laws.EncodedFields.srst

/-- A command word is known by its three fields (R90). -/
theorem eq_of_fields_eq {cw cw' : CmdWord} (hop : opField cw = opField cw')
    (hrsv : rsvField cw = rsvField cw') (haddr : addrField cw = addrField cw') : cw = cw' := by
  apply BitVec.eq_of_toNat_eq
  rw [fields_eq cw, fields_eq cw', hop, hrsv, haddr]

/-- A decoded instruction is well formed: ADDR has six bits (R91). -/
theorem wellFormed_of_decode {cw : CmdWord} {d : DataWord} {i : Instr} (h : decode cw d = .ok i) :
    i.wellFormed = true := by
  have ha : addrInRange (addrField cw) = true := decide_eq_true (addrField_lt cw)
  obtain ⟨-, ⟨-, rfl⟩ | ⟨-, rfl⟩ | ⟨-, -, rfl⟩ | ⟨-, -, rfl⟩⟩ := decode_eq_ok_iff.1 h
  · exact ha
  · exact ha
  · rfl
  · rfl

/-- The word it was read from has the fields of its encoding (R93). -/
theorem fields_of_decode {cw : CmdWord} {d : DataWord} {i : Instr} (h : decode cw d = .ok i) :
    opField cw = Laws.EncodedFields.opcode i ∧ rsvField cw = 0 ∧
      addrField cw = Laws.EncodedFields.address i := by
  obtain ⟨hrsv, ⟨hop, rfl⟩ | ⟨hop, rfl⟩ | ⟨hop, haddr, rfl⟩ | ⟨hop, haddr, rfl⟩⟩ :=
    decode_eq_ok_iff.1 h
  · exact ⟨hop, hrsv, rfl⟩
  · exact ⟨hop, hrsv, rfl⟩
  · exact ⟨hop, hrsv, haddr⟩
  · exact ⟨hop, hrsv, haddr⟩

/-- RD and SRST ignore the data operand, the others carry it (R92). -/
theorem encodeData_of_decode {cw : CmdWord} {d : DataWord} {i : Instr} (h : decode cw d = .ok i) :
    encodeData i = d ∨ ∃ a, i = .rd a ∨ i = .srst := by
  obtain ⟨-, ⟨-, rfl⟩ | ⟨-, rfl⟩ | ⟨-, -, rfl⟩ | ⟨-, -, rfl⟩⟩ := decode_eq_ok_iff.1 h
  · exact .inl rfl
  · exact .inr ⟨_, .inl rfl⟩
  · exact .inl rfl
  · exact .inr ⟨0, .inr rfl⟩

namespace Machine

/-- Settles O5: the encoding has RSV zero and the fields by which the decoder selects the
instruction. -/
theorem decodeOfEncodeGivesTheInstruction : Obligations.DecodeOfEncodeGivesTheInstruction := by
  intro i hi
  obtain ⟨hop, hrsv, haddr⟩ := encodeWord_fields i hi
  refine decode_eq_ok_iff.2 ⟨hrsv, ?_⟩
  cases i with
  | wr a d => exact .inl ⟨hop, congrArg (Instr.wr · d) haddr.symm⟩
  | rd a => exact .inr (.inl ⟨hop, congrArg Instr.rd haddr.symm⟩)
  | smp d => exact .inr (.inr (.inl ⟨hop, haddr, rfl⟩))
  | srst => exact .inr (.inr (.inr ⟨hop, haddr, rfl⟩))

/-- Settles O6: the fields of the word are those of the encoding, and fields determine the word. -/
theorem encodeOfDecodeGivesTheWord : Obligations.EncodeOfDecodeGivesTheWord := by
  intro cw d i h
  have hwf := wellFormed_of_decode h
  obtain ⟨hop, hrsv, haddr⟩ := encodeWord_fields i hwf
  obtain ⟨hop', hrsv', haddr'⟩ := fields_of_decode h
  exact ⟨hwf, eq_of_fields_eq (hop.trans hop'.symm) (hrsv.trans hrsv'.symm)
    (haddr.trans haddr'.symm), encodeData_of_decode h⟩

end Machine

/-! ### The commands of a line of text -/

namespace Asm

/-- Every command is the encoding of a well-formed instruction. -/
def Encodings (cmds : List Words) : Prop :=
  ∀ c ∈ cmds, ∃ i : Instr, i.wellFormed = true ∧ c = encode i

theorem encodings_nil : Encodings [] := nofun

theorem Encodings.cons {i : Instr} (hi : i.wellFormed = true) {cmds : List Words}
    (h : Encodings cmds) : Encodings (encode i :: cmds) := by
  rintro c (_ | ⟨_, hc⟩)
  · exact ⟨i, hi, rfl⟩
  · exact h c hc

theorem encodings_single {i : Instr} (hi : i.wellFormed = true) : Encodings [encode i] :=
  encodings_nil.cons hi

/-- What a list of names gives satisfies what each of its entries does. -/
theorem of_lookup_eq_some {α β : Type} [BEq α] [LawfulBEq α] {l : List (α × β)} {P : β → Prop}
    (hl : ∀ p ∈ l, P p.2) {k : α} {v : β} (h : l.lookup k = some v) : P v := by
  obtain ⟨l₁, l₂, rfl, -⟩ := List.lookup_eq_some_iff.1 h
  exact hl (k, v) (by simp)

/-- The address strings of R41 name addresses of parameter registers. -/
theorem addrString_lt {t : List Char} {a : Nat} (h : addrString t = some a) : a < 64 :=
  of_lookup_eq_some (P := (· < 64)) (by decide) h

theorem numericAddr_lt {t : List Char} {a : Nat} (h : numericAddr t = some a) : a < 64 := by
  unfold numericAddr at h
  split at h
  · split at h
    · split at h
      next hlt => exact Option.some.inj h ▸ hlt
      next => cases h
    · cases h
  · cases h

/-- Every register operand is a 6-bit address (R97). -/
theorem reg_lt {t : List Char} {a : Nat} (h : reg t = some a) : a < 64 := by
  unfold reg at h
  split at h
  next _ hname =>
    cases h
    exact of_lookup_eq_some (P := (· < 64)) (by decide) hname
  next =>
    split at h
    next _ hstring =>
      cases h
      exact addrString_lt hstring
    next => exact numericAddr_lt h

theorem bandNumber_le {t : List Char} {n : Nat} (h : bandNumber t = some n) : n ≤ 5 := by
  unfold bandNumber at h
  split at h
  · split at h
    next hn => exact Option.some.inj h ▸ hn.2
    next => cases h
  · cases h

theorem wellFormed_wr {a : Nat} (ha : a < 64) (d : DataWord) : (Instr.wr a d).wellFormed = true :=
  decide_eq_true ha

theorem asmWr_encodings {a : Nat} (ha : a < 64) {v : List Char} {cmds : List Words}
    (h : asmWr a v = some cmds) : Encodings cmds := by
  obtain ⟨d, -, rfl⟩ := Option.map_eq_some_iff.1 h
  exact encodings_single (wellFormed_wr ha d)

theorem asmBlock_encodings {vs : List (List Char)} {cmds : List Words}
    (h : asmBlock vs = some cmds) : Encodings cmds := by
  induction vs generalizing cmds with
  | nil =>
    cases h
    exact encodings_nil
  | cons v vs ih =>
    unfold asmBlock at h
    split at h
    next d rest _ hrest =>
      cases h
      exact (ih hrest).cons rfl
    next => cases h

theorem asmDescribe_encodings : Encodings asmDescribe := by
  intro c hc
  obtain ⟨k, hk, rfl⟩ := List.mem_map.1 hc
  rw [List.mem_range] at hk
  exact ⟨.rd (0x20 + k), decide_eq_true (by omega), rfl⟩

/-- Every mnemonic gives encodings, whatever its operands are. -/
theorem asmCommand_encodings {k : Mnemonic} {ops : List (List Char)} {cmds : List Words}
    (h : asmCommand k ops = some cmds) : Encodings cmds := by
  unfold asmCommand at h
  split at h
  case h_1 r v => -- wr
    obtain ⟨a, ha, hwr⟩ := Option.bind_eq_some_iff.1 h
    exact asmWr_encodings (reg_lt ha) hwr
  case h_2 r => -- rd
    obtain ⟨a, ha, rfl⟩ := Option.map_eq_some_iff.1 h
    exact encodings_single (decide_eq_true (reg_lt ha))
  case h_3 v => -- smp
    obtain ⟨d, -, rfl⟩ := Option.map_eq_some_iff.1 h
    exact encodings_single rfl
  case h_5 r v => -- set
    obtain ⟨a, ha, hwr⟩ := Option.bind_eq_some_iff.1 h
    exact asmWr_encodings (addrString_lt ha) hwr
  case h_9 b | h_10 b => -- bypass, engage
    obtain ⟨n, hn, rfl⟩ := Option.map_eq_some_iff.1 h
    have := bandNumber_le hn
    exact encodings_single (wellFormed_wr (by omega) _)
  case h_11 v vs => exact asmBlock_encodings h -- block
  case h_12 n => -- silence
    obtain ⟨k, -, rfl⟩ := Option.map_eq_some_iff.1 h
    exact fun c hc => ⟨.smp F64.zero, rfl, List.eq_of_mem_replicate hc⟩
  case h_13 => -- describe
    cases h
    exact asmDescribe_encodings
  case h_14 => cases h -- no such operands
  all_goals -- srst, clrerr, clrnan, clrstat
    cases h
    exact encodings_single rfl

theorem assemble_encodings {line : List Char} {cmds : List Words}
    (h : assemble line = some cmds) : Encodings cmds := by
  unfold assemble at h
  split at h
  · cases h
    exact encodings_nil
  · obtain ⟨k, -, hk⟩ := Option.bind_eq_some_iff.1 h
    exact asmCommand_encodings hk

end Asm

namespace Machine

/-- Settles O9: a line gives encodings of well-formed instructions, and these decode. -/
theorem assembledCommandsAreLegal : Obligations.AssembledCommandsAreLegal := by
  intro line cmds h c hc
  obtain ⟨i, hi, rfl⟩ := Asm.assemble_encodings h c hc
  exact ⟨i, hi, decodeOfEncodeGivesTheInstruction i hi⟩

end Machine

end Sys2Proof
end

section
/-! Steps (spec/10_state.md R38, R43; spec/60_exceptions.md R243, R248;
spec/70_reset_and_hazards.md R260, R262): what performs which event, what every step leaves
unchanged, and the invariants along power-on resets and commands alike. -/

namespace Sys2Proof

namespace Machine

/-! ### Which event a step performs -/

theorem step_of_idle {s : State} (hp : s.port = []) : step s = .next s := by
  simp [step, stepCore, hp]

theorem step_of_powerOn {s : State} {cfg : Config} {rest : List HostEvent}
    (hp : s.port = .powerOn cfg :: rest) : step s = performPowerOn cfg (takeEvent s rest) := by
  simp [step, stepCore, hp, perform]

theorem performPowerOn_of_legal {cfg : Config} (h : cfg.legal = true) (s : State) :
    performPowerOn cfg s = .next { State.powerOn cfg with port := s.port } := if_pos h

theorem performPowerOn_of_illegal {cfg : Config} (h : cfg.legal = false) (s : State) :
    performPowerOn cfg s = .refused .illegalConfiguration := by
  simp [performPowerOn, h]

theorem performPowerOn_next {cfg : Config} {s t : State} (h : performPowerOn cfg s = .next t) :
    cfg.legal = true ∧ t = { State.powerOn cfg with port := s.port } := by
  unfold performPowerOn at h
  split at h
  next hlegal => exact ⟨hlegal, (Host.Outcome.next.inj h).symm⟩
  next => cases h

/-- Settles O11: an empty port is the idle step. -/
theorem idleCoreHoldsItsState : Obligations.IdleCoreHoldsItsState := fun _ => step_of_idle

/-- Settles O10: the command is taken from the port, decoded and run. -/
theorem stepRunsTheDecodedCommand : Obligations.StepRunsTheDecodedCommand := by
  intro s g cw d rest i hp hi
  rw [step_of_command hp, performCommand_of_ok hi]
  rfl

/-- Settles O2: legality decides whether the reset is performed; of the other steps, idling and
commands, none is refused. -/
theorem powerOnEventSamplesItsConfiguration :
    Obligations.PowerOnEventSamplesItsConfiguration := by
  refine ⟨fun s cfg rest hp => ?sampled, fun s => ?stopped⟩
  case sampled =>
    rw [step_of_powerOn hp]
    exact ⟨fun hlegal => performPowerOn_of_legal hlegal _,
      fun hillegal => performPowerOn_of_illegal hillegal _⟩
  case stopped =>
    obtain ⟨-, h⟩ | ⟨g, cw, d, rest, i, -, -, h⟩ | ⟨g, cw, d, rest, e, -, -, h⟩ |
      ⟨cfg, rest, -, -, h⟩ | ⟨cfg, rest, hp, hillegal, h⟩ := step_cases s
    · exact .inl ⟨s, h⟩
    · rw [h]
      exact .inl (exec_completes i _)
    · exact .inl ⟨_, h⟩
    · exact .inl ⟨_, h⟩
    · exact .inr ⟨cfg, rest, hp, hillegal, h⟩

/-! ### What a command leaves unchanged -/

/-- No instruction touches the configuration (R262) or the events still to come (log 4). -/
theorem exec_cfg_port {i : Instr} {s t : State} (ht : exec i s = .next t) :
    t.cfg = s.cfg ∧ t.port = s.port := by
  cases i with
  | wr a d =>
    obtain ⟨c, -, h⟩ | ⟨-, h⟩ | ⟨-, -, -, h⟩ | ⟨p, b, -, -, h⟩ := execWr_cases a d s
    · obtain rfl := reject_next (h.symm.trans ht)
      exact ⟨rfl, rfl⟩
    · obtain rfl := respondOk_next (h.symm.trans ht)
      exact ⟨rfl, rfl⟩
    · obtain rfl := respondOk_next (h.symm.trans ht)
      exact ⟨rfl, rfl⟩
    · obtain rfl := respondOk_next (h.symm.trans ht)
      exact ⟨rfl, rfl⟩
  | rd a =>
    obtain ⟨-, h⟩ | ⟨-, h⟩ := execRd_cases a s
    · obtain rfl := reject_next (h.symm.trans ht)
      exact ⟨rfl, rfl⟩
    · obtain rfl := respondOk_next (h.symm.trans ht)
      exact ⟨rfl, rfl⟩
  | smp d =>
    obtain rfl := respondOk_next ht
    exact ⟨rfl, rfl⟩
  | srst =>
    obtain rfl := respondOk_next ht
    exact ⟨rfl, rfl⟩

theorem performCommand_cfg_port {cw : CmdWord} {d : DataWord} {s t : State}
    (ht : performCommand cw d s = .next t) : t.cfg = s.cfg ∧ t.port = s.port := by
  unfold performCommand at ht
  split at ht
  · exact exec_cfg_port ht
  · obtain rfl := reject_next ht
    exact ⟨rfl, rfl⟩

/-- Everything a step that answers a next state has done: idled, performed a command or performed a
power-on reset. -/
theorem step_next_cases {s t : State} (ht : step s = .next t) :
    t = s ∨
    (∃ g cw d rest, s.port = .command g cw d :: rest ∧
      performCommand cw d (takeEvent s rest) = .next t) ∨
    (∃ cfg rest, s.port = .powerOn cfg :: rest ∧ cfg.legal = true ∧
      t = { State.powerOn cfg with port := rest }) := by
  match hp : s.port with
  | [] =>
    rw [step_of_idle hp] at ht
    exact .inl (Host.Outcome.next.inj ht).symm
  | .command g cw d :: rest =>
    rw [step_of_command hp] at ht
    exact .inr (.inl ⟨g, cw, d, rest, rfl, ht⟩)
  | .powerOn cfg :: rest =>
    rw [step_of_powerOn hp] at ht
    obtain ⟨hlegal, rfl⟩ := performPowerOn_next ht
    exact .inr (.inr ⟨cfg, rest, rfl, hlegal, rfl⟩)

/-- Settles O18: idling and commands keep the configuration, and a reset samples the event's. -/
theorem configurationChangesOnlyAtReset : Obligations.ConfigurationChangesOnlyAtReset := by
  intro s t ht
  obtain rfl | ⟨g, cw, d, rest, -, hcmd⟩ | ⟨cfg, rest, hp, -, rfl⟩ := step_next_cases ht
  · exact .inl rfl
  · exact .inl (performCommand_cfg_port hcmd).1
  · exact .inr ⟨cfg, rest, hp, rfl⟩

/-! ### The events still to come do not matter -/

/-- The same answer, with `rest` pending. -/
def withPort (rest : List HostEvent) : Result → Result
  | .next t => .next (takeEvent t rest)
  | .fault r => .fault r
  | .refused r => .refused r

section
variable (rest : List HostEvent) (s : State)

theorem writeParam_takeEvent (p : Param) (b : Band) (v : B64) :
    writeParam p b v (takeEvent s rest) = withPort rest (writeParam p b v s) := by
  unfold writeParam
  split <;> rfl

theorem writeMul_takeEvent (v : B64) :
    writeMul v (takeEvent s rest) = withPort rest (writeMul v s) := by
  unfold writeMul
  split <;> rfl

theorem execWr_takeEvent (a : Nat) (d : DataWord) :
    execWr a d (takeEvent s rest) = withPort rest (execWr a d s) := by
  unfold execWr
  cases regAt a with
  | target p b => exact writeParam_takeEvent rest s p b d
  | mul => exact writeMul_takeEvent rest s d
  | _ => rfl

/-- The value RD reads is that of a register of the map, and the port is none. -/
theorem readReg_takeEvent (r : Reg) : readReg (takeEvent s rest) r = readReg s r := by
  cases r <;> rfl

theorem execRd_takeEvent (a : Nat) :
    execRd a (takeEvent s rest) = withPort rest (execRd a s) := by
  unfold execRd
  rw [readReg_takeEvent]
  cases (regAt a).access <;> rfl

theorem exec_takeEvent (i : Instr) :
    exec i (takeEvent s rest) = withPort rest (exec i s) := by
  cases i with
  | wr a d => exact execWr_takeEvent rest s a d
  | rd a => exact execRd_takeEvent rest s a
  | smp d => rfl
  | srst => rfl

theorem performCommand_takeEvent (cw : CmdWord) (d : DataWord) :
    performCommand cw d (takeEvent s rest) = withPort rest (performCommand cw d s) := by
  unfold performCommand
  cases decode cw d with
  | ok i => exact exec_takeEvent rest s i
  | error e => rfl

end

/-- Settles O14: a command gives one answer, put before whatever is pending, and a reset leaves
nothing of the state before it but the port. -/
theorem eventsIgnoreIssuerAndLaterEvents : Obligations.EventsIgnoreIssuerAndLaterEvents := by
  refine ⟨fun s t g g' cw d rest rest' ht => ?command, fun s t cfg rest rest' ht => ?powerOn⟩
  case command =>
    rw [step_of_command rfl] at ht ⊢
    change performCommand cw d (takeEvent (takeEvent s rest) rest') = _
    rw [performCommand_takeEvent]
    exact congrArg (withPort rest') ht
  case powerOn =>
    rw [step_of_powerOn rfl] at ht ⊢
    obtain ⟨hlegal, rfl⟩ := performPowerOn_next ht
    exact performPowerOn_of_legal hlegal _

/-! ### The invariants -/

theorem UsableConfig.freqDefault {c : Config} (h : UsableConfig c) (b : Band) :
    F64.isFinite (c.freqDefault.get b) = true := by
  obtain ⟨-, -, -, -, -, -, -, -, -, hfreq⟩ := (Config.legalButExpK_iff c).1 h.1
  exact hfreq b

/-- What power-on reset puts in the targets and the currents of a band meets R38. -/
theorem resetTargets_ok {cfg : Config} (h : UsableConfig cfg)
    (hq : F64.le cfg.qMin F64.one = true) (b : Band) (p : Param) :
    ParamOk cfg p ((resetTargets cfg b).get p) := by
  cases p with
  | freq => exact clampFreq_ok h.1 (h.freqDefault b)
  | q => exact ⟨F64.isFinite_one, hq⟩
  | boost => exact ⟨F64.isFinite_zero, trivial⟩
  | bypass =>
    exact ⟨F64.isFinite_zero,
      (by decide +kernel : F64.le F64.zero F64.zero = true ∧ F64.le F64.zero F64.one = true)⟩

theorem resetBand_ok {cfg : Config} (h : UsableConfig cfg) (hq : F64.le cfg.qMin F64.one = true)
    (b : Band) : BandOk cfg (resetBand cfg b) where
  targets := resetTargets_ok h hq b
  currents := resetTargets_ok h hq b
  delay := clearedDelay_finite

/-- A configuration that can be run from and has its Q floor at most at the reset value of Q (log 7)
gives a reset state with the invariants. -/
theorem StateInv.powerOn {cfg : Config} (h : UsableConfig cfg)
    (hq : F64.le cfg.qMin F64.one = true) : StateInv (State.powerOn cfg) where
  config := h
  bands b := by
    rw [powerOn_bands]
    exact resetBand_ok h hq b
  mul := (by decide +kernel : F64.isFinite F64.one = true ∧ F64.le F64.zero F64.one = true)
  pos := h.blockSize
  status := rfl

/-- Settles O55: a legal configuration can be run from. -/
theorem legalResetMeetsTheInvariants : Obligations.LegalResetMeetsTheInvariants :=
  fun _ hlegal hq => .powerOn (.of_legal hlegal) hq

/-- The configuration of log 1 is LINEAR throughout, so no smoother reads its `EXP_K`. -/
theorem atReset_usable : UsableConfig Config.atReset :=
  ⟨by decide +kernel, fun p hp => by cases p <;> cases hp⟩

/-- Settles O54: the configuration of log 1 can be run from and has its Q floor at 0.01, and
nothing is pending. -/
theorem resetMeetsTheInvariants : Obligations.ResetMeetsTheInvariants :=
  ⟨.powerOn atReset_usable (by decide +kernel), fun _ hpending => nomatch hpending⟩

/-- Taking an event from the port leaves those behind it as they are. -/
theorem PendingResetsOk.of_port {s t : State} (h : PendingResetsOk s) {e : HostEvent}
    (hp : s.port = e :: t.port) : PendingResetsOk t := by
  intro cfg hcfg
  exact h cfg (hp ▸ List.mem_cons_of_mem e hcfg)

/-- Settles O57: a command keeps the invariants, a reset with a legal configuration establishes
them, and neither adds to the port. -/
theorem stepsKeepTheInvariants : Obligations.StepsKeepTheInvariants := by
  intro s t h hpending ht
  obtain rfl | ⟨g, cw, d, rest, hp, hcmd⟩ | ⟨cfg, rest, hp, hlegal, rfl⟩ := step_next_cases ht
  · exact ⟨h, hpending⟩
  · obtain ⟨-, hport⟩ := performCommand_cfg_port hcmd
    rw [takeEvent_port] at hport
    exact ⟨(h.takeEvent rest).performCommand hcmd, hpending.of_port (hport ▸ hp)⟩
  · have hq := hpending cfg (hp ▸ List.mem_cons_self)
    exact ⟨(StateInv.powerOn (.of_legal hlegal) hq).takeEvent rest, hpending.of_port hp⟩

end Machine

end Sys2Proof
end

section
/-! Access (spec/10_state.md R36, R42; spec/20_memory.md R74, R81; spec/45_control_access.md
R212-R216; spec/70_reset_and_hazards.md R267): what WR changes, how two writes and a write and a
read combine, and the bits of STATUS. -/

namespace Sys2Proof

theorem Band.index_ofIndex {n : Nat} (h : n < 5) : (Band.ofIndex n).index = n := by
  obtain rfl | rfl | rfl | rfl | rfl : n = 0 ∨ n = 1 ∨ n = 2 ∨ n = 3 ∨ n = 4 := by omega
  all_goals rfl

theorem Param.index_ofIndex {n : Nat} (h : n < 4) : (Param.ofIndex n).index = n := by
  obtain rfl | rfl | rfl | rfl : n = 0 ∨ n = 1 ∨ n = 2 ∨ n = 3 := by omega
  all_goals rfl

namespace Machine

/-! ### The bits of STATUS -/

/-- STATUS as a number: ERR and NANF are its two lowest bits, LASTERR stands two bits above them. -/
theorem Status.word_eq_bits (st : Status) : st.word =
    BitVec.ofNat 64 (Nat.bit st.err (Nat.bit st.nanf (2 ^ 2 * st.lastErr.toNat))) := by
  rw [Status.word, Nat.bit_val, Nat.bit_val]
  congr 1
  ring

/-- Settles O27: the bits of that number, of which LASTERR has four. -/
theorem statusWordLayout : Obligations.StatusWordLayout := by
  intro st i
  rw [Status.word_eq_bits, BitVec.getLsbD_ofNat]
  match i with
  | 0 => simp
  | 1 =>
    rw [Nat.testBit_bit_succ, Nat.testBit_bit_zero]
    rfl
  | i + 2 =>
    rw [Nat.testBit_bit_succ, Nat.testBit_bit_succ, Nat.testBit_two_pow_mul, BitVec.testBit_toNat,
      if_neg (by omega), if_neg (by omega), Nat.add_sub_add_right i 2 2]
    split_ifs with h
    · simp [show 2 ≤ i ∧ i + 2 < 64 by omega]
    · by_cases hlow : 2 ≤ i
      · rw [BitVec.getLsbD_of_ge _ _ (by omega), Bool.and_false, Bool.and_false]
      · simp [hlow]

/-! ### Writes -/

/-- The registers that WR can write stand at the addresses of R40; every other address is read-only
or reserved (R210). -/
theorem regAt_writable_cases (a : Nat) :
    (a < 0x14 ∧ regAt a = .target (Param.ofIndex (a / 5)) (Band.ofIndex (a % 5))) ∨
    (a = 0x14 ∧ regAt a = .mul) ∨ (a = 0x3F ∧ regAt a = .status) ∨
    (regAt a).access = .ro ∨ regAt a = .reserved := by
  obtain h | rfl | rfl | h | h | h : a < 0x14 ∨ a = 0x14 ∨ a = 0x3F ∨ (0x20 ≤ a ∧ a ≤ 0x3C) ∨
      ((0x15 ≤ a ∧ a ≤ 0x1F) ∨ a = 0x3D ∨ a = 0x3E) ∨ 0x40 ≤ a := by omega
  · exact .inl ⟨h, regAt_of_lt_mul h⟩
  · exact .inr (.inl ⟨rfl, rfl⟩)
  · exact .inr (.inr (.inl ⟨rfl, rfl⟩))
  · exact .inr (.inr (.inr (.inl (regAt_access_of_readOnly h))))
  · exact .inr (.inr (.inr (.inr (regAt_of_reserved h))))
  · refine .inr (.inr (.inr (.inr ?_)))
    unfold regAt
    repeat rw [if_neg (by omega)]

/-- MUL stands at 0x14 alone. -/
theorem eq_of_regAt_mul {a : Nat} (h : regAt a = .mul) : a = 0x14 := by
  obtain ⟨-, h'⟩ | ⟨ha, -⟩ | ⟨-, h'⟩ | h' | h' := regAt_writable_cases a
  case inr.inl => exact ha
  all_goals simp [h, Reg.access] at h'

/-- A target stands at one address alone (R40). -/
theorem eq_of_regAt_target {a : Nat} {p : Param} {b : Band} (h : regAt a = .target p b) :
    a = 5 * p.index + b.index := by
  obtain ⟨ha, h'⟩ | ⟨-, h'⟩ | ⟨-, h'⟩ | h' | h' := regAt_writable_cases a
  case inl =>
    obtain ⟨rfl, rfl⟩ := Reg.target.inj (h.symm.trans h')
    rw [Param.index_ofIndex (by omega), Band.index_ofIndex (by omega)]
    omega
  all_goals simp [h, Reg.access] at h'

/-- Settles O23: the address alone rejects the write. -/
theorem wrRejectsProtectedAddresses : Obligations.WrRejectsProtectedAddresses := by
  refine fun s a d => ⟨fun hres => ?reserved, fun hro => ?readOnly⟩
  case reserved =>
    rw [exec_wr_of_reserved (regAt_of_reserved hres), reject_eq]
    rfl
  case readOnly =>
    rw [exec_wr_of_readOnly (regAt_access_of_readOnly hro), reject_eq]
    rfl

theorem writeTarget_frame (s : State) (p : Param) (b : Band) (v : B64) (b' : Band) :
    ((writeTarget s p b v).bands.get b').cur = (s.bands.get b').cur ∧
    ((writeTarget s p b v).bands.get b').delay = (s.bands.get b').delay ∧
    ((writeTarget s p b v).bands.get b').coefs = (s.bands.get b').coefs := by
  by_cases hb : b' = b
  · subst hb
    simp
  · simp [writeTarget_bands_of_ne _ _ _ _ hb]

theorem writeTarget_tgt_of_ne (s : State) {p p' : Param} {b b' : Band} (v : B64)
    (h : p' = p → b' ≠ b) :
    ((writeTarget s p b v).bands.get b').tgt.get p' = (s.bands.get b').tgt.get p' := by
  by_cases hb : b' = b
  · subst hb
    simp [ByParam.get_set_of_ne _ _ fun hp => h hp rfl]
  · rw [writeTarget_bands_of_ne _ _ _ _ hb]

/-- Settles O24: a rejection leaves everything but STATUS, an acceptance everything but the
register at the address. -/
theorem wrChangesOnlyItsRegister : Obligations.WrChangesOnlyItsRegister := by
  intro s t a d ht
  obtain ⟨c, hc, h⟩ | ⟨hreg, h⟩ | ⟨hreg, -, -, h⟩ | ⟨p, b, hreg, -, h⟩ := execWr_cases a d s
  · obtain rfl := reject_next (h.symm.trans ht)
    refine ⟨rfl, rfl, rfl, fun _ => ⟨rfl, rfl, rfl⟩, fun _ _ _ => rfl, fun _ => rfl,
      fun _ => rfl, ?_⟩
    rintro - ⟨r, hr, hcode⟩
    obtain rfl := Option.some.inj hr
    exact absurd hcode (Code.bits_ne_zero hc)
  · obtain rfl := respondOk_next (h.symm.trans ht)
    have ha := eq_of_regAt_status hreg
    exact ⟨rfl, rfl, rfl, fun _ => ⟨rfl, rfl, rfl⟩, fun _ _ _ => rfl, fun _ => rfl,
      fun hne => absurd ha hne, fun hne => absurd ha hne⟩
  · obtain rfl := respondOk_next (h.symm.trans ht)
    have ha := eq_of_regAt_mul hreg
    exact ⟨rfl, rfl, rfl, fun _ => ⟨rfl, rfl, rfl⟩, fun _ _ _ => rfl, fun hne => absurd ha hne,
      fun _ => rfl, fun _ _ => rfl⟩
  · obtain rfl := respondOk_next (h.symm.trans ht)
    have ha := eq_of_regAt_target hreg
    refine ⟨rfl, rfl, rfl, writeTarget_frame s p b _, fun p' b' hne => ?_, fun _ => rfl,
      fun _ => rfl, fun _ _ => rfl⟩
    exact writeTarget_tgt_of_ne s _ fun hp hb => hne (hp ▸ hb ▸ ha)

/-! ### Two writes -/

/-- What an accepted WR stores (R212). -/
def store (a : Nat) (d : DataWord) (s : State) : State :=
  match regAt a with
  | .target p b => writeTarget s p b (clampParam s.cfg p d)
  | .mul => { s with mulr := d }
  | .status => { s with status := s.status.write d }
  | _ => s

/-- The state with this response. -/
def withResp (r : Response) (s : State) : State := { s with resp := some r }

/-- The response of an accepted WR (R96). -/
def accepted : Response := ⟨Code.ok.bits, 0#64, none⟩

/-- Whether WR is accepted, and what rejects it, is a matter of its address and value alone (R212,
R217, R218). -/
theorem exec_wr_rejects_or_stores (a : Nat) (d : DataWord) :
    (∃ c, c ≠ Code.ok ∧ ∀ s, exec (.wr a d) s = reject c s) ∨
    (∀ s, exec (.wr a d) s = .next (withResp accepted (store a d s))) := by
  simp only [exec, execWr, store]
  cases regAt a with
  | reserved => exact .inl ⟨.errAddr, by decide, fun _ => rfl⟩
  | status => exact .inr fun _ => rfl
  | mul =>
    by_cases hd : (F64.isFinite d && !F64.lt d F64.zero) = true
    · exact .inr fun s => if_pos hd
    · exact .inl ⟨.errValue, by decide, fun s => if_neg hd⟩
  | target p b =>
    by_cases hd : F64.isFinite d = true
    · exact .inr fun s => if_pos hd
    · exact .inl ⟨.errValue, by decide, fun s => if_neg hd⟩
  | _ => exact .inl ⟨.errRo, by decide, fun _ => rfl⟩

/-- A response of code 0 is an acceptance's, from every state. -/
theorem exec_wr_of_code_zero {a : Nat} {d : DataWord} {s t : State} {r : Response}
    (ht : exec (.wr a d) s = .next t) (hr : t.resp = some r) (hcode : r.code = 0#4) (u : State) :
    exec (.wr a d) u = .next (withResp accepted (store a d u)) := by
  obtain ⟨c, hc, h⟩ | h := exec_wr_rejects_or_stores a d
  · obtain rfl := reject_next ((h s).symm.trans ht)
    obtain rfl := Option.some.inj hr
    exact absurd hcode (Code.bits_ne_zero hc)
  · exact h u

theorem store_withResp (a : Nat) (d : DataWord) (r : Response) (s : State) :
    store a d (withResp r s) = withResp r (store a d s) := by
  unfold store
  cases regAt a <;> rfl

@[simp] theorem withResp_withResp (r r' : Response) (s : State) :
    withResp r (withResp r' s) = withResp r s := rfl

theorem Status.write_write (st : Status) (d : DataWord) : (st.write d).write d = st.write d := by
  unfold Status.write
  cases d.getLsbD 0 <;> cases d.getLsbD 1 <;> simp

@[simp] theorem writeTarget_writeTarget (s : State) (p : Param) (b : Band) (v w : B64) :
    writeTarget (writeTarget s p b v) p b w = writeTarget s p b w := by
  simp [writeTarget]

/-- Of two values stored in one parameter register the later stays. -/
theorem store_store_of_ne_status {a : Nat} (ha : regAt a ≠ .status) (d d' : DataWord) (s : State) :
    store a d' (store a d s) = store a d' s := by
  unfold store
  cases hreg : regAt a with
  | target p b => simp
  | mul => rfl
  | status => exact absurd hreg ha
  | _ => rfl

theorem store_store_self (a : Nat) (d : DataWord) (s : State) :
    store a d (store a d s) = store a d s := by
  by_cases ha : regAt a = .status
  · simp [store, ha, Status.write_write]
  · exact store_store_of_ne_status ha d d s

theorem writeTarget_comm (s : State) {p p' : Param} {b b' : Band} (v w : B64)
    (h : p = p' → b ≠ b') :
    writeTarget (writeTarget s p b v) p' b' w = writeTarget (writeTarget s p' b' w) p b v := by
  by_cases hb : b = b'
  · subst hb
    simp [writeTarget, ByParam.set_comm _ v w fun hp => h hp rfl]
  · simp [writeTarget, Bands.set_comm _ _ _ hb, Bands.get_set_of_ne _ _ hb,
      Bands.get_set_of_ne _ _ (Ne.symm hb)]

/-- Stores to different registers do not interact (R81). -/
theorem store_comm {a a' : Nat} (h : a ≠ a') (d d' : DataWord) (s : State) :
    store a' d' (store a d s) = store a d (store a' d' s) := by
  unfold store
  cases hreg : regAt a with
  | target p b =>
    cases hreg' : regAt a' with
    | target p' b' =>
      refine writeTarget_comm s _ _ fun hp hb => h ?_
      rw [eq_of_regAt_target hreg, eq_of_regAt_target hreg', hp, hb]
    | _ => rfl
  | mul =>
    cases hreg' : regAt a' with
    | mul => exact absurd ((eq_of_regAt_mul hreg).trans (eq_of_regAt_mul hreg').symm) h
    | _ => rfl
  | status =>
    cases hreg' : regAt a' with
    | status => exact absurd ((eq_of_regAt_status hreg).trans (eq_of_regAt_status hreg').symm) h
    | _ => rfl
  | _ => cases regAt a' <;> rfl

/-- Settles O25: a second rejection records the same code, and a second store of one value finds it
stored. -/
theorem writingTwiceIsWritingOnce : Obligations.WritingTwiceIsWritingOnce := by
  intro s t a d ht
  obtain ⟨c, -, h⟩ | h := exec_wr_rejects_or_stores a d
  · obtain rfl := reject_next ((h s).symm.trans ht)
    exact h _
  · obtain rfl := Host.Outcome.next.inj ((h s).symm.trans ht)
    rw [h, store_withResp, store_store_self, withResp_withResp]

/-- Settles O26: acceptance does not depend on the state; stores to one parameter register
overwrite, stores to two commute. -/
theorem laterWriteWins : Obligations.LaterWriteWins := by
  refine ⟨fun s t u a d d' r r' ha ht hr hcode hu hr' hcode' => ?wins,
    fun s t t' a a' d d' r r' hne ht hr hcode ht' hr' hcode' => ?commute⟩
  case wins =>
    have first := exec_wr_of_code_zero ht hr hcode
    have second := exec_wr_of_code_zero hu hr' hcode'
    have hstatus : regAt a ≠ .status := fun h => by
      have := eq_of_regAt_status h
      omega
    obtain rfl := Host.Outcome.next.inj ((first s).symm.trans ht)
    obtain rfl := Host.Outcome.next.inj ((second s).symm.trans hu)
    rw [second, store_withResp, store_store_of_ne_status hstatus, withResp_withResp]
  case commute =>
    have first := exec_wr_of_code_zero ht hr hcode
    have second := exec_wr_of_code_zero ht' hr' hcode'
    obtain rfl := Host.Outcome.next.inj ((first s).symm.trans ht)
    obtain rfl := Host.Outcome.next.inj ((second s).symm.trans ht')
    refine ⟨_, second _, ?_⟩
    rw [first, store_withResp, store_withResp, store_comm hne]

/-! ### A read after a write -/

/-- WR of a finite value to the address of a target stores its clamp (R213). -/
theorem exec_wr_target (s : State) (p : Param) (b : Band) {d : DataWord}
    (hd : F64.isFinite d = true) : exec (.wr (5 * p.index + b.index) d) s =
      .next (withResp accepted (writeTarget s p b (clampParam s.cfg p d))) := by
  rw [exec_wr_of_target (regAt_target p b), writeParam_of_finite p b s hd]
  rfl

/-- Settles O29: RD answers the target just stored, and the current, which the write left as it
was. -/
theorem readAfterWriteReturnsTheStoredValue : Obligations.ReadAfterWriteReturnsTheStoredValue := by
  intro s p b d hd
  refine ⟨_, exec_wr_target s p b hd, ?target, ?current⟩
  case target =>
    rw [exec_rd_of_mapped (regAt_target p b) nofun, respondOk_eq]
    simp [readReg, withResp, Code.bits]
  case current =>
    rw [exec_rd_of_mapped (regAt_current p b) nofun, respondOk_eq]
    simp [readReg, withResp, Code.bits]

end Machine

end Sys2Proof
end

section
/-! Samples (spec/41_parameter_smoother.md R153; spec/43_eq_band.md R185, R186; spec/44_eq_chain.md
R190-R197): what one SMP leaves unchanged and what it moves, runs of samples, and which state a
sample does not depend on. -/

namespace Sys2Proof

namespace Machine

/-! ### The state after one SMP -/

/-- The state that an SMP of `x` leaves, its response among it (R190). -/
def sampled (s : State) (x : B64) : State :=
  withResp ⟨Code.ok.bits, 0#64, some (outStage s.cfg s.mulr (chainOut s x))⟩ (afterSample s x)

theorem exec_smp_sampled (x : B64) (s : State) : exec (.smp x) s = .next (sampled s x) :=
  exec_smp_eq x s

section
variable (s : State) (x : B64)

@[simp] theorem sampled_cfg : (sampled s x).cfg = s.cfg := rfl
@[simp] theorem sampled_mulr : (sampled s x).mulr = s.mulr := rfl
@[simp] theorem sampled_port : (sampled s x).port = s.port := rfl
@[simp] theorem sampled_pos : (sampled s x).pos = nextPos s.cfg s.pos := rfl
@[simp] theorem sampled_status :
    (sampled s x).status = s.status.recordGuard (chainFired s x) := rfl
@[simp] theorem sampled_bands (b : Band) : (sampled s x).bands.get b =
    bandRegs s.cfg s.pos b (cascadeAt s.cfg s.pos s.bands (inGuard x).out b.index)
      (s.bands.get b) := afterSample_bands s x b

theorem sampled_tgt (b : Band) :
    ((sampled s x).bands.get b).tgt = (s.bands.get b).tgt := by simp

/-- Every current is one tick nearer to its target (R153). -/
theorem sampled_cur (p : Param) (b : Band) : ((sampled s x).bands.get b).cur.get p =
    tick s.cfg p ((s.bands.get b).cur.get p) ((s.bands.get b).tgt.get p) := by simp

theorem sampled_coefs (b : Band) : ((sampled s x).bands.get b).coefs =
    updatedCoefs s.cfg s.pos b.filterType ((sampled s x).bands.get b).cur
      (s.bands.get b).coefs := by simp

end

/-- Settles O31: the bands, `pos`, NANF and the response are all that an SMP writes. -/
theorem smpChangesOnlyProcessingState : Obligations.SmpChangesOnlyProcessingState := by
  intro s d
  refine ⟨_, exec_smp_sampled d s, rfl, rfl, rfl, rfl, rfl, fun hnanf => ?_, rfl, sampled_tgt s d⟩
  rw [sampled_status, recordGuard_nanf, hnanf, Bool.true_or]

/-- Settles O32: SMP ticks every band, and no other instruction writes a current. -/
theorem smpTicksEverySmootherOnce : Obligations.SmpTicksEverySmootherOnce := by
  refine ⟨fun s d => ⟨_, exec_smp_sampled d s, sampled_cur s d⟩, fun i s t hi ht b => ?_⟩
  cases i with
  | wr a d =>
    obtain ⟨-, -, -, hbands, -⟩ := wrChangesOnlyItsRegister s t a d ht
    exact (hbands b).1
  | rd a =>
    obtain ⟨-, h⟩ | ⟨-, h⟩ := execRd_cases a s
    · obtain rfl := reject_next (h.symm.trans ht)
      rfl
    · obtain rfl := respondOk_next (h.symm.trans ht)
      rfl
  | smp d => exact absurd rfl (hi d)
  | srst =>
    obtain rfl := respondOk_next ht
    rw [Bands.get_ofFn, clearDelay_cur]

/-- Settles O33: WR leaves the current, stores the clamp as target, and SMP ticks from the one
toward the other. -/
theorem writeIsSeenByTheNextSample : Obligations.WriteIsSeenByTheNextSample := by
  intro s p b v d hv
  refine ⟨_, _, exec_wr_target s p b hv, exec_smp_sampled d _, ?_⟩
  rw [sampled_cur]
  simp [withResp]

/-! ### Runs of samples -/

theorem runSamples_cons (x : B64) (xs : List B64) (s : State) :
    runSamples (x :: xs) s = runSamples xs (sampled s x) := rfl

theorem runSamples_append (xs ys : List B64) (s : State) :
    runSamples (xs ++ ys) s = runSamples ys (runSamples xs s) := by
  induction xs generalizing s with
  | nil => rfl
  | cons x xs ih => exact ih (sampled s x)

theorem runSamples_cfg (xs : List B64) (s : State) : (runSamples xs s).cfg = s.cfg := by
  induction xs generalizing s with
  | nil => rfl
  | cons x xs ih => exact ih (sampled s x)

/-- Settles O39: sample by sample, the targets and the configuration staying as they are. -/
theorem samplesTickOneByOne : Obligations.SamplesTickOneByOne := by
  intro s xs hpos
  induction xs generalizing s with
  | nil => exact ⟨(Nat.mod_eq_of_lt hpos).symm, fun _ _ => rfl⟩
  | cons x xs ih =>
    obtain ⟨hpos', hcur⟩ := ih (sampled s x) (Nat.mod_lt _ (by omega))
    refine ⟨?pos, fun p b => ?cur⟩
    case pos =>
      rw [runSamples_cons, hpos', sampled_cfg, sampled_pos, nextPos, Nat.mod_add_mod,
        List.length_cons, Nat.add_assoc, Nat.add_comm 1]
    case cur =>
      rw [runSamples_cons, hcur, sampled_cfg, sampled_cur, sampled_tgt, List.length_cons,
        Function.iterate_succ_apply]

/-- Within a block no sample after the first recomputes the coefficients (R181, R186). -/
theorem runSamples_coefs_of_perBlock {s : State} (hmode : s.cfg.coefUpdate = .perBlock)
    (hpos : s.pos = 0) (x : B64) {xs : List B64} (hlen : xs.length < s.cfg.blockSize) (b : Band) :
    ((runSamples (x :: xs) s).bands.get b).coefs = ((sampled s x).bands.get b).coefs := by
  induction xs using List.reverseRecOn with
  | nil => rfl
  | append_singleton xs y ih =>
    rw [List.length_append, List.length_singleton] at hlen
    have hcfg := runSamples_cfg (x :: xs) s
    have hkeep : ¬((runSamples (x :: xs) s).cfg.coefUpdate = .perSample ∨
        (runSamples (x :: xs) s).pos = 0) := by
      rw [(samplesTickOneByOne s (x :: xs) (by omega)).1, hcfg, hmode, hpos, List.length_cons,
        Nat.mod_eq_of_lt (by omega)]
      simp
    rw [← List.cons_append, runSamples_append, ← ih (by omega)]
    exact (sampled_coefs _ y b).trans (updatedCoefs_of_not_update hkeep ..)

/-- Settles O44: the first sample computes the coefficients from the currents it ticks, and the
others of the block keep them. -/
theorem coefficientLagIsWithinTheBlock : Obligations.CoefficientLagIsWithinTheBlock := by
  intro s x xs hmode hpos hlen b
  rw [runSamples_coefs_of_perBlock hmode hpos x hlen b, sampled_coefs, updatedCoefs,
    if_pos (.inr hpos)]
  rfl

/-! ### What a sample does not depend on -/

/-- Settles O49: what enters a band depends on the bands before it, and the band step on what enters
and the band itself. -/
theorem earlierBandsIgnoreLaterBands : Obligations.EarlierBandsIgnoreLaterBands := by
  intro s s' d n hcfg hpos hbands
  refine ⟨_, _, exec_smp_sampled d s, exec_smp_sampled d s', fun b hb => ?_⟩
  have hin : cascadeAt s.cfg s.pos s.bands (inGuard d).out b.index =
      cascadeAt s'.cfg s'.pos s'.bands (inGuard d).out b.index := by
    rw [hcfg, hpos]
    refine cascadeAt_congr fun k hk => hbands _ ?_
    have := b.index_lt
    rw [Band.index_ofIndex (by omega)]
    omega
  rw [sampled_bands, sampled_bands, cascadeAt_index_succ, cascadeAt_index_succ, hin, hcfg, hpos,
    hbands b hb]
  exact ⟨rfl, rfl⟩

/-- The guard replaces a non-finite sample by +0.0 (R191). -/
theorem inGuard_out_of_not_finite {x : B64} (h : F64.isFinite x = false) :
    (inGuard x).out = (inGuard F64.zero).out := by
  rw [inGuard, inGuard, guardFinite_of_not_finite h, guardFinite_of_finite F64.isFinite_zero]

theorem chainFired_of_not_finite {x : B64} (h : F64.isFinite x = false) (s : State) :
    chainFired s x = true := by
  simp [chainFired, inGuard, guardFinite_of_not_finite h]

/-- Settles O50: behind the input guard the sample is +0.0, and the guard itself sets NANF. -/
theorem nonFiniteSampleIsSilence : Obligations.NonFiniteSampleIsSilence := by
  intro s d hd
  refine ⟨_, exec_smp_sampled F64.zero s, ?_⟩
  rw [exec_smp_sampled]
  simp only [sampled, afterSample, chainOut, inGuard_out_of_not_finite hd,
    chainFired_of_not_finite hd s, withResp, Status.recordGuard, Bool.or_true]

end Machine

end Sys2Proof
end

section
/-! Constants, ramps and clamps (spec/00_scope.md R6, R7; spec/41_parameter_smoother.md R159, R160;
spec/40_biquad_filter.md R121): legality clause by clause, the constants at 44100 Hz, how a LINEAR
ramp settles and a stalled current stays, and the clamps of `Coef`. -/

namespace Sys2Proof

/-! ### Constants -/

theorem Config.positive_iff {v : B64} :
    positive v = true ↔ F64.isFinite v = true ∧ F64.lt F64.zero v = true := by
  rw [positive, Bool.and_eq_true]

/-- The default `SNAP[p]` at 44100 Hz (R156). -/
theorem Config.snapOf_default (n : Nat) (p : Param) :
    (Config.default 0x40E5888000000000#64 n).snapOf p = match p with
      | .freq => 0x3F95888000000000#64
      | .q => 0x3EE4000000000000#64
      | .boost => 0x3F08000000000000#64
      | .bypass => 0x3EB0000000000000#64 := by
  have hnone : (Config.default 0x40E5888000000000#64 n).snap.get p = none := by cases p <;> rfl
  rw [snapOf_of_none hnone]
  cases p with
  | freq => exact (by decide +kernel : F64.mul (F64.div 0x40E5888000000000#64 F64.two)
      F64.twoPowNeg20 = 0x3F95888000000000#64)
  | q => exact (by decide +kernel : F64.mul F64.ten F64.twoPowNeg20 = 0x3EE4000000000000#64)
  | boost => exact (by decide +kernel :
      F64.mul F64.fortyEight F64.twoPowNeg20 = 0x3F08000000000000#64)
  | bypass => exact (by decide +kernel :
      F64.mul F64.one F64.twoPowNeg20 = 0x3EB0000000000000#64)

namespace Machine

/-- Settles O4: the formulas are the definitions, and the arithmetic evaluates to the printed
patterns. -/
theorem constantsAtTheTestConfiguration : Obligations.ConstantsAtTheTestConfiguration := by
  refine ⟨fun cfg => ⟨rfl, rfl, rfl⟩, by decide +kernel, by decide +kernel, by decide +kernel,
    by decide +kernel, ?_⟩
  exact ⟨Config.maxStepOf_default 256 .freq, Config.maxStepOf_default 256 .q,
    Config.maxStepOf_default 256 .boost, Config.maxStepOf_default 256 .bypass,
    Config.snapOf_default 256 .freq, Config.snapOf_default 256 .q, Config.snapOf_default 256 .boost,
    Config.snapOf_default 256 .bypass⟩

/-- The clauses of R6 on the step constants of one parameter. -/
theorem legalStep_and_legalExpK_iff (c : Config) (p : Param) :
    c.legalStep p = true ∧ c.legalExpK p = true ↔
      F64.isFinite (c.maxStepOf p) = true ∧ F64.lt F64.zero (c.maxStepOf p) = true ∧
      F64.lt F64.zero (c.expKOf p) = true ∧ F64.le (c.expKOf p) F64.one = true ∧
      F64.le F64.zero (c.snapOf p) = true ∧ F64.le (c.snapOf p) (c.maxStepOf p) = true := by
  simp only [Config.legalStep, Config.legalExpK, Bool.and_eq_true, Config.positive_iff]
  tauto

/-- Settles O3: legality is the conjunction of R6's clauses, those on the step constants gathered by
parameter. -/
theorem legalConfigurationsMeetTheirConditions :
    Obligations.LegalConfigurationsMeetTheirConditions := by
  intro cfg
  simp only [Config.legal_iff, Config.legalButExpK_iff, ← legalStep_and_legalExpK_iff, forall_and,
    ← Config.positive_iff]
  tauto

/-! ### LINEAR ramps -/

/-- A tick keeps a value that is its own target (R151). -/
theorem tickLinear_self {t m : B64} (ht : F64.isFinite t = true) (hm : F64.isFinite m = true)
    (hm0 : 0 ≤ F64.value m) : tickLinear t t m = t := by
  refine tickLinear_of_le (F64.abs_sub_le_of_abs_value_sub_le ht ht (F64.isNaN_of_isFinite hm) ?_)
  simpa using hm0

/-- A LINEAR tick that does not land comes nearer to the target by one step, less the rounding of
its result. -/
theorem tickLinear_lands_or_approaches {c t m : B64} (hc : F64.isFinite c = true)
    (ht : F64.isFinite t = true) (hm : F64.isFinite m = true) (hm0 : 0 < F64.value m) :
    tickLinear c t m = t ∨
    (F64.isFinite (tickLinear c t m) = true ∧
      |F64.value (tickLinear c t m)| ≤ max |F64.value c| |F64.value t| ∧
      2 ^ 53 * |F64.value t - F64.value (tickLinear c t m)| + 2 ^ 53 * F64.value m ≤
        2 ^ 53 * |F64.value t - F64.value c| + |F64.value (tickLinear c t m)|) := by
  have nc := F64.isNaN_of_isFinite hc
  have nt := F64.isNaN_of_isFinite ht
  obtain ⟨e, -⟩ | ⟨e, hfar⟩ | ⟨e, hfar⟩ := tickLinear_cases hc ht hm
  · exact .inl e
  · have hlo : F64.value c ≤ F64.value (F64.add c m) := F64.le_add hc hm nc (by omega)
    have hhi : F64.value (F64.add c m) ≤ F64.value t := F64.add_le hc hm nt hfar.le
    have hfin := F64.isFinite_of_between hc ht hlo hhi
    have herr := F64.add_error hc hm hfin
    have := neg_abs_le (F64.value (F64.add c m) - (F64.value c + F64.value m))
    rw [e, abs_of_nonneg (sub_nonneg.2 hhi), abs_of_nonneg (sub_nonneg.2 (hlo.trans hhi))]
    exact .inr ⟨hfin, abs_le_max_abs_abs hlo hhi, by omega⟩
  · have hlo : F64.value t ≤ F64.value (F64.sub c m) := F64.le_sub hc hm nt hfar.le
    have hhi : F64.value (F64.sub c m) ≤ F64.value c := F64.sub_le hc hm nc (by omega)
    have hfin := F64.isFinite_of_between ht hc hlo hhi
    have herr := F64.sub_error hc hm hfin
    have := le_abs_self (F64.value (F64.sub c m) - (F64.value c - F64.value m))
    rw [e, abs_of_nonpos (sub_nonpos.2 hlo), abs_of_nonpos (sub_nonpos.2 (hlo.trans hhi))]
    exact .inr ⟨hfin, max_comm |F64.value t| _ ▸ abs_le_max_abs_abs hlo hhi, by omega⟩

/-- A ramp settles where every one of n ticks that do not land comes nearer by a step less the worst
rounding, `b` units of 2^-53, and what remains is one step. -/
theorem iterate_tickLinear_eq_target {t m : B64} (ht : F64.isFinite t = true)
    (hm : F64.isFinite m = true) (hm0 : 0 < F64.value m) {b : Int} (htb : |F64.value t| ≤ b)
    (n : Nat) {c : B64} (hc : F64.isFinite c = true) (hcb : |F64.value c| ≤ b)
    (hd : 2 ^ 53 * |F64.value t - F64.value c| ≤
      n * (2 ^ 53 * F64.value m - b) + 2 ^ 53 * F64.value m) :
    (fun x => tickLinear x t m)^[n + 1] c = t := by
  induction n generalizing c with
  | zero =>
    refine tickLinear_of_le (F64.abs_sub_le_of_abs_value_sub_le ht hc (F64.isNaN_of_isFinite hm) ?_)
    rw [Nat.cast_zero, zero_mul, zero_add] at hd
    omega
  | succ n ih =>
    rw [Function.iterate_succ_apply]
    obtain hland | ⟨hfin, hbound, hnear⟩ := tickLinear_lands_or_approaches hc ht hm hm0
    · have hstay : tickLinear t t m = t := tickLinear_self ht hm hm0.le
      rw [hland]
      exact Function.iterate_fixed hstay (n + 1)
    · have hb := hbound.trans (max_le hcb htb)
      refine ih hfin hb ?_
      rw [Nat.cast_succ, add_mul, one_mul] at hd
      omega

/-- Settles O37: the premises leave one step, at most, after n ticks that do not land. -/
theorem linearRampSettles : Obligations.LinearRampSettles := by
  intro c t m n hc ht hm hm0 hdist hround
  refine iterate_tickLinear_eq_target ht hm hm0 (le_max_right _ _) n hc (le_max_left _ _) ?_
  rw [mul_sub, ← mul_assoc, mul_comm (n : Int), mul_assoc]
  omega

/-! ### Stalled currents -/

/-- Settles O38: the tick takes the step branch, which answers the current; against overshoot
nothing is to be done, as the current is on its own side of the target. -/
theorem stalledCurrentsNeverMove : Obligations.StalledCurrentsNeverMove := by
  refine fun c t m k snap n hc ht => ⟨fun hfar hstall => ?linear, fun hfar hstall => ?exponential⟩
  case linear =>
    refine Function.iterate_fixed ?_ n
    rw [tickLinear, hfar, if_neg Bool.false_ne_true]
    split_ifs at hstall ⊢ with hup <;> exact hstall
  case exponential =>
    refine Function.iterate_fixed ?_ n
    have nd := F64.isNaN_sub ht hc
    have nc := F64.isNaN_of_isFinite hc
    have nt := F64.isNaN_of_isFinite ht
    obtain ⟨hdown, hup⟩ := F64.sub_sign ht hc
    have hup' : ¬(F64.lt F64.zero (F64.sub t c) && F64.lt t c) = true := by
      rw [Bool.and_eq_true, F64.lt_iff F64.isNaN_zero nd, F64.lt_iff nt nc, F64.value_zero]
      exact fun ⟨hpos, hlt⟩ => (hup hpos.le).not_gt hlt
    have hdown' : ¬(F64.lt (F64.sub t c) F64.zero && F64.lt c t) = true := by
      rw [Bool.and_eq_true, F64.lt_iff nd F64.isNaN_zero, F64.lt_iff nc nt, F64.value_zero]
      exact fun ⟨hneg, hlt⟩ => (hdown hneg.le).not_gt hlt
    simp only [tickExp, hstall]
    rw [hfar, if_neg Bool.false_ne_true, if_neg hup', if_neg hdown']

/-! ### The clamps of `Coef` -/

/-- A frequency in range is its own clamp (R213). -/
theorem clampFreq_of_ok {cfg : Config} {f : B64} (h : ParamOk cfg .freq f) :
    cfg.clampFreq f = f := by
  obtain ⟨-, hmin, hmax⟩ := h
  obtain ⟨nmin, nf, hmin⟩ := F64.le_spec hmin
  obtain ⟨-, nmax, hmax⟩ := F64.le_spec hmax
  rw [Config.clampFreq, if_neg (by rw [F64.lt_iff nf nmin]; omega),
    if_neg (by rw [F64.lt_iff nmax nf]; omega)]

/-- A Q in range is its own clamp (R213). -/
theorem clampQ_of_ok {cfg : Config} {q : B64} (h : ParamOk cfg .q q) : cfg.clampQ q = q := by
  obtain ⟨nmin, nq, hmin⟩ := F64.le_spec h.2
  rw [Config.clampQ, if_neg (by rw [F64.lt_iff nq nmin]; omega)]

/-- `Coef` looks at the clamps of its frequency and Q alone (R121). -/
theorem coef_congr_clamps {cfg : Config} {f f' q q' : B64} (hf : cfg.clampFreq f = cfg.clampFreq f')
    (hq : cfg.clampQ q = cfg.clampQ q') (ty : FilterType) (g : B64) :
    coef cfg ty f q g = coef cfg ty f' q' g := by
  rw [coef, coef, hf, hq]

/-- Settles O42: a clamp is in range, and a value in range is its own clamp. -/
theorem coefClampsFrequencyAndQ : Obligations.CoefClampsFrequencyAndQ := by
  intro cfg ty f q g h hf hq
  exact ⟨coef_congr_clamps (clampFreq_of_ok (clampFreq_ok h.1 hf))
      (clampQ_of_ok (clampQ_ok h hq)) ty g,
    clampFreq_of_ok, clampQ_of_ok⟩

end Machine

end Sys2Proof
end

section
/-! Arithmetic (spec/00_scope.md R10): sums, differences, products, quotients and square roots are
the representable values nearest to the exact results. -/

namespace Sys2Proof

/-- Of two ends around `s` the one on its side of their midpoint is nearer to it than anything
outside them. -/
theorem abs_sub_le_of_nearer_end {l u s r x : ℝ} (hl : l ≤ s) (hu : s ≤ u)
    (hr : (r = l ∧ 2 * s ≤ l + u) ∨ (r = u ∧ l + u ≤ 2 * s)) (hx : x ≤ l ∨ u ≤ x) :
    |r - s| ≤ |x - s| := by
  have hout : min (s - l) (u - s) ≤ |x - s| := by
    obtain hx | hx := hx
    · exact (min_le_left _ _).trans ((by linarith : s - l ≤ -(x - s)).trans (neg_le_abs _))
    · exact (min_le_right _ _).trans ((by linarith : u - s ≤ x - s).trans (le_abs_self _))
  refine le_trans ?_ hout
  obtain ⟨rfl, hmid⟩ | ⟨rfl, hmid⟩ := hr
  · rw [abs_of_nonpos (by linarith)]
    exact le_min (by linarith) (by linarith)
  · rw [abs_of_nonneg (by linarith)]
    exact le_min (by linarith) (by linarith)

theorem two_mul_sqrt_le {y m : ℝ} (hm : 0 ≤ m) (h : 4 * y ≤ m ^ 2) : 2 * √y ≤ m := by
  have : √y ≤ m / 2 := Real.sqrt_le_iff.2 ⟨by linarith, by linarith [div_pow m 2 2]⟩
  linarith

theorem le_two_mul_sqrt {y m : ℝ} (h : m ^ 2 ≤ 4 * y) : m ≤ 2 * √y := by
  have : m / 2 ≤ √y := Real.le_sqrt_of_sq_le (by linarith [div_pow m 2 2])
  linarith

namespace F64

/-! ### The four operators -/

/-- `r` is at least as near to x / d as `c`, and where `c` is as near and another value, `r` is the
even pattern. -/
def NearerThan (r c : B64) (d x : Int) : Prop :=
  isNaN r = false ∧ |value r * d - x| ≤ |value c * d - x| ∧
  (|value r * d - x| = |value c * d - x| → value r ≠ value c → mag r % 2 = 0)

/-- A ratio may be written with both signs flipped. -/
theorem NearerThan.of_neg {r c : B64} {d x : Int} (h : NearerThan r c (-d) (-x)) :
    NearerThan r c d x := by
  have hflip (v : Int) : |v * -d - -x| = |v * d - x| := by
    rw [← abs_neg]
    congr 1
    ring
  rwa [NearerThan, hflip, hflip] at h

theorem nearerThan_round {s : Bool} {n d : Nat} {x : Int} (hd : 0 < d) {c : B64}
    (hc : isNaN c = false) (hx : (if s then -(n : Int) else n) = x) :
    NearerThan (round s n d) c d x :=
  ⟨isNaN_round s n d, round_nearest hd hc hx⟩

section
variable {a b c : B64} (ha : isFinite a = true) (hb : isFinite b = true) (hc : isNaN c = false)
include ha hb hc

/-- A sum: exact where it is zero, else rounded once. -/
theorem nearerThan_addAs (op : FloatOp) : NearerThan (addAs op a b) c 1 (value a + value b) := by
  refine ⟨isNaN_addAs ha hb, ?_⟩
  rw [addAs_of_finite ha hb]
  split
  next hzero =>
    rw [hzero, value_ofMag (by norm_num), mag_ofMag (by norm_num)]
    simp
  next => exact (nearerThan_round Nat.one_pos hc (signed_natAbs _)).2

theorem nearerThan_mul : NearerThan (mul a b) c unitsPerOne (value a * value b) := by
  rw [mul_of_finite ha hb]
  exact nearerThan_round unitsPerOne_pos hc (signed_mul a b)

theorem nearerThan_div (h0 : value b ≠ 0) :
    NearerThan (div a b) c (value b) (value a * unitsPerOne) := by
  have hpos : 0 < magValue (mag b) := by
    rw [← natAbs_value]
    exact Int.natAbs_pos.2 h0
  rw [div_of_nonzero ha hb h0, ← signed_units, value.eq_def b]
  cases signBit b with
  | false => exact nearerThan_round hpos hc (by simp)
  | true =>
    refine .of_neg ?_
    rw [if_pos rfl, neg_neg]
    exact nearerThan_round hpos hc (by cases signBit a <;> simp)

end

/-! ### The square root -/

/-- Which of the two patterns around the root is taken, by the square of twice their midpoint. -/
theorem sqrtMag_cases {n y p : Nat} (hy : n * unitsPerOne = y) (hp : sqrtFloor y 63 = p) :
    (sqrtMag n = p ∧ 4 * y ≤ (magValue p + magValue (p + 1)) ^ 2) ∨
    (sqrtMag n = p + 1 ∧ (magValue p + magValue (p + 1)) ^ 2 ≤ 4 * y) := by
  unfold sqrtMag
  simp only [hy, hp]
  split_ifs with hlow hhigh
  · exact .inl ⟨rfl, hlow.le⟩
  · exact .inr ⟨rfl, hhigh.le⟩
  · obtain h | h := Nat.mod_two_eq_zero_or_one p <;> rw [h]
    · exact .inl ⟨rfl, not_lt.1 hhigh⟩
    · exact .inr ⟨rfl, not_lt.1 hlow⟩

/-- No value lies strictly between two neighbouring magnitudes. -/
theorem value_le_or_ge (c : B64) (p : Nat) :
    value c ≤ magValue p ∨ (magValue (p + 1) : Int) ≤ value c := by
  by_cases h0 : 0 ≤ value c
  · rw [value_of_nonneg h0, Nat.cast_le, Nat.cast_le, magValue_le, magValue_le]
    omega
  · omega

theorem magValue_infMag_pred : magValue (infMag - 2 ^ 52) = 2 ^ 2097 := by decide +kernel

/-- The scaled operand of a square root is within the reach of the bit search. -/
theorem sqrt_arg_lt_reach {y : Nat} (hy : y < (2 ^ 2097) ^ 2) : y < magValue (2 ^ 63) ^ 2 := by
  refine hy.trans_le (Nat.pow_le_pow_left ?_ 2)
  rw [← magValue_infMag_pred]
  exact magValue_le.2 (by decide)

/-- The root of a finite value is far below the infinities. -/
theorem sqrtFloor_succ_lt {y : Nat} (hy : y < (2 ^ 2097) ^ 2) : sqrtFloor y 63 + 1 < infMag := by
  have hlo := (sqrtFloor_spec (sqrt_arg_lt_reach hy) le_rfl).1
  have hlt : magValue (sqrtFloor y 63) < magValue (infMag - 2 ^ 52) := by
    rw [magValue_infMag_pred]
    exact lt_of_pow_lt_pow_left₀ 2 (Nat.zero_le _) (hlo.trans_lt hy)
  have := magValue_lt.1 hlt
  unfold infMag at this ⊢
  omega

/-- The pattern taken is finite and nearest to the root. -/
theorem sqrtMag_nearest {n : Nat} (hn : n * unitsPerOne < (2 ^ 2097) ^ 2) :
    sqrtMag n < infMag ∧ ∀ c : B64,
      |(magValue (sqrtMag n) : ℝ) - √((n * unitsPerOne : Nat) : ℝ)| ≤
        |(value c : ℝ) - √((n * unitsPerOne : Nat) : ℝ)| := by
  have hfin := sqrtFloor_succ_lt hn
  obtain ⟨hlo, hhi⟩ := sqrtFloor_spec (sqrt_arg_lt_reach hn) le_rfl
  have hcases := sqrtMag_cases (n := n) rfl rfl
  rw [Nat.sub_self, pow_zero] at hhi
  generalize n * unitsPerOne = y at hlo hhi hcases hfin ⊢
  generalize sqrtFloor y 63 = p at hlo hhi hcases hfin
  have hl : (magValue p : ℝ) ≤ √(y : ℝ) := Real.le_sqrt_of_sq_le (by exact_mod_cast hlo)
  have hu : √(y : ℝ) ≤ (magValue (p + 1) : ℝ) :=
    Real.sqrt_le_iff.2 ⟨Nat.cast_nonneg _, by exact_mod_cast hhi.le⟩
  have hend : ((magValue (sqrtMag n) : ℝ) = magValue p ∧
        2 * √(y : ℝ) ≤ magValue p + magValue (p + 1)) ∨
      ((magValue (sqrtMag n) : ℝ) = magValue (p + 1) ∧
        magValue p + magValue (p + 1) ≤ 2 * √(y : ℝ)) := by
    obtain ⟨he, hmid⟩ | ⟨he, hmid⟩ := hcases <;> rw [he]
    · exact .inl ⟨rfl, two_mul_sqrt_le (add_nonneg (Nat.cast_nonneg _) (Nat.cast_nonneg _))
        (by exact_mod_cast hmid)⟩
    · exact .inr ⟨rfl, le_two_mul_sqrt (by exact_mod_cast hmid)⟩
  refine ⟨by omega, fun c => abs_sub_le_of_nearer_end hl hu hend ?_⟩
  exact_mod_cast value_le_or_ge c p

theorem signBit_of_pos {a : B64} (h : 0 < value a) : signBit a = false := by
  by_contra hs
  rw [value, if_pos (by simpa using hs)] at h
  omega

/-- The root of a finite value above zero, in the form of its definition. -/
theorem sqrt_of_pos {a : B64} (ha : isFinite a = true) (h : 0 < value a) :
    sqrt a = ofMag false (sqrtMag (magValue (mag a))) := by
  have hz : isZero a = false := by
    rw [Bool.eq_false_iff, ne_eq, isZero_iff, ← value_eq_zero]
    exact h.ne'
  simp [sqrt, isNaN_of_isFinite ha, isInf_of_isFinite ha, hz, signBit_of_pos h]

/-- A zero is its own root. -/
theorem sqrt_of_zero {a : B64} (ha : isFinite a = true) (h : value a = 0) : sqrt a = a := by
  simp [sqrt, isNaN_of_isFinite ha, isZero_iff.2 (value_eq_zero.1 h)]

end F64

namespace Machine

/-- Settles O58: each operator rounds its exact result once. -/
theorem arithmeticIsCorrectlyRounded : Obligations.ArithmeticIsCorrectlyRounded := by
  intro a b c ha hb hc
  have hnb : F64.isFinite (F64.neg b) = true := (F64.isFinite_neg b).trans hb
  refine ⟨?add, ?sub, ?mul, ?div⟩
  case add =>
    rintro _ rfl
    simpa [F64.NearerThan, F64.add] using F64.nearerThan_addAs ha hb hc .add
  case sub =>
    rintro _ rfl
    simpa [F64.NearerThan, F64.sub, ← Int.sub_eq_add_neg] using F64.nearerThan_addAs ha hnb hc .sub
  case mul =>
    rintro _ rfl
    exact F64.nearerThan_mul ha hb hc
  case div =>
    rintro h0 _ rfl
    exact F64.nearerThan_div ha hb hc h0

/-- Settles O59: a zero is its own root, and any other root is the nearer of the two patterns that
the bit search leaves. -/
theorem squareRootIsCorrectlyRounded : Obligations.SquareRootIsCorrectlyRounded := by
  intro a c ha h0 _
  obtain hzero | hpos := h0.eq_or_lt
  · rw [F64.sqrt_of_zero ha hzero.symm, ← hzero]
    exact ⟨ha, by simp⟩
  · obtain ⟨hfin, hnear⟩ := F64.sqrtMag_nearest (F64.sqrt_arg_lt (F64.isFinite_iff.1 ha))
    have hlt := hfin.trans F64.infMag_lt
    rw [F64.sqrt_of_pos ha hpos, F64.isFinite_iff, F64.mag_ofMag hlt, F64.value_ofMag_false hfin.le,
      F64.value_of_nonneg h0]
    exact ⟨hfin, by simpa using hnear c⟩

end Machine

end Sys2Proof
end
